-- ==== Sys2Proof/Word.lean ====
section
/-! DEFINITION. The two word types of the block: a byte (R15) and the 32-bit host word (R25, R70). -/

namespace Sys2Proof

/-- A byte is 8 bits (R15). -/
abbrev Byte := BitVec 8

/-- The width of the host port's registers and of a command word (R25, R70). -/
abbrev Word := BitVec 32

end Sys2Proof
end

