-- ==== Sys2Proof/Config.lean ====
section
/-! DEFINITION. What is fixed for one machine (the parameters of R9 to R13) and the free values of the environment
(R62). `Config.board` is the machine's own configuration: legal, and otherwise unknown (log 1). -/

namespace Sys2Proof

/-- The level of a line or of the busy input: `false` is 0 and `true` is 1 (R10, R20). -/
abbrev Level := Bool

/-- A panel command: opcode and payload (R13). -/
structure Command where
  opcode : Byte
  payload : List Byte
deriving DecidableEq, Repr, Inhabited

/-- The arguments of `PP.WINDOW`, with exclusive ends `x1` and `y1` (R13). -/
structure Window where
  x0 : Nat
  y0 : Nat
  x1 : Nat
  y1 : Nat
deriving DecidableEq, Repr, Inhabited

/-- The panel profile `PP` (R13). `windowTable` is the graph of `PP.WINDOW` as plain data, read by `Profile.window`
(DESIGN CHOICE, safe, log 2). -/
structure Profile where
  initSeq : List Command
  wakeSeq : List Command
  opWriteRam : Byte
  windowTable : List (Window × List Command)
  fullTrigger : List Command
  partialTrigger : List Command
  sleepCmd : Command
deriving DecidableEq, Repr, Inhabited

/-- The implementation parameters, under the spec's names (R9 to R13). -/
structure Params where
  /-- `P_W`, native width in pixels (R9). -/
  pW : Nat
  /-- `P_H`, native height in pixels (R9). -/
  pH : Nat
  /-- `P_DC_CMD`, the data/command level meaning "command" (R10). -/
  pDcCmd : Level
  /-- `P_CS_PRESENT`, whether a chip-select line is driven (R10). -/
  pCsPresent : Bool
  /-- `P_CS_ACTIVE`, the chip-select level meaning "selected" (R10). -/
  pCsActive : Level
  /-- `P_BUSY_ACTIVE`, the busy level meaning "busy" (R10). -/
  pBusyActive : Level
  /-- `P_T_RST_LOW` in milliseconds (R11). -/
  pTRstLow : Nat
  /-- `P_T_RST_SETTLE` in milliseconds (R11). -/
  pTRstSettle : Nat
  /-- `P_T_SLEEP` in milliseconds (R11). -/
  pTSleep : Nat
  /-- `P_POLL` in milliseconds (R11). -/
  pPoll : Nat
  /-- `P_TMO_INIT` in milliseconds (R11). -/
  pTmoInit : Nat
  /-- `P_TMO_WAKE` in milliseconds (R11). -/
  pTmoWake : Nat
  /-- `P_TMO_REFRESH` in milliseconds (R11). -/
  pTmoRefresh : Nat
  /-- `P_CHUNK`, the most framebuffer bytes in one data transaction (R12). -/
  pChunk : Nat
  /-- `PP`, the panel profile (R13). -/
  pp : Profile
deriving DecidableEq, Repr

/-- The legal values of the parameters (R9, R11, R12, R13). -/
def Params.legal (p : Params) : Bool :=
  decide (8 ≤ p.pW) && decide (p.pW ≤ 8184) && decide (p.pW % 8 = 0)
    && decide (1 ≤ p.pH) && decide (p.pH ≤ 8191)
    && decide (1 ≤ p.pPoll) && decide (1 ≤ p.pChunk)
    && !p.pp.fullTrigger.isEmpty && !p.pp.partialTrigger.isEmpty

/-- A configuration of the block: legal parameters. An illegal one has no `Config`, so the model has no meaning for it,
as R9 says. -/
structure Config extends Params where
  isLegal : toParams.legal = true
deriving DecidableEq, Repr

/-- The configuration that parameters make: none is the refusal of R9 for a configuration outside the legal ranges. -/
def Config.ofParams (p : Params) : Option Config :=
  if h : p.legal = true then some ⟨p, h⟩ else none

/-- The example parameters of R9 to R12 around a panel profile. They are fixed by no rule (R8). -/
def Params.exampleOf (pp : Profile) : Params where
  pW := 400
  pH := 300
  pDcCmd := false
  pCsPresent := true
  pCsActive := false
  pBusyActive := true
  pTRstLow := 10
  pTRstSettle := 10
  pTSleep := 0
  pPoll := 10
  pTmoInit := 500
  pTmoWake := 500
  pTmoRefresh := 5000
  pChunk := 15000
  pp := pp

/-- A profile with the shortest legal triggers, used only to show that a legal configuration exists. -/
def Profile.shortest : Profile where
  initSeq := []
  wakeSeq := []
  opWriteRam := 0
  windowTable := []
  fullTrigger := [⟨0, []⟩]
  partialTrigger := [⟨0, []⟩]
  sleepCmd := ⟨0, []⟩

/-- A legal configuration exists. -/
@[reducible] def Config.inhabited : Inhabited Config :=
  ⟨⟨Params.exampleOf Profile.shortest, by decide⟩⟩

/-- A free configuration: nothing about it can be proved but that it is legal (log 1). -/
opaque Config.freeConfig [Inhabited Config] : Config

/-- The configuration of the machine at hand (DESIGN CHOICE, safe, log 1). -/
def Config.board : Config := @Config.freeConfig Config.inhabited

/-- What the transport answers a `BusWrite` (R16, R29). -/
inductive BusResult where
  | ok
  | err
deriving DecidableEq, Repr, Inhabited

/-- The transport's answer at draw number `n`, where the state names no answer (R62; a free value, log 3). -/
opaque Config.freeBusResult : Nat → BusResult

/-- The busy level at draw number `n`, where the state names no answer (R62; a free value, log 3). -/
opaque Config.freeBusyLevel : Nat → Level

end Sys2Proof
end

