-- ==== Sys2Proof/Machine/Geometry.lean ====
section
/-! DEFINITION. The constants derived from the parameters (R9, R10) and the lookup of `PP.WINDOW` (R13). -/

namespace Sys2Proof

/-- `ROW_BYTES = P_W / 8` (R9). -/
def Params.rowBytes (p : Params) : Nat := p.pW / 8

/-- `FB_BYTES = P_W * P_H / 8` (R9). -/
def Params.fbBytes (p : Params) : Nat := p.pW * p.pH / 8

/-- `DC_DATA = 1 - P_DC_CMD` (R10). -/
def Params.dcData (p : Params) : Level := !p.pDcCmd

/-- `CS_IDLE = 1 - P_CS_ACTIVE` (R10). -/
def Params.csIdle (p : Params) : Level := !p.pCsActive

/-- `PP.WINDOW(x0, y0, x1, y1)` (R13), read from its table; a window the table does not list has no commands (log 2). -/
def Profile.window (pp : Profile) (x0 y0 x1 y1 : Nat) : List Command :=
  match pp.windowTable.find? (fun e => e.1 = ⟨x0, y0, x1, y1⟩) with
  | some e => e.2
  | none => []

end Sys2Proof
end

