-- ==== Sys2Proof/Syntax.lean ====
section
/-! DEFINITION. The host operations as syntax: one constructor of `Instr` per row of spec/opcode_table.json (R77). -/

namespace Sys2Proof

/-- A colour is one bit: white is 0 and black is 1 (R17, R73). -/
inductive Color where
  | white
  | black
deriving DecidableEq, Repr, Inhabited

/-- The four rotations, coded 0, 1, 2 and 3 in this order (R18, R72). -/
inductive Rotation where
  | r0
  | r90
  | r180
  | r270
deriving DecidableEq, Repr, Inhabited

/-- The ten host operations (R77). Coordinates and rows are naturals (R118); the 13-bit fields that carry them bound
them in `Instr.wellFormed` (R74, R75). -/
inductive Instr where
  /-- FBNEW, R100. -/
  | fbnew
  /-- SETROT, R103. -/
  | setrot (rot : Rotation)
  /-- CLEAR, R106. -/
  | clear (color : Color)
  /-- PSET, R110: logical coordinates. -/
  | pset (color : Color) (x y : Nat)
  /-- PGET, R115: logical coordinates. -/
  | pget (x y : Nat)
  /-- INIT, R161. -/
  | init
  /-- FULL, R166. -/
  | full
  /-- PARTIAL, R172: native rows, `ye` exclusive. -/
  | partialRefresh (ys ye : Nat)
  /-- SLEEP, R177. -/
  | sleep
  /-- WAKE, R180. -/
  | wake
deriving DecidableEq, Repr, Inhabited

end Sys2Proof
end

