-- ==== Sys2Proof/Machine/State.lean ====
section
/-! DEFINITION. The state of the machine as plain data: the nine fields of the block state `S` (R20), and the model's own
fields around it (the configuration, the host port's pending inputs and replies, the panel trace, the environment's
answers). The state after reset (R36, R230). -/

namespace Sys2Proof.Machine

/-- The stored states of the refresh FSM (R20, R21). The value 3 is never held, so it has no constructor (log 17). -/
inductive Fsm where
  | uninit
  | awake
  | sleeping
deriving DecidableEq, Repr, Inhabited

/-- The result codes (R200). Codes 9 to 15 are never written, so they have no constructor (log 17). -/
inductive ResultCode where
  | ok
  | busTransportError
  | busyTimeout
  | initTimeout
  | notAwake
  | invalidRegion
  | outOfBounds
  | badState
  | illegalCommand
deriving DecidableEq, Repr, Inhabited

/-- The output lines (R16, R29). -/
inductive Line where
  | dc
  | cs
  | rst
deriving DecidableEq, Repr, Inhabited

/-- The panel events (R57). -/
inductive Event where
  /-- `DC(l)`, `CS(l)` or `RST(l)`: the line is driven to the level. -/
  | pin (line : Line) (level : Level)
  /-- `W(bs)` and the transport's answer. -/
  | write (bytes : List Byte) (result : BusResult)
  /-- `B?` and the level read. -/
  | busy (level : Level)
  /-- `D(ms)`. -/
  | delay (ms : Nat)
deriving DecidableEq, Repr

/-- What can happen to the block from the host's side (R25, R47, R230). -/
inductive HostInput where
  /-- A write access of `bits` bits at a port offset. -/
  | write (bits offset : Nat) (value : Word)
  /-- A read access of `bits` bits at a port offset. -/
  | read (bits offset : Nat)
  /-- The block's reset input, asserted and released between two accesses (R230). -/
  | blockReset
  /-- A 32-bit write of `value` to `CMD` whose operation the reset input cuts after `events` of its panel events
  (R230; log 9). -/
  | writeCutByReset (value : Word) (events : Nat)
deriving DecidableEq, Repr

/-- The framebuffer's bytes as a sparse list: strictly rising indices, no entry equal to the background byte (log 10). -/
abbrev Memory := List Host.Cell

structure State where
  /-- The configuration (R9 to R13). Fixed: no step changes it. The model's own field (log 1). -/
  cfg : Config
  /-- `S.fsm` (R20). -/
  fsm : Fsm
  /-- `S.rot` (R20). -/
  rot : Rotation
  /-- `S.fb` (R20, R45). -/
  fb : Memory
  /-- `S.result` (R20, R200). -/
  result : ResultCode
  /-- `S.pix` (R20, R33). -/
  pix : Color
  /-- `S.unk`, PANEL_UNKNOWN (R20, R32). -/
  unk : Bool
  /-- `S.dc` (R20). -/
  dc : Level
  /-- `S.cs` (R20, R59). -/
  cs : Level
  /-- `S.rst`, active low (R20, R10). -/
  rst : Level
  /-- The host-side inputs not served yet, oldest first. The model's own field (log 4). -/
  port : List HostInput
  /-- The words host reads have returned, oldest first. The model's own field (log 7). -/
  replies : List Word
  /-- The recorded panel trace, oldest first (R57). The model's own field (log 6). -/
  trace : List Event
  /-- The answers the transport gives next, oldest first (R62). The model's own field (log 3). -/
  busAnswers : List BusResult
  /-- The levels the busy input has at the next samples, oldest first (R62). The model's own field (log 3). -/
  busyAnswers : List Level
  /-- How many answers have been drawn, of both kinds: the index of the next free value. The model's own field (log 3). -/
  draws : Nat
deriving DecidableEq, Repr

/-- The block has no traps (R205): no step ends in a fault, so there is no reason for one (safe, log 15). -/
inductive Fault where
deriving DecidableEq, Repr

/-- Why a step is refused. -/
inductive Refusal where
  /-- Raised by `exec` for an instruction without a meaning; no arm raises it now. Safe: the run stops. -/
  | notModelled (mnemonic : String)
  /-- Raised by `serve` for a port access that is not 32 bits wide: "A narrower access has no meaning, and a model refuses
  it" (R25, D36). Safe: the run stops (log 8). -/
  | accessWidth
deriving DecidableEq, Repr

/-- The state after reset of a machine with configuration `c`: R36 field by field, and nothing pending, replied, recorded
or drawn (log 18). -/
def State.resetOf (c : Config) : State where
  cfg := c
  fsm := .uninit
  rot := .r0
  fb := []
  result := .ok
  pix := .white
  unk := false
  dc := c.dcData
  cs := c.csIdle
  rst := true
  port := []
  replies := []
  trace := []
  busAnswers := []
  busyAnswers := []
  draws := 0

/-- The machine right after reset (R36, R230), with the configuration of the machine at hand (log 1). -/
def State.reset : State := State.resetOf Config.board

end Sys2Proof.Machine
end

