-- ==== Sys2Proof/Machine/Ops.lean ====
section
/-! DEFINITION. The primitives of R16: reading and writing a framebuffer byte, driving a line, a bus write, a busy sample, a
delay, and the two ways an operation ends (`return Ok` and `raise E`). The block's reset (R230, R37). -/

namespace Sys2Proof.Machine

/-- What a byte that nothing has written reads as: the reset contents 0x00 (R36). -/
def background : Byte := 0x00#8

/-- `MemRead(i, 1)` (R16, R45). -/
def Memory.read : Memory → Nat → Byte
  | [], _ => background
  | (k, v) :: rest, a => if k = a then v else Memory.read rest a

/-- `MemWrite(i, 1, v)` (R16, R45), keeping the canonical form: writing the background byte removes the entry (log 10). -/
def Memory.write : Memory → Nat → Byte → Memory
  | [], a, v => if v = background then [] else [(a, v)]
  | (k, u) :: rest, a, v =>
    if a < k then (if v = background then (k, u) :: rest else (a, v) :: (k, u) :: rest)
    else if a = k then (if v = background then rest else (k, v) :: rest)
    else (k, u) :: Memory.write rest a v

/-- The loop `for i in 0 .. n-1: MemWrite(i, 1, v)` over a memory with no byte at or above `n` (R100, R106). -/
def Memory.fill (n : Nat) (v : Byte) : Memory :=
  if v = background then [] else (List.range n).map (fun i => (i, v))

/-- The canonical form: indices strictly rise, and no entry equals the background byte (log 10). -/
def Memory.wf (m : Memory) : Bool :=
  decide (m.Pairwise (fun a b => a.1 < b.1)) && m.all (fun e => decide (e.2 ≠ background))

/-- Every listed index is below `n`: the framebuffer has no byte at or above `FB_BYTES` (R45, R46). -/
def Memory.below (m : Memory) (n : Nat) : Bool := m.all (fun e => decide (e.1 < n))

/-- Appends one event to the panel trace (R57). -/
def State.record (s : State) (e : Event) : State := { s with trace := s.trace ++ [e] }

/-- Drives a line's level, with no event. -/
def State.setLevel (s : State) (p : Line) (l : Level) : State :=
  match p with
  | .dc => { s with dc := l }
  | .cs => { s with cs := l }
  | .rst => { s with rst := l }

/-- Whether a line is driven at all: chip-select only when `P_CS_PRESENT` (R59). -/
def State.drives (s : State) : Line → Bool
  | .dc => true
  | .cs => s.cfg.pCsPresent
  | .rst => true

/-- `SetPin(p, l)` (R16); on chip-select it does nothing and records nothing when `P_CS_PRESENT` is false (R59). A
redundant set is recorded, as R58 allows (log 6). -/
def State.setPin (s : State) (p : Line) (l : Level) : State :=
  if s.drives p then (s.setLevel p l).record (.pin p l) else s

/-- The transport's next answer: the next one the state names, else the free value of this draw (R62, log 3). -/
def State.nextBusResult (s : State) : BusResult :=
  match s.busAnswers with
  | [] => Config.freeBusResult s.draws
  | r :: _ => r

/-- The busy input's next level: the next one the state names, else the free value of this draw (R62, log 3). -/
def State.nextBusyLevel (s : State) : Level :=
  match s.busyAnswers with
  | [] => Config.freeBusyLevel s.draws
  | l :: _ => l

/-- `r <- BusWrite(bs)` (R16). -/
def State.busWrite (s : State) (bs : List Byte) : BusResult × State :=
  (s.nextBusResult,
    { s.record (.write bs s.nextBusResult) with busAnswers := s.busAnswers.tail, draws := s.draws + 1 })

/-- `b <- ReadBusy()` (R16). -/
def State.readBusy (s : State) : Level × State :=
  (s.nextBusyLevel,
    { s.record (.busy s.nextBusyLevel) with busyAnswers := s.busyAnswers.tail, draws := s.draws + 1 })

/-- `Delay(ms)` (R16); `Delay(0)` does nothing and records nothing (R60). -/
def State.delay (s : State) (ms : Nat) : State :=
  if ms = 0 then s else s.record (.delay ms)

/-- `raise E`: the operation ends at once with `S.result <- E` and nothing else (R16, R205). It is the one shared end of
every failure; there is nothing to return from (R206). -/
def State.raise (s : State) (e : ResultCode) : State := { s with result := e }

/-- `return Ok`: the operation ends with `S.result <- Ok` (R16). -/
def State.returnOk (s : State) : State := { s with result := .ok }

/-- What an `Illegal` word does: `S.result <- IllegalCommand` and nothing else (R79). -/
def State.illegal (s : State) : State := s.raise .illegalCommand

/-- The block's reset input: the lines are driven to their reset levels, with no other panel event (R37), and every field
of `S` takes its reset value (R230, R36). The order CS, DC, RST of the three line sets is the model's own (DESIGN CHOICE,
unsafe, log 19): R37 and R230 give the levels and no order. -/
def State.blockReset (s : State) : State :=
  { (((s.setPin .cs s.cfg.csIdle).setPin .dc s.cfg.dcData).setPin .rst true) with
    fsm := .uninit
    rot := .r0
    fb := []
    result := .ok
    pix := .white
    unk := false
    dc := s.cfg.dcData
    cs := s.cfg.csIdle
    rst := true }

/-- The effect of one recorded event on the lines, the trace and the environment's answers: what is left of an operation
that is cut after some of its events (R207, R230; log 9). -/
def State.replayEvent (s : State) : Event → State
  | .pin p l => (s.setLevel p l).record (.pin p l)
  | .write bs r => { s.record (.write bs r) with busAnswers := s.busAnswers.tail, draws := s.draws + 1 }
  | .busy l => { s.record (.busy l) with busyAnswers := s.busyAnswers.tail, draws := s.draws + 1 }
  | .delay ms => s.record (.delay ms)

/-- The effects of several recorded events, in order. -/
def State.replay (s : State) (evs : List Event) : State := evs.foldl State.replayEvent s

end Sys2Proof.Machine
end

