-- ==== Sys2Proof/Machine/Operands.lean ====
section
/-! DEFINITION. The operand computations, all on naturals with no width limit (R118): logical dimensions and the rotation
transform (R101, R102), bounds (R108), pixel packing (R48, R49), the bits of a byte, and the region check (R170). -/

namespace Sys2Proof.Machine

/-- `LW(r)` (R101). -/
def logicalWidth (p : Params) : Rotation → Nat
  | .r0 => p.pW
  | .r90 => p.pH
  | .r180 => p.pW
  | .r270 => p.pH

/-- `LH(r)` (R101). -/
def logicalHeight (p : Params) : Rotation → Nat
  | .r0 => p.pH
  | .r90 => p.pW
  | .r180 => p.pH
  | .r270 => p.pW

/-- `InBounds(x, y, r)` (R108). -/
def inBounds (p : Params) (r : Rotation) (x y : Nat) : Bool :=
  decide (x < logicalWidth p r) && decide (y < logicalHeight p r)

/-- `ToNative(x, y, r)` (R102), evaluated only in bounds (R118). -/
def toNative (p : Params) (r : Rotation) (x y : Nat) : Nat × Nat :=
  match r with
  | .r0 => (x, y)
  | .r90 => (p.pW - 1 - y, x)
  | .r180 => (p.pW - 1 - x, p.pH - 1 - y)
  | .r270 => (y, p.pH - 1 - x)

/-- `ByteIndex(x', y')` (R48). -/
def byteIndex (p : Params) (x y : Nat) : Nat := y * p.rowBytes + x / 8

/-- `BitIndex(x')`: the leftmost pixel of a byte is bit 7 (R48). -/
def bitIndex (x : Nat) : Nat := 7 - x % 8

/-- Bit `k` of a byte as a colour: black when it is 1 (R17, R49). -/
def bitColor (v : Byte) (k : Nat) : Color := if v.getLsbD k then .black else .white

/-- `v[k] <- c` (R15, R110). -/
def setBitColor (v : Byte) (k : Nat) (c : Color) : Byte :=
  match c with
  | .black => v ||| (1#8 <<< k)
  | .white => v &&& ~~~(1#8 <<< k)

/-- The byte every pixel of which has the colour (R106). -/
def fillByte : Color → Byte
  | .white => 0x00#8
  | .black => 0xFF#8

/-- `PixelAt(x', y')` of a native pixel (R49). -/
def pixelAt (p : Params) (fb : Memory) (x y : Nat) : Color :=
  bitColor (fb.read (byteIndex p x y)) (bitIndex x)

/-- A region is valid when `ys < ye` and `ye <= P_H` (R170). -/
def validRegion (p : Params) (ys ye : Nat) : Bool := decide (ys < ye) && decide (ye ≤ p.pH)

end Sys2Proof.Machine
end

