-- ==== Sys2Proof/Machine/Framebuffer.lean ====
section
/-! DEFINITION. The framebuffer and rotator operations FBNEW, SETROT, CLEAR, PSET and PGET (R100 to R120). Each runs in every
FSM state and makes no panel event (R119). -/

namespace Sys2Proof.Machine

/-- FBNEW (R100). -/
def fbnew (s : State) : State :=
  ({ s with fb := Memory.fill s.cfg.fbBytes 0x00#8, rot := .r0 }).returnOk

/-- SETROT (R103, R104). -/
def setRotation (r : Rotation) (s : State) : State := ({ s with rot := r }).returnOk

/-- CLEAR (R106). -/
def clearTo (c : Color) (s : State) : State :=
  ({ s with fb := Memory.fill s.cfg.fbBytes (fillByte c) }).returnOk

/-- The framebuffer byte that holds logical pixel `(x, y)` under the current rotation (R48, R102). -/
def pixelByte (s : State) (x y : Nat) : Nat :=
  byteIndex s.cfg.toParams (toNative s.cfg.toParams s.rot x y).1 (toNative s.cfg.toParams s.rot x y).2

/-- The bit of that byte that holds logical pixel `(x, y)` under the current rotation (R48, R102). -/
def pixelBit (s : State) (x y : Nat) : Nat := bitIndex (toNative s.cfg.toParams s.rot x y).1

/-- PSET (R110, R111). -/
def pixelSet (c : Color) (x y : Nat) (s : State) : State :=
  if inBounds s.cfg.toParams s.rot x y then
    ({ s with
      fb := s.fb.write (pixelByte s x y) (setBitColor (s.fb.read (pixelByte s x y)) (pixelBit s x y) c) }).returnOk
  else s.raise .outOfBounds

/-- PGET (R115, R116). -/
def pixelGet (x y : Nat) (s : State) : State :=
  if inBounds s.cfg.toParams s.rot x y then
    ({ s with pix := bitColor (s.fb.read (pixelByte s x y)) (pixelBit s x y) }).returnOk
  else s.raise .outOfBounds

/-- The meaning of FBNEW. -/
def execFbnew (s : State) : Host.Outcome State Fault Refusal := .next (fbnew s)

/-- The meaning of SETROT. -/
def execSetrot (r : Rotation) (s : State) : Host.Outcome State Fault Refusal := .next (setRotation r s)

/-- The meaning of CLEAR. -/
def execClear (c : Color) (s : State) : Host.Outcome State Fault Refusal := .next (clearTo c s)

/-- The meaning of PSET. -/
def execPset (c : Color) (x y : Nat) (s : State) : Host.Outcome State Fault Refusal := .next (pixelSet c x y s)

/-- The meaning of PGET. -/
def execPget (x y : Nat) (s : State) : Host.Outcome State Fault Refusal := .next (pixelGet x y s)

end Sys2Proof.Machine
end

