-- ==== Sys2Proof/WellFormed.lean ====
section
/-! DEFINITION. Which terms of `Instr` a command word can spell: every coordinate or row fits its 13-bit field (R74, R75).
A rotation and a colour are legal at every value of their types (R72, R73). -/

namespace Sys2Proof

/-- The values of a 13-bit unsigned field: 0 to 8191 (R74, R75, R82). -/
abbrev fits13 (n : Nat) : Bool := decide (n < 8192)

/-- An instruction a command word can spell. A coordinate outside the current geometry is well formed: decode accepts it
and execution reports it (R74, R75). -/
def Instr.wellFormed : Instr → Bool
  | .fbnew => true
  | .setrot _ => true
  | .clear _ => true
  | .pset _ x y => fits13 x && fits13 y
  | .pget x y => fits13 x && fits13 y
  | .init => true
  | .full => true
  | .partialRefresh ys ye => fits13 ys && fits13 ye
  | .sleep => true
  | .wake => true

end Sys2Proof
end

