-- ==== Sys2Proof/Decode.lean ====
section
/-! DEFINITION. Decoding of a command word, written from the pseudocode of R78, and the encoder written from the formats of
R71 and the words of R82. -/

namespace Sys2Proof

/-- Why a word is `Illegal` (R79): its `OP` spells no operation, or a reserved bit is set. -/
inductive Illegal where
  | opcode
  | reservedBit
deriving DecidableEq, Repr

/-- The code of a colour (R17, R73). -/
def Color.code : Color → BitVec 1
  | .white => 0#1
  | .black => 1#1

/-- The colour of a code (R17, R73). -/
def Color.ofCode (b : BitVec 1) : Color := if b = 1#1 then .black else .white

/-- The code of a rotation (R18, R72). -/
def Rotation.code : Rotation → BitVec 2
  | .r0 => 0#2
  | .r90 => 1#2
  | .r180 => 2#2
  | .r270 => 3#2

/-- The rotation of a code; all four are legal (R72). -/
def Rotation.ofCode (b : BitVec 2) : Rotation :=
  if b = 0#2 then .r0 else if b = 1#2 then .r90 else if b = 2#2 then .r180 else .r270

/-- `cw[31:28]` (R70). -/
def fieldOp (cw : Word) : BitVec 4 := cw.extractLsb' 28 4

/-- `cw[1:0]` (R72). -/
def fieldRot (cw : Word) : BitVec 2 := cw.extractLsb' 0 2

/-- `cw[27]` (R73). -/
def fieldColor (cw : Word) : BitVec 1 := cw.extractLsb' 27 1

/-- `zext(cw[25:13])`, which holds X or YS (R74, R75). -/
def fieldHigh (cw : Word) : Nat := (cw.extractLsb' 13 13).toNat

/-- `zext(cw[12:0])`, which holds Y or YE (R74, R75). -/
def fieldLow (cw : Word) : Nat := (cw.extractLsb' 0 13).toNat

/-- Decode in full (R78). -/
def decode (cw : Word) : Except Illegal Instr :=
  if fieldOp cw = 0x1#4 then
    if cw.extractLsb' 0 28 ≠ 0 then .error .reservedBit else .ok .fbnew
  else if fieldOp cw = 0x6#4 then
    if cw.extractLsb' 0 28 ≠ 0 then .error .reservedBit else .ok .init
  else if fieldOp cw = 0x7#4 then
    if cw.extractLsb' 0 28 ≠ 0 then .error .reservedBit else .ok .full
  else if fieldOp cw = 0x9#4 then
    if cw.extractLsb' 0 28 ≠ 0 then .error .reservedBit else .ok .sleep
  else if fieldOp cw = 0xA#4 then
    if cw.extractLsb' 0 28 ≠ 0 then .error .reservedBit else .ok .wake
  else if fieldOp cw = 0x2#4 then
    if cw.extractLsb' 2 26 ≠ 0 then .error .reservedBit
    else .ok (.setrot (Rotation.ofCode (fieldRot cw)))
  else if fieldOp cw = 0x3#4 then
    if cw.extractLsb' 0 27 ≠ 0 then .error .reservedBit
    else .ok (.clear (Color.ofCode (fieldColor cw)))
  else if fieldOp cw = 0x4#4 then
    if cw.extractLsb' 26 1 ≠ 0 then .error .reservedBit
    else .ok (.pset (Color.ofCode (fieldColor cw)) (fieldHigh cw) (fieldLow cw))
  else if fieldOp cw = 0x5#4 then
    if cw.extractLsb' 26 2 ≠ 0 then .error .reservedBit
    else .ok (.pget (fieldHigh cw) (fieldLow cw))
  else if fieldOp cw = 0x8#4 then
    if cw.extractLsb' 26 2 ≠ 0 then .error .reservedBit
    else .ok (.partialRefresh (fieldHigh cw) (fieldLow cw))
  else .error .opcode

/-- The format with a reserved `[27:0]`: `OP` alone (R71, format N). -/
def encodeN (op : BitVec 4) : Word := op ++ 0#28

/-- Formats P and R: `OP`, `[27]`, a 0 in `[26]`, `[25:13]` and `[12:0]` (R71). -/
def encodeP (op : BitVec 4) (c : BitVec 1) (hi lo : Nat) : Word :=
  op ++ c ++ 0#1 ++ BitVec.ofNat 13 hi ++ BitVec.ofNat 13 lo

/-- The command word of an instruction (R71, R77, R82). An operand wider than its field is cut; `Instr.wellFormed` says
when none is. -/
def encode : Instr → Word
  | .fbnew => encodeN 0x1#4
  | .setrot r => 0x2#4 ++ 0#26 ++ r.code
  | .clear c => 0x3#4 ++ c.code ++ 0#27
  | .pset c x y => encodeP 0x4#4 c.code x y
  | .pget x y => encodeP 0x5#4 0#1 x y
  | .init => encodeN 0x6#4
  | .full => encodeN 0x7#4
  | .partialRefresh ys ye => encodeP 0x8#4 0#1 ys ye
  | .sleep => encodeN 0x9#4
  | .wake => encodeN 0xA#4

/-- The instruction the decoder reads from the bits `w`, bit 0 the least significant (the table's numbering). Every
command is one 32-bit word (R70, R81), which has no byte order (R53, log 12); `nbits` bits of it are given, and the bits
above are 0. -/
def decodeTableWord (nbits w : Nat) : Option Instr :=
  if w < 2 ^ 32 then (decode (BitVec.ofNat 32 (w % 2 ^ nbits))).toOption else none

end Sys2Proof
end

