-- ==== Sys2Proof/Machine/Flags.lean ====
section
/-! DEFINITION. The status fields and their codes: the result codes (R200), the FSM's code (R20), the `STATUS` image (R26),
and the result code of a micro-operation's error (R185). -/

namespace Sys2Proof.Machine

/-- The numeric value of a result code (R200). -/
def ResultCode.code : ResultCode → BitVec 4
  | .ok => 0#4
  | .busTransportError => 1#4
  | .busyTimeout => 2#4
  | .initTimeout => 3#4
  | .notAwake => 4#4
  | .invalidRegion => 5#4
  | .outOfBounds => 6#4
  | .badState => 7#4
  | .illegalCommand => 8#4

/-- The two classes of error: hardware and caller logic; `Ok` is none (R200, R204). -/
inductive ErrorClass where
  | none
  | hardware
  | callerLogic
deriving DecidableEq, Repr

/-- The class of a result code (R200, R204). -/
def ResultCode.errorClass : ResultCode → ErrorClass
  | .ok => .none
  | .busTransportError => .hardware
  | .busyTimeout => .hardware
  | .initTimeout => .hardware
  | .notAwake => .callerLogic
  | .invalidRegion => .callerLogic
  | .outOfBounds => .callerLogic
  | .badState => .callerLogic
  | .illegalCommand => .callerLogic

/-- The code of the FSM state (R20). -/
def Fsm.code : Fsm → BitVec 2
  | .uninit => 0#2
  | .awake => 1#2
  | .sleeping => 2#2

/-- `STATUS = zext_32({S.unk, S.pix, S.rot, S.fsm, S.result})` (R26). -/
def State.status (s : State) : Word :=
  (BitVec.ofBool s.unk ++ s.pix.code ++ s.rot.code ++ s.fsm.code ++ s.result.code).setWidth 32

/-- The errors a micro-operation returns (R130, R131, R141). -/
inductive MicroError where
  | busTransportError
  | timeout
deriving DecidableEq, Repr

/-- The code an operation raises for a micro-operation's error: `Timeout` becomes the operation's own timeout code
(R185). -/
def MicroError.resultCode (onTimeout : ResultCode) : MicroError → ResultCode
  | .busTransportError => .busTransportError
  | .timeout => onTimeout

end Sys2Proof.Machine
end

