-- ==== Sys2Proof/Machine/Channel.lean ====
section
/-! DEFINITION. The command framer's micro-operations (R130 to R139): SendCommand, SendData, Issue, IssueList, ResetPulse
and SendFrame. The host reaches none of them directly. -/

namespace Sys2Proof.Machine

/-- What a micro-operation returns: `Ok` or `Err(E)` (R16). -/
inductive MicroReply where
  | ok
  | err (e : MicroError)
deriving DecidableEq, Repr

/-- A micro-operation's reply and the state it leaves. -/
abbrev Micro := MicroReply × State

/-- Runs `k` after a micro-operation that returned `Ok`; an error is passed on with no further event (R134, R136). -/
def Micro.andThen (m : Micro) (k : State → Micro) : Micro :=
  match m.1 with
  | .ok => k m.2
  | .err e => (.err e, m.2)

/-- The framer's reply to a transport answer (R130, R131): no retry (R134). -/
def replyOf : BusResult → MicroReply
  | .ok => .ok
  | .err => .err .busTransportError

/-- A transaction: chip-select active, one `BusWrite`, chip-select idle on success and on failure (R133). -/
def transaction (bs : List Byte) (s : State) : Micro :=
  let s₁ := s.setPin .cs s.cfg.pCsActive
  let s₂ := s₁.busWrite bs
  (replyOf s₂.1, s₂.2.setPin .cs s.cfg.csIdle)

/-- `SendCommand(op)` (R130). -/
def sendCommand (op : Byte) (s : State) : Micro :=
  let m := transaction [op] (s.setPin .dc s.cfg.pDcCmd)
  (m.1, m.2.setPin .dc s.cfg.dcData)

/-- `SendData(bs)` (R131); an empty list makes no event (R132). -/
def sendData (bs : List Byte) (s : State) : Micro :=
  match bs with
  | [] => (.ok, s)
  | b :: rest => transaction (b :: rest) (s.setPin .dc s.cfg.dcData)

/-- `Issue((op, pl))` (R135). -/
def issue (c : Command) (s : State) : Micro := Micro.andThen (sendCommand c.opcode s) (sendData c.payload)

/-- `IssueList(l)` (R136). -/
def issueList : List Command → State → Micro
  | [], s => (.ok, s)
  | c :: rest, s => Micro.andThen (issue c s) (issueList rest)

/-- `ResetPulse()` (R137); it cannot fail. -/
def resetPulse (s : State) : State :=
  (((s.setPin .rst false).delay s.cfg.pTRstLow).setPin .rst true).delay s.cfg.pTRstSettle

/-- The framebuffer bytes `[a, a + n)` in increasing index order (R52, R138). -/
def frameBytes (fb : Memory) (a n : Nat) : List Byte := (List.range' a n).map fb.read

/-- The loop of R138 from index `a` with `left = e - a` bytes to go. `fuel` bounds the number of transactions; each takes
at least one byte, so `left` of it is enough (log 16). -/
def sendChunks : Nat → Nat → Nat → State → Micro
  | 0, _, _, s => (.ok, s)
  | fuel + 1, a, left, s =>
    if left = 0 then (.ok, s)
    else
      let n := min s.cfg.pChunk left
      Micro.andThen (sendData (frameBytes s.fb a n) s) (sendChunks fuel (a + n) (left - n))

/-- `SendFrame(y0, y1)` (R138). -/
def sendFrame (y0 y1 : Nat) (s : State) : Micro :=
  let a := y0 * s.cfg.rowBytes
  let e := y1 * s.cfg.rowBytes
  Micro.andThen (sendCommand s.cfg.pp.opWriteRam s) (sendChunks (e - a) a (e - a))

end Sys2Proof.Machine
end

