-- ==== Sys2Proof/Machine/Gate.lean ====
section
/-! DEFINITION. The busy-polling gate (R140 to R146). -/

namespace Sys2Proof.Machine

/-- `Busy(b) = (b = P_BUSY_ACTIVE)` (R140). -/
def isBusy (p : Params) (l : Level) : Bool := decide (l = p.pBusyActive)

/-- The loop of R141. `fuel` bounds the number of samples; `elapsed` grows by `P_POLL ≥ 1` each turn, so `T + 1` of it is
never used up (log 16). -/
def waitLoop (timeout : Nat) : Nat → Nat → State → Micro
  | 0, _, s => (.err .timeout, s)
  | fuel + 1, elapsed, s =>
    let b := s.readBusy
    if isBusy s.cfg.toParams b.1 then
      if timeout ≤ elapsed then (.err .timeout, b.2)
      else waitLoop timeout fuel (elapsed + s.cfg.pPoll) (b.2.delay s.cfg.pPoll)
    else (.ok, b.2)

/-- `WaitIdle(T)` (R141). -/
def waitIdle (timeout : Nat) (s : State) : Micro := waitLoop timeout (timeout + 1) 0 s

end Sys2Proof.Machine
end

