-- ==== Sys2Proof/Machine/Refresh.lean ====
section
/-! DEFINITION. The refresh FSM's operations INIT, FULL, PARTIAL, SLEEP and WAKE (R160 to R187). -/

namespace Sys2Proof.Machine

/-- How INIT and WAKE fail: they have pulsed reset, so the FSM goes to `UNINIT`, and the panel is unknown (R184). -/
def failToUninit (onTimeout : ResultCode) (e : MicroError) (s : State) : State :=
  ({ s with fsm := .uninit, unk := true }).raise (e.resultCode onTimeout)

/-- How FULL, PARTIAL and SLEEP fail: the FSM stays `AWAKE`, and the panel is unknown (R184). -/
def failAwake (onTimeout : ResultCode) (e : MicroError) (s : State) : State :=
  ({ s with unk := true }).raise (e.resultCode onTimeout)

/-- A reset pulse, a command list and a wait: the sequence of INIT (R161) and of WAKE (R180). -/
def wakeSequence (l : List Command) (timeout : Nat) (s : State) : Micro :=
  Micro.andThen (issueList l (resetPulse s)) (waitIdle timeout)

/-- INIT (R161 to R164): runs from every state. -/
def initPanel (s : State) : State :=
  let m := wakeSequence s.cfg.pp.initSeq s.cfg.pTmoInit s
  match m.1 with
  | .ok => ({ m.2 with fsm := .awake, unk := false }).returnOk
  | .err e => failToUninit .initTimeout e m.2

/-- The refresh phase `Awake-Refreshing` (R21, R165): from the first transaction of the trigger until the wait returns. -/
def refreshPhase (trigger : List Command) (s : State) : Micro :=
  Micro.andThen (issueList trigger s) (waitIdle s.cfg.pTmoRefresh)

/-- Window, frame and refresh phase over native rows `[y0, y1)`: the sequence of FULL (R166, R167) and of PARTIAL (R171,
R172), which differ in the rows and the trigger. -/
def refreshSequence (y0 y1 : Nat) (trigger : List Command) (s : State) : Micro :=
  Micro.andThen
    (Micro.andThen (issueList (s.cfg.pp.window 0 y0 s.cfg.pW y1) s) (sendFrame y0 y1))
    (refreshPhase trigger)

/-- The end of FULL and PARTIAL after their sequence (R166, R172, R184). -/
def finishRefresh (m : Micro) : State :=
  match m.1 with
  | .ok => m.2.returnOk
  | .err e => failAwake .busyTimeout e m.2

/-- FULL (R166, R167). -/
def fullUpdate (s : State) : State :=
  match s.fsm with
  | .awake => finishRefresh (refreshSequence 0 s.cfg.pH s.cfg.pp.fullTrigger s)
  | .uninit => s.raise .notAwake
  | .sleeping => s.raise .notAwake

/-- PARTIAL (R170 to R174): the guard comes before the region check (R210). -/
def partialUpdate (ys ye : Nat) (s : State) : State :=
  match s.fsm with
  | .awake =>
    if validRegion s.cfg.toParams ys ye then
      finishRefresh (refreshSequence ys ye s.cfg.pp.partialTrigger s)
    else s.raise .invalidRegion
  | .uninit => s.raise .notAwake
  | .sleeping => s.raise .notAwake

/-- SLEEP (R177, R178). -/
def sleepPanel (s : State) : State :=
  match s.fsm with
  | .sleeping => s.returnOk
  | .uninit => s.raise .notAwake
  | .awake =>
    let m := issue s.cfg.pp.sleepCmd s
    match m.1 with
    | .ok => ({ m.2.delay s.cfg.pTSleep with fsm := .sleeping }).returnOk
    | .err e => failAwake .busyTimeout e m.2

/-- WAKE (R180, R181): a success leaves `S.unk` as it was. -/
def wakePanel (s : State) : State :=
  match s.fsm with
  | .awake => s.returnOk
  | .uninit => s.raise .badState
  | .sleeping =>
    let m := wakeSequence s.cfg.pp.wakeSeq s.cfg.pTmoWake s
    match m.1 with
    | .ok => ({ m.2 with fsm := .awake }).returnOk
    | .err e => failToUninit .busyTimeout e m.2

/-- The meaning of INIT. -/
def execInit (s : State) : Host.Outcome State Fault Refusal := .next (initPanel s)

/-- The meaning of FULL. -/
def execFull (s : State) : Host.Outcome State Fault Refusal := .next (fullUpdate s)

/-- The meaning of PARTIAL. -/
def execPartial (ys ye : Nat) (s : State) : Host.Outcome State Fault Refusal := .next (partialUpdate ys ye s)

/-- The meaning of SLEEP. -/
def execSleep (s : State) : Host.Outcome State Fault Refusal := .next (sleepPanel s)

/-- The meaning of WAKE. -/
def execWake (s : State) : Host.Outcome State Fault Refusal := .next (wakePanel s)

end Sys2Proof.Machine
end

