-- ==== Sys2Proof/Machine/Dispatch.lean ====
section
/-! DEFINITION. One arm per host operation (R77): each calls its meaning. -/

namespace Sys2Proof.Machine

/-- The effect of a host operation. -/
def exec (i : Instr) (s : State) : Host.Outcome State Fault Refusal :=
  match i with
  | .fbnew => Sys2Proof.Machine.execFbnew s
  | .setrot rot => Sys2Proof.Machine.execSetrot rot s
  | .clear color => Sys2Proof.Machine.execClear color s
  | .pset color x y => Sys2Proof.Machine.execPset color x y s
  | .pget x y => Sys2Proof.Machine.execPget x y s
  | .init => Sys2Proof.Machine.execInit s
  | .full => Sys2Proof.Machine.execFull s
  | .partialRefresh ys ye => Sys2Proof.Machine.execPartial ys ye s
  | .sleep => Sys2Proof.Machine.execSleep s
  | .wake => Sys2Proof.Machine.execWake s

end Sys2Proof.Machine
end

