-- ==== Sys2Proof/Machine/Port.lean ====
section
/-! DEFINITION. The host port: the two registers at their offsets (R25, R47), running a command word, and the block's reset
input (R230). -/

namespace Sys2Proof.Machine

/-- The offset of `CMD` (R25, R47). -/
def cmdOffset : Nat := 0x0

/-- The offset of `STATUS` (R25, R47). -/
def statusOffset : Nat := 0x4

/-- The only access width of the port, in bits (R25). -/
def accessBits : Nat := 32

/-- One host operation: the decoded instruction's effect, or that of an `Illegal` word (R78, R79). -/
def runCommand (cw : Word) (s : State) : Host.Outcome State Fault Refusal :=
  match decode cw with
  | .ok i => exec i s
  | .error _ => .next s.illegal

/-- What a 32-bit read returns: the image for `STATUS`, and 0 for `CMD` and every other offset (R25, R47). -/
def readPort (offset : Nat) (s : State) : Word := if offset = statusOffset then s.status else 0

/-- A 32-bit write: a command for `CMD`, and nothing for `STATUS` and every other offset (R25, R47). -/
def writePort (offset : Nat) (value : Word) (s : State) : Host.Outcome State Fault Refusal :=
  if offset = cmdOffset then runCommand value s else .next s

/-- The state a host operation would leave, as far as its first `events` panel events: the framebuffer, FSM and status
fields are not tracked, since the reset that cuts the operation overwrites them (log 9). -/
def cutAfter (events : Nat) (s t : State) : State := s.replay ((t.trace.drop s.trace.length).take events)

/-- A command that the reset input cuts after `events` of its panel events (R230; log 9). -/
def runCutByReset (value : Word) (events : Nat) (s : State) : Host.Outcome State Fault Refusal :=
  match runCommand value s with
  | .next t => .next (cutAfter events s t).blockReset
  | .fault f => .fault f
  | .refused r => .refused r

/-- Serves one host input that has been taken from `port` (R25, R27, R47, R230). -/
def serve (x : HostInput) (s : State) : Host.Outcome State Fault Refusal :=
  match x with
  | .write bits offset value => if bits = accessBits then writePort offset value s else .refused .accessWidth
  | .read bits offset =>
    if bits = accessBits then .next { s with replies := s.replies ++ [readPort offset s] }
    else .refused .accessWidth
  | .blockReset => .next s.blockReset
  | .writeCutByReset value events => runCutByReset value events s

/-- The host input that hands the block one command word (R25, R70). -/
def commandWrite (w : Nat) : HostInput := .write accessBits cmdOffset (BitVec.ofNat 32 w)

end Sys2Proof.Machine
end

