-- ==== Sys2Proof/Machine/Step.lean ====
section
/-! DEFINITION. One step of the machine: the oldest pending host input is served to completion (R27). -/

namespace Sys2Proof.Machine

/-- One step. With no host input pending the block waits for the host and changes nothing (R22, R232). -/
def step : State → Host.Outcome State Fault Refusal := fun s =>
  match s.port with
  | [] => .next s
  | x :: rest => serve x { s with port := rest }

/-- `s` with the command word `w` as the next host input: a 32-bit write to `CMD` ahead of every other (R25, R66; log 4).
A command has 32 bits (R70), and the bits above `nbits` are 0. -/
def State.withFetchWord (s : State) (nbits w : Nat) : State :=
  { s with port := commandWrite (w % 2 ^ nbits) :: s.port }

end Sys2Proof.Machine
end

