-- ==== Sys2Proof/Machine/Assembler.lean ====
section
/-! DEFINITION. The assembly syntax (R82) and the pseudo-instructions (R83): one line of text to one instruction, or none
where the assembler refuses. What R82 leaves open of the text (blanks, letter case of operands) is fixed here (DESIGN
CHOICE, safe, log 13). -/

namespace Sys2Proof.Machine

/-- The pseudo-instructions (R83). -/
inductive Pseudo where
  | clrw
  | clrb
  | pblk (x y : Nat)
  | pwht (x y : Nat)
  | rot0
  | rot90
  | rot180
  | rot270
  | partall
deriving DecidableEq, Repr

/-- The expansion of a pseudo-instruction; PARTALL takes the configuration's `P_H` (R83). -/
def Pseudo.expand (p : Params) : Pseudo → Instr
  | .clrw => .clear .white
  | .clrb => .clear .black
  | .pblk x y => .pset .black x y
  | .pwht x y => .pset .white x y
  | .rot0 => .setrot .r0
  | .rot90 => .setrot .r90
  | .rot180 => .setrot .r180
  | .rot270 => .setrot .r270
  | .partall => .partialRefresh 0 p.pH

/-- A blank between the parts of a line. -/
def isBlank (c : Char) : Bool := c = ' ' || c = '\t'

/-- A text without its outer blanks. -/
def trimBlanks (cs : List Char) : List Char :=
  (((cs.dropWhile isBlank).reverse).dropWhile isBlank).reverse

/-- The pieces of a text between its commas. -/
def splitCommas : List Char → List (List Char)
  | [] => [[]]
  | c :: cs =>
    if c = ',' then [] :: splitCommas cs
    else
      match splitCommas cs with
      | [] => [[c]]
      | piece :: rest => (c :: piece) :: rest

/-- The value of a digit in a base of at most 16. -/
def digitValue (base : Nat) (c : Char) : Option Nat :=
  let v :=
    if '0' ≤ c ∧ c ≤ '9' then c.toNat - '0'.toNat
    else if 'a' ≤ c ∧ c ≤ 'f' then c.toNat - 'a'.toNat + 10
    else if 'A' ≤ c ∧ c ≤ 'F' then c.toNat - 'A'.toNat + 10
    else 16
  if v < base then some v else none

/-- Reads digits onto a number read so far. -/
def readDigits (base : Nat) : Nat → List Char → Option Nat
  | acc, [] => some acc
  | acc, c :: cs =>
    match digitValue base c with
    | some d => readDigits base (acc * base + d) cs
    | none => none

/-- A number: decimal, or hexadecimal after `0x` (R82). -/
def readNumber : List Char → Option Nat
  | [] => none
  | '0' :: 'x' :: d :: ds => readDigits 16 0 (d :: ds)
  | ds => readDigits 10 0 ds

/-- A coordinate or row operand: 0 to 8191, never truncated (R82). -/
def readCoordinate (cs : List Char) : Option Nat :=
  match readNumber cs with
  | some n => if fits13 n then some n else none
  | none => none

/-- `<color>` is `white`, `black`, `0` or `1` (R82). -/
def readColor (cs : List Char) : Option Color :=
  if cs = "white".toList then some .white
  else if cs = "black".toList then some .black
  else if cs = "0".toList then some .white
  else if cs = "1".toList then some .black
  else none

/-- `<angle>` is a number, decimal or hexadecimal, of value 0, 90, 180 or 270, and `ROT = angle / 90`; an angle outside the
four values is refused (R82). -/
def readAngle (cs : List Char) : Option Rotation :=
  match readNumber cs with
  | some n =>
    if n = 0 then some .r0
    else if n = 90 then some .r90
    else if n = 180 then some .r180
    else if n = 270 then some .r270
    else none
  | none => none

/-- The mnemonics: the ten operations and the nine pseudo-instructions (R82, R83). -/
inductive Mnemonic where
  | fbnew | setrot | clear | pset | pget | init | full | partialRefresh | sleep | wake
  | clrw | clrb | pblk | pwht | rot0 | rot90 | rot180 | rot270 | partall
deriving DecidableEq, Repr

/-- The spellings of the mnemonics, in upper case (R82, R83). -/
def mnemonicTable : List (List Char × Mnemonic) :=
  [("FBNEW".toList, .fbnew), ("SETROT".toList, .setrot), ("CLEAR".toList, .clear), ("PSET".toList, .pset),
    ("PGET".toList, .pget), ("INIT".toList, .init), ("FULL".toList, .full), ("PARTIAL".toList, .partialRefresh),
    ("SLEEP".toList, .sleep), ("WAKE".toList, .wake), ("CLRW".toList, .clrw), ("CLRB".toList, .clrb),
    ("PBLK".toList, .pblk), ("PWHT".toList, .pwht), ("ROT0".toList, .rot0), ("ROT90".toList, .rot90),
    ("ROT180".toList, .rot180), ("ROT270".toList, .rot270), ("PARTALL".toList, .partall)]

/-- The mnemonic a text spells; case does not matter (R82). -/
def readMnemonic (cs : List Char) : Option Mnemonic :=
  match mnemonicTable.find? (fun e => e.1 = cs.map Char.toUpper) with
  | some e => some e.2
  | none => none

/-- The operands of a line: the comma-separated pieces after the mnemonic, none if nothing follows it (R82). -/
def operandTexts (cs : List Char) : List (List Char) :=
  match trimBlanks cs with
  | [] => []
  | c :: rest => (splitCommas (c :: rest)).map trimBlanks

/-- An instruction of two coordinates. -/
def withTwo (f : Nat → Nat → Instr) (a b : List Char) : Option Instr :=
  match readCoordinate a, readCoordinate b with
  | some m, some n => some (f m n)
  | _, _ => none

/-- The instruction of a mnemonic and its operands, none where the assembler refuses (R82, R83). -/
def assembleParts (p : Params) (m : Mnemonic) (ops : List (List Char)) : Option Instr :=
  match m, ops with
  | .fbnew, [] => some .fbnew
  | .setrot, [a] => (readAngle a).map Instr.setrot
  | .clear, [c] => (readColor c).map Instr.clear
  | .pset, [x, y, c] =>
    match readColor c with
    | some col => withTwo (Instr.pset col) x y
    | none => none
  | .pget, [x, y] => withTwo Instr.pget x y
  | .init, [] => some .init
  | .full, [] => some .full
  | .partialRefresh, [ys, ye] => withTwo Instr.partialRefresh ys ye
  | .sleep, [] => some .sleep
  | .wake, [] => some .wake
  | .clrw, [] => some (Pseudo.expand p .clrw)
  | .clrb, [] => some (Pseudo.expand p .clrb)
  | .pblk, [x, y] => withTwo (fun m n => Pseudo.expand p (.pblk m n)) x y
  | .pwht, [x, y] => withTwo (fun m n => Pseudo.expand p (.pwht m n)) x y
  | .rot0, [] => some (Pseudo.expand p .rot0)
  | .rot90, [] => some (Pseudo.expand p .rot90)
  | .rot180, [] => some (Pseudo.expand p .rot180)
  | .rot270, [] => some (Pseudo.expand p .rot270)
  | .partall, [] => some (Pseudo.expand p .partall)
  | _, _ => none

/-- Assembles one line (R82). -/
def assembleLine (p : Params) (line : List Char) : Option Instr :=
  let text := trimBlanks line
  match readMnemonic (text.takeWhile (fun c => !isBlank c)) with
  | some m => assembleParts p m (operandTexts (text.dropWhile (fun c => !isBlank c)))
  | none => none

/-- The command word of one line (R82). -/
def assembleWord (p : Params) (line : List Char) : Option Word := (assembleLine p line).map encode

end Sys2Proof.Machine
end

