-- ==== Sys2Proof/Machine/Trace.lean ====
section
/-! DEFINITION. The panel trace as the spec reads it: the observable trace (R58), counts and totals over events (R143, R173,
R244), and the event lists that the rules write out for the micro-operations (R130 to R141). -/

namespace Sys2Proof.Machine

/-- The levels of the three output lines. -/
structure Lines where
  dc : Level
  cs : Level
  rst : Level
deriving DecidableEq, Repr

/-- The lines' levels in a state (R29). -/
def State.lines (s : State) : Lines := ⟨s.dc, s.cs, s.rst⟩

/-- The level of one line. -/
def Lines.level (ls : Lines) : Line → Level
  | .dc => ls.dc
  | .cs => ls.cs
  | .rst => ls.rst

/-- The lines after one of them is driven. -/
def Lines.set (ls : Lines) (l : Level) : Line → Lines
  | .dc => { ls with dc := l }
  | .cs => { ls with cs := l }
  | .rst => { ls with rst := l }

/-- The lines after an event. -/
def Lines.after (ls : Lines) : Event → Lines
  | .pin p l => ls.set l p
  | .write _ _ => ls
  | .busy _ => ls
  | .delay _ => ls

/-- Whether an event drives a line to the level it already has (R58). -/
def Event.redundant (ls : Lines) : Event → Bool
  | .pin p l => decide (ls.level p = l)
  | .write _ _ => false
  | .busy _ => false
  | .delay _ => false

/-- The observable trace from given line levels: the recorded events less every redundant line set (R58). -/
def observable : Lines → List Event → List Event
  | _, [] => []
  | ls, e :: rest => if e.redundant ls then observable ls rest else e :: observable (ls.after e) rest

/-- The events that `t` has recorded after those of `s` (R57). -/
def newEvents (s t : State) : List Event := t.trace.drop s.trace.length

/-- Whether an event is a bus write. -/
def Event.isWrite : Event → Bool
  | .pin _ _ => false
  | .write _ _ => true
  | .busy _ => false
  | .delay _ => false

/-- Whether an event is a bus write that the transport failed. -/
def Event.isFailedWrite : Event → Bool
  | .pin _ _ => false
  | .write _ r => decide (r = .err)
  | .busy _ => false
  | .delay _ => false

/-- Whether an event is a busy sample. -/
def Event.isSample : Event → Bool
  | .pin _ _ => false
  | .write _ _ => false
  | .busy _ => true
  | .delay _ => false

/-- Whether an event is a delay. -/
def Event.isDelay : Event → Bool
  | .pin _ _ => false
  | .write _ _ => false
  | .busy _ => false
  | .delay _ => true

/-- Whether an event drives a line. -/
def Event.isPin : Event → Bool
  | .pin _ _ => true
  | .write _ _ => false
  | .busy _ => false
  | .delay _ => false

/-- The bytes a bus write hands over. -/
def Event.bytes : Event → List Byte
  | .pin _ _ => []
  | .write bs _ => bs
  | .busy _ => []
  | .delay _ => []

/-- The event as it is when the transport answers `Ok` (R16). -/
def Event.answeredOk : Event → Event
  | .pin p l => .pin p l
  | .write bs _ => .write bs .ok
  | .busy l => .busy l
  | .delay ms => .delay ms

/-- The transport's answer in a bus write, none in another event. -/
def Event.answer : Event → Option BusResult
  | .pin _ _ => none
  | .write _ r => some r
  | .busy _ => none
  | .delay _ => none

/-- The milliseconds of a delay (R244). -/
def Event.millis : Event → Nat
  | .pin _ _ => 0
  | .write _ _ => 0
  | .busy _ => 0
  | .delay ms => ms

/-- The number of transactions: each is one bus write (R133). -/
def transactions (evs : List Event) : Nat := evs.countP Event.isWrite

/-- The number of busy samples (R143). -/
def samples (evs : List Event) : Nat := evs.countP Event.isSample

/-- The number of delays (R143). -/
def delays (evs : List Event) : Nat := evs.countP Event.isDelay

/-- The sum of the delays in milliseconds (R244). -/
def delayTotal (evs : List Event) : Nat := (evs.map Event.millis).sum

/-- All bytes handed to the transport, in order (R61). -/
def bytesSent (evs : List Event) : List Byte := evs.flatMap Event.bytes

/-- The transport's answers, in order (R62). -/
def answersOf (evs : List Event) : List BusResult := evs.filterMap Event.answer

/-- `K(T) = ceil(T / P_POLL)` (R143, R244). -/
def pollBound (p : Params) (timeout : Nat) : Nat := (timeout + p.pPoll - 1) / p.pPoll

/-- The event of a chip-select set, none when no chip-select line is driven (R59). -/
def csEvents (p : Params) (l : Level) : List Event := if p.pCsPresent then [.pin .cs l] else []

/-- The recorded trace of a transaction of `bs` answered `r` (R133). -/
def transactionEvents (p : Params) (bs : List Byte) (r : BusResult) : List Event :=
  csEvents p p.pCsActive ++ [.write bs r] ++ csEvents p p.csIdle

/-- The recorded trace of `SendCommand(op)` answered `r` (R130). -/
def commandEvents (p : Params) (op : Byte) (r : BusResult) : List Event :=
  [.pin .dc p.pDcCmd] ++ transactionEvents p [op] r ++ [.pin .dc p.dcData]

/-- The recorded trace of `SendData(bs)` answered `r` (R131, R132). -/
def dataEvents (p : Params) (bs : List Byte) (r : BusResult) : List Event :=
  match bs with
  | [] => []
  | b :: rest => [.pin .dc p.dcData] ++ transactionEvents p (b :: rest) r

/-- The recorded trace of `Issue(c)` when every write is answered `Ok` (R135). -/
def issueEvents (p : Params) (c : Command) : List Event :=
  commandEvents p c.opcode .ok ++ dataEvents p c.payload .ok

/-- The recorded trace of `IssueList(l)` when every write is answered `Ok` (R136). -/
def issueListEvents (p : Params) (l : List Command) : List Event := l.flatMap (issueEvents p)

/-- The recorded trace of `Delay(ms)` (R60). -/
def delayEvents (ms : Nat) : List Event := if ms = 0 then [] else [.delay ms]

/-- The recorded trace of `ResetPulse()` (R137). -/
def pulseEvents (p : Params) : List Event :=
  [.pin .rst false] ++ delayEvents p.pTRstLow ++ [.pin .rst true] ++ delayEvents p.pTRstSettle

/-- `n` busy samples, each followed by one poll delay (R141). -/
def pollEvents (p : Params) (n : Nat) : List Event :=
  (List.replicate n [Event.busy p.pBusyActive, Event.delay p.pPoll]).flatten

/-- A byte list cut into consecutive pieces of `P_CHUNK` bytes, the last one possibly short (R138). -/
def chunksOf (n : Nat) : Nat → List Byte → List (List Byte)
  | 0, _ => []
  | fuel + 1, bs =>
    match bs with
    | [] => []
    | b :: rest => (b :: rest).take n :: chunksOf n fuel ((b :: rest).drop n)

/-- The framebuffer bytes of native rows `[y0, y1)` (R138). -/
def rowsBytes (p : Params) (fb : Memory) (y0 y1 : Nat) : List Byte :=
  frameBytes fb (y0 * p.rowBytes) (y1 * p.rowBytes - y0 * p.rowBytes)

/-- The data transactions' payloads of `SendFrame(y0, y1)` (R138). -/
def frameChunks (p : Params) (fb : Memory) (y0 y1 : Nat) : List (List Byte) :=
  chunksOf p.pChunk (rowsBytes p fb y0 y1).length (rowsBytes p fb y0 y1)

/-- The recorded trace of `SendFrame(y0, y1)` when every write is answered `Ok` (R138). -/
def frameEvents (p : Params) (fb : Memory) (y0 y1 : Nat) : List Event :=
  commandEvents p p.pp.opWriteRam .ok ++ (frameChunks p fb y0 y1).flatMap (fun bs => dataEvents p bs .ok)

/-- The recorded trace of a refresh of rows `[y0, y1)` up to its wait, when every write is answered `Ok` (R166, R172). -/
def refreshEvents (p : Params) (fb : Memory) (y0 y1 : Nat) (trigger : List Command) : List Event :=
  issueListEvents p (p.pp.window 0 y0 p.pW y1) ++ frameEvents p fb y0 y1 ++ issueListEvents p trigger

end Sys2Proof.Machine
end

