-- ==== Sys2Proof/Safety.lean ====
section
/-! DEFINITION. What counts as a safe state and a safe trace: the invariant that every step keeps, the discipline of
transactions on the trace (R133, R134), and the environment premises that claims name (R62). -/

namespace Sys2Proof.Machine

/-- The lines at their idle levels, as they are between operations (R130, R133, R137). -/
structure LinesIdle (s : State) : Prop where
  dc : s.dc = s.cfg.dcData
  cs : s.cs = s.cfg.csIdle
  rst : s.rst = true

/-- The framebuffer is in canonical form and has no byte at or above `FB_BYTES` (R45, R46; log 10). -/
structure FbOk (s : State) : Prop where
  wf : s.fb.wf = true
  below : s.fb.below s.cfg.fbBytes = true

/-- The lines at the levels a reset gives them (R36). -/
def resetLines (p : Params) : Lines := ⟨p.dcData, p.csIdle, true⟩

/-- The invariant between two host inputs: the framebuffer is well formed and the lines are idle. -/
structure Invariant (s : State) : Prop where
  fb : FbOk s
  lines : LinesIdle s

/-- Whether the next recorded event closes a transaction: chip-select idle, where a chip-select line is driven (R133). -/
def closesNext (p : Params) : List Event → Bool
  | [] => !p.pCsPresent
  | e :: _ => !p.pCsPresent || decide (e = .pin .cs p.csIdle)

/-- Whether an event obeys the framing discipline at given line levels, with `rest` recorded after it: a bus write carries
at least one byte, happens with chip-select active and is closed by the next event; a command (DC at the command level)
is exactly one byte; everything but a bus write and a line set happens outside a transaction (R130, R131, R133). -/
def Event.framed (p : Params) (ls : Lines) (rest : List Event) : Event → Bool
  | .pin _ _ => true
  | .write bs _ =>
    (!p.pCsPresent || decide (ls.cs = p.pCsActive)) && closesNext p rest
      && (decide (ls.dc = p.dcData) && !bs.isEmpty || decide (ls.dc = p.pDcCmd) && decide (bs.length = 1))
  | .busy _ => decide (ls.cs = p.csIdle)
  | .delay _ => decide (ls.cs = p.csIdle)

/-- A trace from given line levels every event of which obeys the framing discipline (R133). -/
def framedTrace (p : Params) : Lines → List Event → Bool
  | _, [] => true
  | ls, e :: rest => e.framed p ls rest && framedTrace p (ls.after e) rest

/-- The recorded trace from the reset on: it leads the lines from their reset levels to where they stand, which is idle,
and every event of it obeys the framing discipline (R57, R133). -/
structure TraceOk (s : State) : Prop where
  lines : LinesIdle s
  leads : s.trace.foldl Lines.after (resetLines s.cfg.toParams) = s.lines
  framed : framedTrace s.cfg.toParams (resetLines s.cfg.toParams) s.trace = true

/-- No event of a trace drives a line to the level it already has, at the levels the trace itself has led to (R58). -/
def noRedundant : Lines → List Event → Bool
  | _, [] => true
  | ls, e :: rest => !e.redundant ls && noRedundant (ls.after e) rest

/-- After a failed bus write only line sets follow: no retry and no further sample or delay (R134, R184). -/
def noRetry : List Event → Bool
  | [] => true
  | e :: rest => (!e.isFailedWrite || rest.all Event.isPin) && noRetry rest

/-- `evs` are the first events of `okEvs` with the transport's answers changed: `Ok` for `n` writes and `Err` for the one
after them, which is the last (R133, R134, R139, R207). -/
structure FailsAt (n : Nat) (okEvs evs : List Event) : Prop where
  same : evs.map Event.answeredOk <+: okEvs
  answers : answersOf evs = List.replicate n .ok ++ [.err]

/-- The next `n` bus writes are answered `Ok` (a premise on the environment, R62). -/
def BusOk (n : Nat) (s : State) : Prop := s.busAnswers.take n = List.replicate n .ok

/-- The next `n` bus writes are answered `Ok` and the one after them `Err` (a premise on the environment, R62). -/
def BusFailsAfter (n : Nat) (s : State) : Prop := s.busAnswers.take (n + 1) = List.replicate n .ok ++ [.err]

/-- The next `n` busy samples read busy (a premise on the environment, R62). -/
def BusyFor (n : Nat) (s : State) : Prop := s.busyAnswers.take n = List.replicate n s.cfg.pBusyActive

/-- The next `n` busy samples read busy and the one after them does not (a premise on the environment, R62). -/
def IdleAfter (n : Nat) (s : State) : Prop :=
  s.busyAnswers.take (n + 1) = List.replicate n s.cfg.pBusyActive ++ [!s.cfg.pBusyActive]

/-- The state after `evs` have been recorded, `writes` transport answers and `levels` busy levels taken, with the lines
back where they were: what a sequence of micro-operations does to a state whose lines are idle. -/
def State.advance (s : State) (evs : List Event) (writes levels : Nat) : State :=
  { s with
    trace := s.trace ++ evs
    busAnswers := s.busAnswers.drop writes
    busyAnswers := s.busyAnswers.drop levels
    draws := s.draws + writes + levels }

/-- The payloads of a command's transactions, in order: its opcode byte, and its payload unless that is empty (R135). -/
def commandPayloads (c : Command) : List (List Byte) :=
  [c.opcode] :: (if c.payload = [] then [] else [c.payload])

/-- The payloads of a command list's transactions, in order (R136). -/
def listPayloads (l : List Command) : List (List Byte) := l.flatMap commandPayloads

/-- The payloads of a refresh of native rows `[y0, y1)`: window, write-RAM command, frame data, trigger (R138, R166,
R172). -/
def refreshPayloads (p : Params) (fb : Memory) (y0 y1 : Nat) (trigger : List Command) : List (List Byte) :=
  listPayloads (p.pp.window 0 y0 p.pW y1) ++ [p.pp.opWriteRam] :: frameChunks p fb y0 y1 ++ listPayloads trigger

/-- The payloads of a trace's bus writes, in order. -/
def payloadsOf (evs : List Event) : List (List Byte) := (evs.filter Event.isWrite).map Event.bytes

/-- The refresh operations (R160). -/
def isRefresh : Instr → Bool
  | .fbnew => false
  | .setrot _ => false
  | .clear _ => false
  | .pset _ _ _ => false
  | .pget _ _ => false
  | .init => true
  | .full => true
  | .partialRefresh _ _ => true
  | .sleep => true
  | .wake => true

/-- The FSM's transitions, row by row (R187). -/
def fsmAfter (from_ : Fsm) (r : ResultCode) : Instr → Fsm
  | .fbnew => from_
  | .setrot _ => from_
  | .clear _ => from_
  | .pset _ _ _ => from_
  | .pget _ _ => from_
  | .init => if r = .ok then .awake else .uninit
  | .full => from_
  | .partialRefresh _ _ => from_
  | .sleep => if from_ = .awake ∧ r = .ok then .sleeping else from_
  | .wake => if from_ = .sleeping then (if r = .ok then .awake else .uninit) else from_

/-- Which operation can return which code (R202). -/
def possibleCodes : Instr → List ResultCode
  | .fbnew => [.ok]
  | .setrot _ => [.ok]
  | .clear _ => [.ok]
  | .pset _ _ _ => [.ok, .outOfBounds]
  | .pget _ _ => [.ok, .outOfBounds]
  | .init => [.ok, .busTransportError, .initTimeout]
  | .full => [.ok, .notAwake, .busTransportError, .busyTimeout]
  | .partialRefresh _ _ => [.ok, .notAwake, .invalidRegion, .busTransportError, .busyTimeout]
  | .sleep => [.ok, .notAwake, .busTransportError]
  | .wake => [.ok, .badState, .busTransportError, .busyTimeout]

/-- The least total delay of a successful operation from an FSM state (R244). -/
def leastDelay (p : Params) (from_ : Fsm) : Instr → Nat
  | .fbnew => 0
  | .setrot _ => 0
  | .clear _ => 0
  | .pset _ _ _ => 0
  | .pget _ _ => 0
  | .init => p.pTRstLow + p.pTRstSettle
  | .full => 0
  | .partialRefresh _ _ => 0
  | .sleep => if from_ = .awake then p.pTSleep else 0
  | .wake => if from_ = .sleeping then p.pTRstLow + p.pTRstSettle else 0

/-- The most total delay of an operation (R244). -/
def mostDelay (p : Params) : Instr → Nat
  | .fbnew => 0
  | .setrot _ => 0
  | .clear _ => 0
  | .pset _ _ _ => 0
  | .pget _ _ => 0
  | .init => p.pTRstLow + p.pTRstSettle + pollBound p p.pTmoInit * p.pPoll
  | .full => pollBound p p.pTmoRefresh * p.pPoll
  | .partialRefresh _ _ => pollBound p p.pTmoRefresh * p.pPoll
  | .sleep => p.pTSleep
  | .wake => p.pTRstLow + p.pTRstSettle + pollBound p p.pTmoWake * p.pPoll

/-- One row of the opcode table: the bits under `mask` are those of `bits`. -/
structure OpcodeRow where
  mask : Word
  bits : Word
deriving DecidableEq, Repr

/-- The ten rows of spec/opcode_table.json, in its order (R71, R77). -/
def opcodeTable : List OpcodeRow :=
  [⟨0xFFFFFFFF#32, 0x10000000#32⟩, ⟨0xFFFFFFFC#32, 0x20000000#32⟩, ⟨0xF7FFFFFF#32, 0x30000000#32⟩,
    ⟨0xF4000000#32, 0x40000000#32⟩, ⟨0xFC000000#32, 0x50000000#32⟩, ⟨0xFFFFFFFF#32, 0x60000000#32⟩,
    ⟨0xFFFFFFFF#32, 0x70000000#32⟩, ⟨0xFC000000#32, 0x80000000#32⟩, ⟨0xFFFFFFFF#32, 0x90000000#32⟩,
    ⟨0xFFFFFFFF#32, 0xA0000000#32⟩]

/-- Whether a word is one of a row's words. -/
def OpcodeRow.admits (r : OpcodeRow) (w : Word) : Bool := w &&& r.mask = r.bits

end Sys2Proof.Machine
end

