-- ==== Sys2Proof/Certificates/Slice0/Obligations.lean ====
section
/-! DEFINITION. The statements for the provers, each from the rules its docstring names. -/

open Sys2Proof Sys2Proof.Machine

/-! ### Encoding -/

/-- R71, R82: decoding the word of a well-formed instruction gives the instruction back, at every operand. -/
def Obligations.DecodeOfEncodeIsTheInstruction : Prop :=
  ∀ i : Instr, i.wellFormed = true → decode (encode i) = .ok i

/-- R78: a word that decodes is the word of the one instruction it decodes to, which is well formed. -/
def Obligations.EncodeOfDecodeIsTheWord : Prop :=
  ∀ (w : Word) (i : Instr), decode w = .ok i → i.wellFormed = true ∧ encode i = w

/-- R71, R77, R78: the words that decode are exactly the words of the ten rows of the opcode table. -/
def Obligations.DecodableWordsAreTheTableRows : Prop :=
  ∀ w : Word, (∃ i, decode w = .ok i) ↔ ∃ r ∈ opcodeTable, r.admits w = true

/-- R84 (the spec's own inference from R71 and R82): the worked encodings: from the text, from the instruction, and
back. -/
def Obligations.WorkedEncodings : Prop :=
  ∀ p : Params, ∀ e ∈ [("PSET 0, 0, black", Instr.pset .black 0 0, 0x48000000#32),
      ("PSET 399, 299, black", .pset .black 399 299, 0x4831E12B#32), ("PGET 399, 299", .pget 399 299, 0x5031E12B#32),
      ("PARTIAL 10, 20", .partialRefresh 10 20, 0x80014014#32), ("PARTIAL 0, 300", .partialRefresh 0 300, 0x8000012C#32),
      ("SETROT 270", .setrot .r270, 0x20000003#32)],
    assembleWord p e.1.toList = some e.2.2 ∧ encode e.2.1 = e.2.2 ∧ decode e.2.2 = .ok e.2.1

/-- R82: a word the assembler gives is the word of a well-formed instruction: no operand is truncated. -/
def Obligations.AssembledWordsDecodeToTheirInstruction : Prop :=
  ∀ (c : Config) (line : List Char) (w : Word), assembleWord c.toParams line = some w →
    ∃ i, assembleLine c.toParams line = some i ∧ i.wellFormed = true ∧ decode w = .ok i

/-- R83: the pseudo-instructions assemble as their expansions do, for every text of their operands. -/
def Obligations.PseudoInstructionsExpand : Prop :=
  ∀ (p : Params) (x y : List Char),
    assembleParts p .clrw [] = assembleParts p .clear ["white".toList] ∧
    assembleParts p .clrb [] = assembleParts p .clear ["black".toList] ∧
    assembleParts p .pblk [x, y] = assembleParts p .pset [x, y, "black".toList] ∧
    assembleParts p .pwht [x, y] = assembleParts p .pset [x, y, "white".toList] ∧
    assembleParts p .rot0 [] = assembleParts p .setrot ["0".toList] ∧
    assembleParts p .rot90 [] = assembleParts p .setrot ["90".toList] ∧
    assembleParts p .rot180 [] = assembleParts p .setrot ["180".toList] ∧
    assembleParts p .rot270 [] = assembleParts p .setrot ["270".toList] ∧
    assembleParts p .partall [] = some (.partialRefresh 0 p.pH)

/-! ### The port and the step -/

/-- R24, R25, R27, R78: a pending 32-bit write to `CMD` of a word that decodes runs exactly that instruction. -/
def Obligations.StepRunsTheDecodedCommand : Prop :=
  ∀ (s : State) (rest : List HostInput) (w : Word) (i : Instr),
    s.port = .write 32 0x0 w :: rest → decode w = .ok i → step s = exec i { s with port := rest }

/-- `withFetchWord` (log 4, the model's own) hands the next step exactly the instruction its word decodes to. -/
def Obligations.FetchWordIsTheNextCommand : Prop :=
  ∀ (s : State) (w : Nat) (i : Instr), decodeTableWord 32 w = some i → step (s.withFetchWord 32 w) = exec i s

/-- R79: a word of no row of the opcode table sets `IllegalCommand` and nothing else; it is not a trap. -/
def Obligations.IllegalWordOnlySetsItsCode : Prop :=
  ∀ (s : State) (rest : List HostInput) (w : Word), s.port = .write 32 0x0 w :: rest →
    (∀ r ∈ opcodeTable, r.admits w = false) →
    step s = .next { s with port := rest, result := .illegalCommand }

/-- R26: a 32-bit read of `STATUS` returns the image of `S`, field by field, and changes nothing of `S`. -/
def Obligations.StatusReadReturnsTheImage : Prop :=
  ∀ (s : State) (rest : List HostInput), s.port = .read 32 0x4 :: rest →
    ∃ v : Word, step s = .next { s with port := rest, replies := s.replies ++ [v] } ∧
      v.extractLsb' 0 4 = s.result.code ∧ v.extractLsb' 4 2 = s.fsm.code ∧ v.extractLsb' 6 2 = s.rot.code ∧
      v.extractLsb' 8 1 = s.pix.code ∧ v.extractLsb' 9 1 = BitVec.ofBool s.unk ∧ v.extractLsb' 10 22 = 0#22

/-- R20, R26, R200: the `STATUS` image tells apart any two values of the fields it shows. -/
def Obligations.StatusImageDeterminesItsFields : Prop :=
  ∀ s t : State, s.status = t.status →
    s.result = t.result ∧ s.fsm = t.fsm ∧ s.rot = t.rot ∧ s.pix = t.pix ∧ s.unk = t.unk

/-- R22, R25, R47: a read of `CMD` or of any offset but `STATUS` returns 0; a write to `STATUS` or to any offset but
`CMD` is ignored; with nothing pending the block waits, and nothing changes. -/
def Obligations.OtherPortAccessesHaveNoEffect : Prop :=
  ∀ (s : State) (rest : List HostInput) (off : Nat) (v : Word),
    (s.port = .read 32 off :: rest → off ≠ 0x4 →
      step s = .next { s with port := rest, replies := s.replies ++ [0#32] }) ∧
    (s.port = .write 32 off v :: rest → off ≠ 0x0 → step s = .next { s with port := rest }) ∧
    (s.port = [] → step s = .next s)

/-- R25, R205, D36: the only step that does not go on is an access that is not 32 bits wide, which is refused; there
is no trap. -/
def Obligations.OnlyOtherWidthsAreRefused : Prop :=
  ∀ s : State,
    ((∃ t, step s = .next t) ↔
      ∀ x ∈ s.port.head?, (∀ bits off v, x = .write bits off v → bits = 32) ∧ (∀ bits off, x = .read bits off → bits = 32)) ∧
    ((∃ t, step s = .next t) ∨ step s = .refused .accessWidth)

/-! ### Reset -/

/-- R36: the reset value of every field, in every configuration. -/
def Obligations.ResetValues : Prop :=
  State.reset = State.resetOf Config.board ∧
  ∀ c : Config, (State.resetOf c).cfg = c ∧ (State.resetOf c).fsm = .uninit ∧ (State.resetOf c).rot = .r0 ∧
    (∀ i, (State.resetOf c).fb.read i = 0x00#8) ∧ (State.resetOf c).result = .ok ∧ (State.resetOf c).pix = .white ∧
    (State.resetOf c).unk = false ∧ (State.resetOf c).dc = (!c.pDcCmd) ∧ (State.resetOf c).cs = (!c.pCsActive) ∧
    (State.resetOf c).rst = true

/-- R37, R230: the reset input gives every field of `S` its reset value and makes no event but line sets; from idle
lines nothing is observable. -/
def Obligations.BlockResetRestoresTheResetState : Prop :=
  ∀ (s : State) (rest : List HostInput), s.port = .blockReset :: rest →
    ∃ evs : List Event,
      step s = .next { State.resetOf s.cfg with
        port := rest, replies := s.replies, trace := s.trace ++ evs, busAnswers := s.busAnswers,
        busyAnswers := s.busyAnswers, draws := s.draws } ∧
      (∀ e ∈ evs, e = .pin .dc s.cfg.dcData ∨ e = .pin .cs s.cfg.csIdle ∨ e = .pin .rst true) ∧
      (LinesIdle s → observable s.lines evs = [])

/-- R37, R231: a host operation that drives `RST` low is INIT or WAKE. -/
def Obligations.OnlyInitAndWakePulseReset : Prop :=
  ∀ (i : Instr) (s t : State), exec i s = .next t → .pin .rst false ∈ newEvents s t → i = .init ∨ i = .wake

/-- The model's own choice for R230 (log 9): a reset that cuts a command leaves the reset values, and of the command a
first part of its panel events, followed by line sets only. -/
def Obligations.CutCommandLeavesAnEventPrefix : Prop :=
  ∀ (s : State) (rest : List HostInput) (w : Word) (k : Nat) (i : Instr) (u : State),
    s.port = .writeCutByReset w k :: rest → decode w = .ok i → exec i { s with port := rest } = .next u →
    ∃ t evs, step s = .next t ∧ t.trace = s.trace ++ (newEvents s u).take k ++ evs ∧ (∀ e ∈ evs, e.isPin = true) ∧
      t = { State.resetOf s.cfg with
        port := rest, replies := s.replies, trace := t.trace, busAnswers := t.busAnswers,
        busyAnswers := t.busyAnswers, draws := t.draws }

/-! ### Framebuffer and rotator -/

/-- R100: FBNEW. R234 (the spec's own inference from R230 and R100): right after a reset it changes nothing. -/
def Obligations.FbnewWhitensAndTurnsBack : Prop :=
  encode .fbnew = 0x10000000#32 ∧
  (∀ s : State, ∃ m : Memory, exec .fbnew s = .next { s with fb := m, rot := .r0, result := .ok } ∧
    ∀ i, m.read i = 0x00#8) ∧
  ∀ c : Config, exec .fbnew (State.resetOf c) = .next (State.resetOf c)

/-- R103: SETROT. -/
def Obligations.SetrotChangesTheRotationOnly : Prop :=
  ∀ (s : State) (r : Rotation), encode (.setrot r) = 0x20000000#32 ||| r.code.setWidth 32 ∧
    exec (.setrot r) s = .next { s with rot := r, result := .ok }

/-- R104: SETROT touches no byte, and the pixels are then read and written through the new transform. -/
def Obligations.SetrotReinterpretsThePixels : Prop :=
  ∀ (s : State) (r : Rotation) (x y : Nat) (c : Color), FbOk s → inBounds s.cfg.toParams r x y = true →
    ∃ t u v, exec (.setrot r) s = .next t ∧ t.fb = s.fb ∧
      exec (.pget x y) t = .next u ∧
      u.pix = pixelAt s.cfg.toParams s.fb (toNative s.cfg.toParams r x y).1 (toNative s.cfg.toParams r x y).2 ∧
      exec (.pset c x y) t = .next v ∧
      pixelAt s.cfg.toParams v.fb (toNative s.cfg.toParams r x y).1 (toNative s.cfg.toParams r x y).2 = c

/-- R106: CLEAR fills every byte. R107 (the spec's own inference from R106): two in a row leave what the second one
alone leaves. -/
def Obligations.ClearFillsEveryByte : Prop :=
  ∀ (s : State) (c d : Color), encode (.clear c) = 0x30000000#32 ||| (c.code.setWidth 32 <<< 27) ∧
    ∃ m : Memory, exec (.clear c) s = .next { s with fb := m, result := .ok } ∧
      (∀ i, m.read i = if i < s.cfg.fbBytes ∧ c = .black then 0xFF#8 else 0x00#8) ∧
      exec (.clear d) { s with fb := m, result := .ok } = exec (.clear d) s

/-- R101, R102, R108: logical dimensions, the rotation transform and bounds, rotation by rotation. -/
def Obligations.RotationTable : Prop :=
  ∀ (p : Params) (x y : Nat),
    (logicalWidth p .r0 = p.pW ∧ logicalHeight p .r0 = p.pH ∧ toNative p .r0 x y = (x, y)) ∧
    (logicalWidth p .r90 = p.pH ∧ logicalHeight p .r90 = p.pW ∧ toNative p .r90 x y = (p.pW - 1 - y, x)) ∧
    (logicalWidth p .r180 = p.pW ∧ logicalHeight p .r180 = p.pH ∧
      toNative p .r180 x y = (p.pW - 1 - x, p.pH - 1 - y)) ∧
    (logicalWidth p .r270 = p.pH ∧ logicalHeight p .r270 = p.pW ∧ toNative p .r270 x y = (y, p.pH - 1 - x)) ∧
    ∀ r, inBounds p r x y = true ↔ x < logicalWidth p r ∧ y < logicalHeight p r

/-- R105 (the spec's own inference from R101): under each rotation the transform is a bijection from the logical grid
onto the native grid. -/
def Obligations.RotationIsABijection : Prop :=
  ∀ (c : Config) (r : Rotation),
    (∀ x y, inBounds c.toParams r x y = true →
      (toNative c.toParams r x y).1 < c.pW ∧ (toNative c.toParams r x y).2 < c.pH) ∧
    (∀ x y x' y', inBounds c.toParams r x y = true → inBounds c.toParams r x' y' = true →
      toNative c.toParams r x y = toNative c.toParams r x' y' → x = x' ∧ y = y') ∧
    (∀ a b, a < c.pW → b < c.pH → ∃ x y, inBounds c.toParams r x y = true ∧ toNative c.toParams r x y = (a, b))

/-- R51 (the spec's own inference from R48 and R45): byte and bit index together are a bijection from the native
pixels onto the bits of the framebuffer. -/
def Obligations.PackingIsABijection : Prop :=
  ∀ c : Config,
    (∀ x y, x < c.pW → y < c.pH → byteIndex c.toParams x y < c.fbBytes ∧ bitIndex x < 8) ∧
    (∀ x y x' y', x < c.pW → y < c.pH → x' < c.pW → y' < c.pH →
      byteIndex c.toParams x y = byteIndex c.toParams x' y' → bitIndex x = bitIndex x' → x = x' ∧ y = y') ∧
    (∀ i k, i < c.fbBytes → k < 8 → ∃ x y, x < c.pW ∧ y < c.pH ∧ byteIndex c.toParams x y = i ∧ bitIndex x = k)

/-- R110, R111, and R112 (the spec's own inference from R110): PSET. In bounds it writes the one bit of the native
pixel; out of bounds it reports `OutOfBounds` and changes nothing else. -/
def Obligations.PsetWritesOneBitOrReports : Prop :=
  ∀ (s : State) (c : Color) (x y : Nat),
    (x < 8192 → y < 8192 → encode (.pset c x y) =
      0x40000000#32 ||| (c.code.setWidth 32 <<< 27) ||| (BitVec.ofNat 32 x <<< 13) ||| BitVec.ofNat 32 y) ∧
    (FbOk s → inBounds s.cfg.toParams s.rot x y = true → ∃ m : Memory,
      exec (.pset c x y) s = .next { s with fb := m, result := .ok } ∧
      ∀ i k, k < 8 → (m.read i).getLsbD k =
        if i = byteIndex s.cfg.toParams (toNative s.cfg.toParams s.rot x y).1 (toNative s.cfg.toParams s.rot x y).2 ∧
            k = bitIndex (toNative s.cfg.toParams s.rot x y).1
        then decide (c = .black) else (s.fb.read i).getLsbD k) ∧
    (∀ t, FbOk s → exec (.pset c x y) s = .next t → ∀ i, i ≠ pixelByte s x y → t.fb.read i = s.fb.read i) ∧
    (inBounds s.cfg.toParams s.rot x y = false → exec (.pset c x y) s = .next { s with result := .outOfBounds })

/-- R115, R116: PGET. In bounds it reads the native pixel into `S.pix`; out of bounds it reports `OutOfBounds` and
leaves `S.pix` as it was. -/
def Obligations.PgetReadsOnePixelOrReports : Prop :=
  ∀ (s : State) (x y : Nat),
    (x < 8192 → y < 8192 → encode (.pget x y) = 0x50000000#32 ||| (BitVec.ofNat 32 x <<< 13) ||| BitVec.ofNat 32 y) ∧
    (inBounds s.cfg.toParams s.rot x y = true → ∃ c : Color,
      exec (.pget x y) s = .next { s with pix := c, result := .ok } ∧
      (c = .black ↔ (s.fb.read
        (byteIndex s.cfg.toParams (toNative s.cfg.toParams s.rot x y).1 (toNative s.cfg.toParams s.rot x y).2)).getLsbD
          (bitIndex (toNative s.cfg.toParams s.rot x y).1) = true)) ∧
    (inBounds s.cfg.toParams s.rot x y = false → exec (.pget x y) s = .next { s with result := .outOfBounds })

/-- R117 (the spec's own inference from R110, R112 and R115): the read-back law. -/
def Obligations.ReadBackReturnsWhatWasSet : Prop :=
  ∀ (s : State) (r : Rotation) (c : Color) (x y : Nat), FbOk s → inBounds s.cfg.toParams r x y = true →
    ∃ t u v, exec (.setrot r) s = .next t ∧ exec (.pset c x y) t = .next u ∧ exec (.pget x y) u = .next v ∧ v.pix = c

/-- R119: the framebuffer operations run in every FSM state, make no panel event, and leave the FSM, `S.unk`, the lines
and everything outside `S` as they were. -/
def Obligations.FramebufferOperationsLeaveThePanelAlone : Prop :=
  ∀ (i : Instr) (s : State), isRefresh i = false →
    ∃ t, exec i s = .next t ∧ t.trace = s.trace ∧
      t = { s with fb := t.fb, rot := t.rot, pix := t.pix, result := t.result }

/-! ### Framer and gate -/

/-- R130: `SendCommand`. -/
def Obligations.SendCommandTrace : Prop :=
  ∀ (op : Byte) (s : State), sendCommand op s =
    (replyOf s.nextBusResult,
      { s with
        dc := !s.cfg.pDcCmd
        cs := if s.cfg.pCsPresent then !s.cfg.pCsActive else s.cs
        trace := s.trace ++ [.pin .dc s.cfg.pDcCmd] ++ csEvents s.cfg.toParams s.cfg.pCsActive
          ++ [.write [op] s.nextBusResult] ++ csEvents s.cfg.toParams (!s.cfg.pCsActive) ++ [.pin .dc (!s.cfg.pDcCmd)]
        busAnswers := s.busAnswers.tail
        draws := s.draws + 1 })

/-- R131, R132: `SendData`: one transaction for the whole list, and none for an empty one. -/
def Obligations.SendDataTrace : Prop :=
  ∀ s : State, sendData [] s = (.ok, s) ∧
  ∀ (bs : List Byte), bs ≠ [] → sendData bs s =
    (replyOf s.nextBusResult,
      { s with
        dc := !s.cfg.pDcCmd
        cs := if s.cfg.pCsPresent then !s.cfg.pCsActive else s.cs
        trace := s.trace ++ [.pin .dc (!s.cfg.pDcCmd)] ++ csEvents s.cfg.toParams s.cfg.pCsActive
          ++ [.write bs s.nextBusResult] ++ csEvents s.cfg.toParams (!s.cfg.pCsActive)
        busAnswers := s.busAnswers.tail
        draws := s.draws + 1 })

/-- R135, R136: `Issue` sends a command's opcode and then its payload; `IssueList` issues its commands in list order;
both stop at the first error. -/
def Obligations.IssueListStopsAtTheFirstError : Prop :=
  ∀ (c : Command) (l : List Command) (s : State), LinesIdle s →
    (BusOk (commandPayloads c).length s → issue c s = (.ok, s.advance
      (commandEvents s.cfg.toParams c.opcode .ok ++ dataEvents s.cfg.toParams c.payload .ok)
      (commandPayloads c).length 0)) ∧
    (∀ n, n < (commandPayloads c).length → BusFailsAfter n s → ∃ evs, FailsAt n (issueEvents s.cfg.toParams c) evs ∧
      issue c s = (.err .busTransportError, s.advance evs (n + 1) 0)) ∧
    (BusOk (listPayloads l).length s →
      issueList l s = (.ok, s.advance (issueListEvents s.cfg.toParams l) (listPayloads l).length 0)) ∧
    (∀ n, n < (listPayloads l).length → BusFailsAfter n s → ∃ evs, FailsAt n (issueListEvents s.cfg.toParams l) evs ∧
      issueList l s = (.err .busTransportError, s.advance evs (n + 1) 0))

/-- R137: `ResetPulse`. -/
def Obligations.ResetPulseTrace : Prop :=
  ∀ s : State, resetPulse s = { s with
    rst := true
    trace := s.trace ++ [.pin .rst false] ++ (if s.cfg.pTRstLow = 0 then [] else [.delay s.cfg.pTRstLow])
      ++ [.pin .rst true] ++ (if s.cfg.pTRstSettle = 0 then [] else [.delay s.cfg.pTRstSettle]) }

/-- R138, and R139 (the spec's own inference from it and R134): `SendFrame` sends the write-RAM command, then the
rows' bytes unchanged and in increasing index order, in `ceil(bytes / P_CHUNK)` data transactions of which all but the
last carry `P_CHUNK` bytes. -/
def Obligations.SendFrameSendsTheRows : Prop :=
  ∀ (y0 y1 : Nat) (s : State), y0 < y1 → y1 ≤ s.cfg.pH →
    (frameChunks s.cfg.toParams s.fb y0 y1).flatten =
      (List.range ((y1 - y0) * s.cfg.rowBytes)).map (fun j => s.fb.read (y0 * s.cfg.rowBytes + j)) ∧
    (frameChunks s.cfg.toParams s.fb y0 y1).length = ((y1 - y0) * s.cfg.rowBytes + s.cfg.pChunk - 1) / s.cfg.pChunk ∧
    (∀ bs ∈ (frameChunks s.cfg.toParams s.fb y0 y1).dropLast, bs.length = s.cfg.pChunk) ∧
    (LinesIdle s → BusOk ((frameChunks s.cfg.toParams s.fb y0 y1).length + 1) s →
      sendFrame y0 y1 s = (.ok, s.advance
        (commandEvents s.cfg.toParams s.cfg.pp.opWriteRam .ok
          ++ (frameChunks s.cfg.toParams s.fb y0 y1).flatMap (fun bs => dataEvents s.cfg.toParams bs .ok))
        ((frameChunks s.cfg.toParams s.fb y0 y1).length + 1) 0)) ∧
    (∀ n, LinesIdle s → n < (frameChunks s.cfg.toParams s.fb y0 y1).length + 1 → BusFailsAfter n s → ∃ evs,
      FailsAt n (commandEvents s.cfg.toParams s.cfg.pp.opWriteRam .ok
        ++ (frameChunks s.cfg.toParams s.fb y0 y1).flatMap (fun bs => dataEvents s.cfg.toParams bs .ok)) evs ∧
      sendFrame y0 y1 s = (.err .busTransportError, s.advance evs (n + 1) 0))

/-- R141, and R143 (the spec's own inference from it): a wait that never sees "not busy" makes `K + 1` samples and `K`
delays and times out; one that first sees it at sample `j + 1`, `j ≤ K`, makes `j + 1` samples and `j` delays and
succeeds; none makes more than `K + 1` samples. -/
def Obligations.WaitIdleIsBounded : Prop :=
  ∀ (timeout : Nat) (s : State),
    (BusyFor (pollBound s.cfg.toParams timeout + 1) s → waitIdle timeout s = (.err .timeout, s.advance
      (pollEvents s.cfg.toParams (pollBound s.cfg.toParams timeout) ++ [.busy s.cfg.pBusyActive]) 0
      (pollBound s.cfg.toParams timeout + 1))) ∧
    (∀ j, j ≤ pollBound s.cfg.toParams timeout → IdleAfter j s → waitIdle timeout s = (.ok, s.advance
      (pollEvents s.cfg.toParams j ++ [.busy (!s.cfg.pBusyActive)]) 0 (j + 1))) ∧
    samples (newEvents s (waitIdle timeout s).2) ≤ pollBound s.cfg.toParams timeout + 1

/-! ### The refresh operations -/

/-- R160: where a guard ends an operation, nothing but `S.result` changes; in the other cells the operation runs, which
the panel sees. -/
def Obligations.GuardTable : Prop :=
  (∀ (s : State) (ys ye : Nat), s.fsm ≠ .awake →
    exec .full s = .next { s with result := .notAwake } ∧
    exec (.partialRefresh ys ye) s = .next { s with result := .notAwake }) ∧
  (∀ s : State, s.fsm = .uninit → exec .sleep s = .next { s with result := .notAwake } ∧
    exec .wake s = .next { s with result := .badState }) ∧
  (∀ s : State, s.fsm = .sleeping → exec .sleep s = .next { s with result := .ok }) ∧
  (∀ s : State, s.fsm = .awake → exec .wake s = .next { s with result := .ok }) ∧
  (∀ (i : Instr) (s : State),
    (i = .init ∨ (i = .full ∧ s.fsm = .awake) ∨ (i = .sleep ∧ s.fsm = .awake) ∨ (i = .wake ∧ s.fsm = .sleeping)
      ∨ ∃ ys ye, i = .partialRefresh ys ye ∧ s.fsm = .awake ∧ ys < ye ∧ ye ≤ s.cfg.pH) →
    ∃ t, exec i s = .next t ∧ t.trace ≠ s.trace)

/-- R161, R162, R164: INIT, from every FSM state, in its three ends: the panel reads not busy at sample `j + 1`, within
the timeout; it never does; or write `n + 1` of `PP.INIT_SEQ` fails. -/
def Obligations.InitRuns : Prop :=
  encode .init = 0x60000000#32 ∧
  ∀ s : State, LinesIdle s →
    (∀ j, BusOk (listPayloads s.cfg.pp.initSeq).length s → IdleAfter j s → j ≤ pollBound s.cfg.toParams s.cfg.pTmoInit →
      exec .init s = .next { s.advance
        (pulseEvents s.cfg.toParams ++ issueListEvents s.cfg.toParams s.cfg.pp.initSeq
          ++ pollEvents s.cfg.toParams j ++ [.busy (!s.cfg.pBusyActive)])
        (listPayloads s.cfg.pp.initSeq).length (j + 1) with
        fsm := .awake, unk := false, result := .ok }) ∧
    (BusOk (listPayloads s.cfg.pp.initSeq).length s → BusyFor (pollBound s.cfg.toParams s.cfg.pTmoInit + 1) s →
      exec .init s = .next { s.advance
        (pulseEvents s.cfg.toParams ++ issueListEvents s.cfg.toParams s.cfg.pp.initSeq
          ++ pollEvents s.cfg.toParams (pollBound s.cfg.toParams s.cfg.pTmoInit) ++ [.busy s.cfg.pBusyActive])
        (listPayloads s.cfg.pp.initSeq).length (pollBound s.cfg.toParams s.cfg.pTmoInit + 1) with
        fsm := .uninit, unk := true, result := .initTimeout }) ∧
    (∀ n, n < (listPayloads s.cfg.pp.initSeq).length → BusFailsAfter n s → ∃ evs,
      FailsAt n (issueListEvents s.cfg.toParams s.cfg.pp.initSeq) evs ∧
      exec .init s = .next { s.advance (pulseEvents s.cfg.toParams ++ evs) (n + 1) 0 with
        fsm := .uninit, unk := true, result := .busTransportError })

/-- R166, R167: FULL in `AWAKE`, likewise in its three ends: the window of the whole panel, every framebuffer byte, the
full trigger and the wait. Outside `AWAKE` it is refused. -/
def Obligations.FullRuns : Prop :=
  encode .full = 0x70000000#32 ∧
  ∀ s : State,
    (s.fsm ≠ .awake → exec .full s = .next { s with result := .notAwake }) ∧
    (frameChunks s.cfg.toParams s.fb 0 s.cfg.pH).flatten = (List.range s.cfg.fbBytes).map s.fb.read ∧
    (LinesIdle s → s.fsm = .awake →
      (∀ j, BusOk (refreshPayloads s.cfg.toParams s.fb 0 s.cfg.pH s.cfg.pp.fullTrigger).length s → IdleAfter j s →
        j ≤ pollBound s.cfg.toParams s.cfg.pTmoRefresh →
        exec .full s = .next { s.advance
          (refreshEvents s.cfg.toParams s.fb 0 s.cfg.pH s.cfg.pp.fullTrigger
            ++ pollEvents s.cfg.toParams j ++ [.busy (!s.cfg.pBusyActive)])
          (refreshPayloads s.cfg.toParams s.fb 0 s.cfg.pH s.cfg.pp.fullTrigger).length (j + 1) with
          result := .ok }) ∧
      (BusOk (refreshPayloads s.cfg.toParams s.fb 0 s.cfg.pH s.cfg.pp.fullTrigger).length s →
        BusyFor (pollBound s.cfg.toParams s.cfg.pTmoRefresh + 1) s →
        exec .full s = .next { s.advance
          (refreshEvents s.cfg.toParams s.fb 0 s.cfg.pH s.cfg.pp.fullTrigger
            ++ pollEvents s.cfg.toParams (pollBound s.cfg.toParams s.cfg.pTmoRefresh) ++ [.busy s.cfg.pBusyActive])
          (refreshPayloads s.cfg.toParams s.fb 0 s.cfg.pH s.cfg.pp.fullTrigger).length
          (pollBound s.cfg.toParams s.cfg.pTmoRefresh + 1) with
          unk := true, result := .busyTimeout }) ∧
      (∀ n, n < (refreshPayloads s.cfg.toParams s.fb 0 s.cfg.pH s.cfg.pp.fullTrigger).length → BusFailsAfter n s →
        ∃ evs, FailsAt n (refreshEvents s.cfg.toParams s.fb 0 s.cfg.pH s.cfg.pp.fullTrigger) evs ∧
          exec .full s = .next { s.advance evs (n + 1) 0 with unk := true, result := .busTransportError }))

/-- R170, R171, R172: PARTIAL. The guard comes before the region check, and both before any event; a valid region in
`AWAKE` runs, likewise in its three ends: the window of its rows over the full width, its rows' bytes, the partial
trigger and the wait. -/
def Obligations.PartialRuns : Prop :=
  ∀ (s : State) (ys ye : Nat),
    (ys < 8192 → ye < 8192 →
      encode (.partialRefresh ys ye) = 0x80000000#32 ||| (BitVec.ofNat 32 ys <<< 13) ||| BitVec.ofNat 32 ye) ∧
    (s.fsm ≠ .awake → exec (.partialRefresh ys ye) s = .next { s with result := .notAwake }) ∧
    (s.fsm = .awake → ¬ (ys < ye ∧ ye ≤ s.cfg.pH) →
      exec (.partialRefresh ys ye) s = .next { s with result := .invalidRegion }) ∧
    (s.fsm = .awake → ys < ye → ye ≤ s.cfg.pH →
      ∃ t, exec (.partialRefresh ys ye) s = .next t ∧ t.result ≠ .notAwake ∧ t.result ≠ .invalidRegion) ∧
    (LinesIdle s → s.fsm = .awake → ys < ye → ye ≤ s.cfg.pH →
      (∀ j, BusOk (refreshPayloads s.cfg.toParams s.fb ys ye s.cfg.pp.partialTrigger).length s → IdleAfter j s →
        j ≤ pollBound s.cfg.toParams s.cfg.pTmoRefresh →
        exec (.partialRefresh ys ye) s = .next { s.advance
          (refreshEvents s.cfg.toParams s.fb ys ye s.cfg.pp.partialTrigger
            ++ pollEvents s.cfg.toParams j ++ [.busy (!s.cfg.pBusyActive)])
          (refreshPayloads s.cfg.toParams s.fb ys ye s.cfg.pp.partialTrigger).length (j + 1) with
          result := .ok }) ∧
      (BusOk (refreshPayloads s.cfg.toParams s.fb ys ye s.cfg.pp.partialTrigger).length s →
        BusyFor (pollBound s.cfg.toParams s.cfg.pTmoRefresh + 1) s →
        exec (.partialRefresh ys ye) s = .next { s.advance
          (refreshEvents s.cfg.toParams s.fb ys ye s.cfg.pp.partialTrigger
            ++ pollEvents s.cfg.toParams (pollBound s.cfg.toParams s.cfg.pTmoRefresh) ++ [.busy s.cfg.pBusyActive])
          (refreshPayloads s.cfg.toParams s.fb ys ye s.cfg.pp.partialTrigger).length
          (pollBound s.cfg.toParams s.cfg.pTmoRefresh + 1) with
          unk := true, result := .busyTimeout }) ∧
      (∀ n, n < (refreshPayloads s.cfg.toParams s.fb ys ye s.cfg.pp.partialTrigger).length → BusFailsAfter n s →
        ∃ evs, FailsAt n (refreshEvents s.cfg.toParams s.fb ys ye s.cfg.pp.partialTrigger) evs ∧
          exec (.partialRefresh ys ye) s = .next { s.advance evs (n + 1) 0 with
            unk := true, result := .busTransportError }))

/-- R173 (the spec's own inference from R172 and R138): a PARTIAL that reaches its wait has sent exactly the
framebuffer bytes of its rows, between the window's commands with the write-RAM byte and the trigger's commands. -/
def Obligations.PartialByteCount : Prop :=
  ∀ (s t : State) (ys ye : Nat), exec (.partialRefresh ys ye) s = .next t → 1 ≤ samples (newEvents s t) →
    bytesSent (newEvents s t) =
      (listPayloads (s.cfg.pp.window 0 ys s.cfg.pW ye)).flatten ++ [s.cfg.pp.opWriteRam]
        ++ rowsBytes s.cfg.toParams s.fb ys ye ++ (listPayloads s.cfg.pp.partialTrigger).flatten ∧
    (rowsBytes s.cfg.toParams s.fb ys ye).length = s.cfg.pW * (ye - ys) / 8 ∧
    rowsBytes s.cfg.toParams s.fb ys ye =
      (List.range ((ye - ys) * s.cfg.rowBytes)).map (fun k => s.fb.read (ys * s.cfg.rowBytes + k)) ∧
    (ys = 0 → ye = s.cfg.pH → (rowsBytes s.cfg.toParams s.fb ys ye).length = s.cfg.fbBytes)

/-- R177, R178: SLEEP: in `AWAKE` the deep-sleep command and the pause, with no busy sample, or the failure of write
`n + 1`; in `SLEEPING` a success and in `UNINIT` a refusal, both with no event. -/
def Obligations.SleepRuns : Prop :=
  encode .sleep = 0x90000000#32 ∧
  ∀ s : State,
    (s.fsm = .sleeping → exec .sleep s = .next { s with result := .ok }) ∧
    (s.fsm = .uninit → exec .sleep s = .next { s with result := .notAwake }) ∧
    (LinesIdle s → s.fsm = .awake →
      (BusOk (commandPayloads s.cfg.pp.sleepCmd).length s → exec .sleep s = .next { s.advance
        (issueEvents s.cfg.toParams s.cfg.pp.sleepCmd ++ delayEvents s.cfg.pTSleep)
        (commandPayloads s.cfg.pp.sleepCmd).length 0 with fsm := .sleeping, result := .ok }) ∧
      (∀ n, n < (commandPayloads s.cfg.pp.sleepCmd).length → BusFailsAfter n s → ∃ evs,
        FailsAt n (issueEvents s.cfg.toParams s.cfg.pp.sleepCmd) evs ∧
        exec .sleep s = .next { s.advance evs (n + 1) 0 with unk := true, result := .busTransportError }))

/-- R180, R181: WAKE: in `SLEEPING` in its three ends, of which the success leaves `S.unk` as it was; in `AWAKE` a
success and in `UNINIT` a refusal, both with no event. -/
def Obligations.WakeRuns : Prop :=
  encode .wake = 0xA0000000#32 ∧
  ∀ s : State,
    (s.fsm = .awake → exec .wake s = .next { s with result := .ok }) ∧
    (s.fsm = .uninit → exec .wake s = .next { s with result := .badState }) ∧
    (LinesIdle s → s.fsm = .sleeping →
      (∀ j, BusOk (listPayloads s.cfg.pp.wakeSeq).length s → IdleAfter j s →
        j ≤ pollBound s.cfg.toParams s.cfg.pTmoWake →
        exec .wake s = .next { s.advance
          (pulseEvents s.cfg.toParams ++ issueListEvents s.cfg.toParams s.cfg.pp.wakeSeq
            ++ pollEvents s.cfg.toParams j ++ [.busy (!s.cfg.pBusyActive)])
          (listPayloads s.cfg.pp.wakeSeq).length (j + 1) with
          fsm := .awake, result := .ok }) ∧
      (BusOk (listPayloads s.cfg.pp.wakeSeq).length s → BusyFor (pollBound s.cfg.toParams s.cfg.pTmoWake + 1) s →
        exec .wake s = .next { s.advance
          (pulseEvents s.cfg.toParams ++ issueListEvents s.cfg.toParams s.cfg.pp.wakeSeq
            ++ pollEvents s.cfg.toParams (pollBound s.cfg.toParams s.cfg.pTmoWake) ++ [.busy s.cfg.pBusyActive])
          (listPayloads s.cfg.pp.wakeSeq).length (pollBound s.cfg.toParams s.cfg.pTmoWake + 1) with
          fsm := .uninit, unk := true, result := .busyTimeout }) ∧
      (∀ n, n < (listPayloads s.cfg.pp.wakeSeq).length → BusFailsAfter n s → ∃ evs,
        FailsAt n (issueListEvents s.cfg.toParams s.cfg.pp.wakeSeq) evs ∧
        exec .wake s = .next { s.advance (pulseEvents s.cfg.toParams ++ evs) (n + 1) 0 with
          fsm := .uninit, unk := true, result := .busTransportError }))

/-! ### Whole-machine rules -/

/-- R187 (the spec's own inference from R160 to R181): the FSM's transitions, for every command word. -/
def Obligations.FsmTransitions : Prop :=
  ∀ (w : Word) (s t : State), runCommand w s = .next t →
    t.fsm = match decode w with
      | .ok i => fsmAfter s.fsm t.result i
      | .error _ => s.fsm

/-- R202 (the spec's own inference from its operations): which operation can return which code. -/
def Obligations.ResultCodesPerOperation : Prop :=
  ∀ (w : Word) (s t : State), runCommand w s = .next t →
    match decode w with
      | .ok i => t.result ∈ possibleCodes i
      | .error _ => t.result = .illegalCommand

/-- R22, R33, R119, R231: a host operation that changes `S.pix` is a successful PGET; one that changes `S.fb` is FBNEW,
CLEAR or PSET; `S.rot`, FBNEW or SETROT; `S.fsm`, INIT, SLEEP or WAKE; `S.unk`, `S.dc` or `S.cs`, a refresh operation;
`S.rst`, INIT or WAKE; none changes the configuration, which is the model's own field (log 1). `S.result` is written by
every host operation (R201). -/
def Obligations.FieldsChangeThroughTheirOperationsOnly : Prop :=
  ∀ (w : Word) (s t : State), runCommand w s = .next t →
    (t.pix ≠ s.pix → ∃ x y, decode w = .ok (.pget x y) ∧ t.result = .ok) ∧
    (t.fb ≠ s.fb → decode w = .ok .fbnew ∨ (∃ c, decode w = .ok (.clear c)) ∨ ∃ c x y, decode w = .ok (.pset c x y)) ∧
    (t.rot ≠ s.rot → decode w = .ok .fbnew ∨ ∃ r, decode w = .ok (.setrot r)) ∧
    (t.fsm ≠ s.fsm → decode w = .ok .init ∨ decode w = .ok .sleep ∨ decode w = .ok .wake) ∧
    (t.unk ≠ s.unk → ∃ i, decode w = .ok i ∧ isRefresh i = true) ∧
    (t.dc ≠ s.dc ∨ t.cs ≠ s.cs → ∃ i, decode w = .ok i ∧ isRefresh i = true) ∧
    (t.rst ≠ s.rst → decode w = .ok .init ∨ decode w = .ok .wake) ∧
    t.cfg = s.cfg

/-- R186: no refresh operation writes `S.fb`, `S.rot` or `S.pix`; nor does it touch the host's side or the
configuration. -/
def Obligations.RefreshWritesNoFramebufferState : Prop :=
  ∀ (i : Instr) (s : State), isRefresh i = true → ∃ t, exec i s = .next t ∧
    t.fb = s.fb ∧ t.rot = s.rot ∧ t.pix = s.pix ∧ t.cfg = s.cfg ∧ t.port = s.port ∧ t.replies = s.replies

/-- R163: only a successful INIT clears `S.unk`. -/
def Obligations.OnlyASuccessfulInitClearsUnknown : Prop :=
  ∀ (i : Instr) (s t : State), exec i s = .next t → s.unk = true → (t.unk = false ↔ i = .init ∧ t.result = .ok)

/-- R184: after a transport error or a timeout the panel is marked unknown, INIT and WAKE have gone to `UNINIT` and the
others have stayed in `AWAKE`; no event but line sets follows a failed write, and a timeout's last event is a busy
sample. -/
def Obligations.HardwareErrorBookkeeping : Prop :=
  ∀ (i : Instr) (s t : State), exec i s = .next t → t.result.errorClass = .hardware →
    t.unk = true ∧ t.fsm = (if i = .init ∨ i = .wake then .uninit else .awake) ∧
    noRetry (newEvents s t) = true ∧
    (t.result ≠ .busTransportError → (newEvents s t).getLast? = some (.busy s.cfg.pBusyActive))

/-- R204, R207: an operation that ends in a caller logic error has changed nothing but `S.result`. -/
def Obligations.LogicErrorsChangeOnlyTheResult : Prop :=
  ∀ (i : Instr) (s t : State), exec i s = .next t → t.result.errorClass = .callerLogic →
    t = { s with result := t.result }

/-- R179 (the spec's own inference from R160): while `SLEEPING`, an operation that makes a panel event is WAKE or
INIT. -/
def Obligations.SleepingSendsNothingButWakeOrInit : Prop :=
  ∀ (i : Instr) (s t : State), exec i s = .next t → s.fsm = .sleeping → newEvents s t ≠ [] → i = .init ∨ i = .wake

/-- R130, R131, R133, R134: on every operation's events from idle lines, each bus write stands inside chip-select, is
closed by the next event, and carries one byte in command mode; samples and delays stand outside; nothing is retried. -/
def Obligations.EveryOperationFramesItsTransactions : Prop :=
  ∀ (i : Instr) (s t : State), LinesIdle s → exec i s = .next t →
    framedTrace s.cfg.toParams s.lines (newEvents s t) = true ∧ noRetry (newEvents s t) = true

/-- R244 (the spec's own inference from R137 and R143): the delay totals of every operation, from below for a
successful one and from above for any. -/
def Obligations.DelayTotals : Prop :=
  ∀ (i : Instr) (s t : State), exec i s = .next t →
    delayTotal (newEvents s t) ≤ mostDelay s.cfg.toParams i ∧
    (t.result = .ok → leastDelay s.cfg.toParams s.fsm i ≤ delayTotal (newEvents s t)) ∧
    (i = .sleep → t.result = .busTransportError → delayTotal (newEvents s t) = 0) ∧
    (i = .init → t.result = .busTransportError →
      delayTotal (newEvents s t) = s.cfg.pTRstLow + s.cfg.pTRstSettle)

/-- R166 (corner case), R186: under equal answers of the environment, which the model gives two runs from states with
equal answer lists and draw counters (the model's choice, log 3; R62), what a refresh operation sends and reports does not
depend on the rotation or on `S.pix`. -/
def Obligations.RefreshIgnoresRotationAndPixel : Prop :=
  ∀ (i : Instr) (s t : State) (r : Rotation) (c : Color), isRefresh i = true → exec i s = .next t →
    exec i { s with rot := r, pix := c } = .next { t with rot := r, pix := c }

/-- R139, R173: under equal answers of the environment (the model's choice for two runs, log 3; R62), what a PARTIAL sends
and reports depends on no framebuffer byte outside its rows. -/
def Obligations.PartialDependsOnItsRowsOnly : Prop :=
  ∀ (s t : State) (m : Memory) (ys ye : Nat),
    (∀ a, ys * s.cfg.rowBytes ≤ a → a < ye * s.cfg.rowBytes → m.read a = s.fb.read a) →
    exec (.partialRefresh ys ye) s = .next t →
    exec (.partialRefresh ys ye) { s with fb := m } = .next { t with fb := m }

/-- R236, D26: under equal answers of the environment (the model's choice for two runs, log 3; R62), `S.unk` blocks
nothing: with either value of it an operation makes the same events and ends with the same result and FSM state. -/
def Obligations.UnknownFlagBlocksNothing : Prop :=
  ∀ (i : Instr) (s t : State) (b : Bool), exec i s = .next t →
    ∃ u, exec i { s with unk := b } = .next u ∧ u = { t with unk := u.unk }

/-- R57, R61, R62: a step only appends to the trace, takes the environment's answers from the front in order, and never
changes the configuration. -/
def Obligations.StepsOnlyAppendToTheTrace : Prop :=
  ∀ s t : State, step s = .next t →
    s.trace <+: t.trace ∧ t.busAnswers <:+ s.busAnswers ∧ t.busyAnswers <:+ s.busyAnswers ∧
      s.draws ≤ t.draws ∧ s.replies <+: t.replies ∧ t.cfg = s.cfg

/-- R58: the observable trace is the recorded one less exactly the redundant line sets: a sublist of it in which no event
is redundant at its running levels; an event of the recorded trace is dropped from its place when it is redundant there and
kept in it when it is not, and so every write, sample and delay is kept in order. Taking it again changes nothing, and it
leaves the lines at the levels the recorded trace leaves them. -/
def Obligations.ObservableTraceIsNormal : Prop :=
  ∀ (ls : Lines) (evs : List Event),
    (observable ls evs).Sublist evs ∧ noRedundant ls (observable ls evs) = true ∧
    (∀ pre e post, evs = pre ++ e :: post →
      observable ls evs = observable ls pre
        ++ (if e.redundant (pre.foldl Lines.after ls) then [] else [e])
        ++ observable ((pre ++ [e]).foldl Lines.after ls) post) ∧
    (observable ls evs).filter (fun e => !e.isPin) = evs.filter (fun e => !e.isPin) ∧
    observable ls (observable ls evs) = observable ls evs ∧
    (observable ls evs).foldl Lines.after ls = evs.foldl Lines.after ls

/-- R36, R45, R133: the invariants hold after reset, in every configuration. -/
def Obligations.ResetMeetsTheInvariant : Prop :=
  (Invariant State.reset ∧ ∀ c : Config, Invariant (State.resetOf c)) ∧
  TraceOk State.reset ∧ ∀ c : Config, TraceOk (State.resetOf c)

/-- R45, R46, R133: every step keeps the invariant: the framebuffer in canonical form and inside `FB_BYTES`, and the
lines idle between operations. -/
def Obligations.StepsKeepTheInvariant : Prop := ∀ s t : State, Invariant s → step s = .next t → Invariant t

/-- R57, R133: every step keeps the whole recorded trace framed: led from the reset levels to the lines' own, every bus
write in it stands inside chip-select and is closed by the next event, and samples and delays stand outside; a reset that
cuts an operation (the model's choices, log 9 and log 19) closes the transaction it cuts. -/
def Obligations.StepsKeepTheTraceFramed : Prop :=
  ∀ s t : State, TraceOk s → step s = .next t → TraceOk t
end

