-- ==== Sys2Proof/Laws/State.lean ====
section
/-! SUPPORT. One lemma per field per primitive update of the state, so that no later proof unfolds a record update. -/

namespace Sys2Proof.Machine

/-! ### `record` -/

@[simp] theorem State.record_cfg (s : State) (e : Event) : (s.record e).cfg = s.cfg := rfl

@[simp] theorem State.record_fsm (s : State) (e : Event) : (s.record e).fsm = s.fsm := rfl

@[simp] theorem State.record_rot (s : State) (e : Event) : (s.record e).rot = s.rot := rfl

@[simp] theorem State.record_fb (s : State) (e : Event) : (s.record e).fb = s.fb := rfl

@[simp] theorem State.record_result (s : State) (e : Event) : (s.record e).result = s.result := rfl

@[simp] theorem State.record_pix (s : State) (e : Event) : (s.record e).pix = s.pix := rfl

@[simp] theorem State.record_unk (s : State) (e : Event) : (s.record e).unk = s.unk := rfl

@[simp] theorem State.record_dc (s : State) (e : Event) : (s.record e).dc = s.dc := rfl

@[simp] theorem State.record_cs (s : State) (e : Event) : (s.record e).cs = s.cs := rfl

@[simp] theorem State.record_rst (s : State) (e : Event) : (s.record e).rst = s.rst := rfl

@[simp] theorem State.record_port (s : State) (e : Event) : (s.record e).port = s.port := rfl

@[simp] theorem State.record_replies (s : State) (e : Event) : (s.record e).replies = s.replies := rfl

@[simp] theorem State.record_busAnswers (s : State) (e : Event) : (s.record e).busAnswers = s.busAnswers := rfl

@[simp] theorem State.record_busyAnswers (s : State) (e : Event) : (s.record e).busyAnswers = s.busyAnswers := rfl

@[simp] theorem State.record_draws (s : State) (e : Event) : (s.record e).draws = s.draws := rfl

@[simp] theorem State.record_trace (s : State) (e : Event) : (s.record e).trace = s.trace ++ [e] := rfl

/-! ### `raise` -/

@[simp] theorem State.raise_cfg (s : State) (e : ResultCode) : (s.raise e).cfg = s.cfg := rfl

@[simp] theorem State.raise_fsm (s : State) (e : ResultCode) : (s.raise e).fsm = s.fsm := rfl

@[simp] theorem State.raise_rot (s : State) (e : ResultCode) : (s.raise e).rot = s.rot := rfl

@[simp] theorem State.raise_fb (s : State) (e : ResultCode) : (s.raise e).fb = s.fb := rfl

@[simp] theorem State.raise_pix (s : State) (e : ResultCode) : (s.raise e).pix = s.pix := rfl

@[simp] theorem State.raise_unk (s : State) (e : ResultCode) : (s.raise e).unk = s.unk := rfl

@[simp] theorem State.raise_dc (s : State) (e : ResultCode) : (s.raise e).dc = s.dc := rfl

@[simp] theorem State.raise_cs (s : State) (e : ResultCode) : (s.raise e).cs = s.cs := rfl

@[simp] theorem State.raise_rst (s : State) (e : ResultCode) : (s.raise e).rst = s.rst := rfl

@[simp] theorem State.raise_port (s : State) (e : ResultCode) : (s.raise e).port = s.port := rfl

@[simp] theorem State.raise_replies (s : State) (e : ResultCode) : (s.raise e).replies = s.replies := rfl

@[simp] theorem State.raise_trace (s : State) (e : ResultCode) : (s.raise e).trace = s.trace := rfl

@[simp] theorem State.raise_busAnswers (s : State) (e : ResultCode) : (s.raise e).busAnswers = s.busAnswers := rfl

@[simp] theorem State.raise_busyAnswers (s : State) (e : ResultCode) : (s.raise e).busyAnswers = s.busyAnswers := rfl

@[simp] theorem State.raise_draws (s : State) (e : ResultCode) : (s.raise e).draws = s.draws := rfl

@[simp] theorem State.raise_result (s : State) (e : ResultCode) : (s.raise e).result = e := rfl

/-! ### `returnOk` -/

@[simp] theorem State.returnOk_cfg (s : State) : s.returnOk.cfg = s.cfg := rfl

@[simp] theorem State.returnOk_fsm (s : State) : s.returnOk.fsm = s.fsm := rfl

@[simp] theorem State.returnOk_rot (s : State) : s.returnOk.rot = s.rot := rfl

@[simp] theorem State.returnOk_fb (s : State) : s.returnOk.fb = s.fb := rfl

@[simp] theorem State.returnOk_pix (s : State) : s.returnOk.pix = s.pix := rfl

@[simp] theorem State.returnOk_unk (s : State) : s.returnOk.unk = s.unk := rfl

@[simp] theorem State.returnOk_dc (s : State) : s.returnOk.dc = s.dc := rfl

@[simp] theorem State.returnOk_cs (s : State) : s.returnOk.cs = s.cs := rfl

@[simp] theorem State.returnOk_rst (s : State) : s.returnOk.rst = s.rst := rfl

@[simp] theorem State.returnOk_port (s : State) : s.returnOk.port = s.port := rfl

@[simp] theorem State.returnOk_replies (s : State) : s.returnOk.replies = s.replies := rfl

@[simp] theorem State.returnOk_trace (s : State) : s.returnOk.trace = s.trace := rfl

@[simp] theorem State.returnOk_busAnswers (s : State) : s.returnOk.busAnswers = s.busAnswers := rfl

@[simp] theorem State.returnOk_busyAnswers (s : State) : s.returnOk.busyAnswers = s.busyAnswers := rfl

@[simp] theorem State.returnOk_draws (s : State) : s.returnOk.draws = s.draws := rfl

@[simp] theorem State.returnOk_result (s : State) : s.returnOk.result = .ok := rfl

/-! ### `illegal` -/

@[simp] theorem State.illegal_cfg (s : State) : s.illegal.cfg = s.cfg := rfl

@[simp] theorem State.illegal_fsm (s : State) : s.illegal.fsm = s.fsm := rfl

@[simp] theorem State.illegal_rot (s : State) : s.illegal.rot = s.rot := rfl

@[simp] theorem State.illegal_fb (s : State) : s.illegal.fb = s.fb := rfl

@[simp] theorem State.illegal_pix (s : State) : s.illegal.pix = s.pix := rfl

@[simp] theorem State.illegal_unk (s : State) : s.illegal.unk = s.unk := rfl

@[simp] theorem State.illegal_dc (s : State) : s.illegal.dc = s.dc := rfl

@[simp] theorem State.illegal_cs (s : State) : s.illegal.cs = s.cs := rfl

@[simp] theorem State.illegal_rst (s : State) : s.illegal.rst = s.rst := rfl

@[simp] theorem State.illegal_port (s : State) : s.illegal.port = s.port := rfl

@[simp] theorem State.illegal_replies (s : State) : s.illegal.replies = s.replies := rfl

@[simp] theorem State.illegal_trace (s : State) : s.illegal.trace = s.trace := rfl

@[simp] theorem State.illegal_busAnswers (s : State) : s.illegal.busAnswers = s.busAnswers := rfl

@[simp] theorem State.illegal_busyAnswers (s : State) : s.illegal.busyAnswers = s.busyAnswers := rfl

@[simp] theorem State.illegal_draws (s : State) : s.illegal.draws = s.draws := rfl

@[simp] theorem State.illegal_result (s : State) : s.illegal.result = .illegalCommand := rfl

/-! ### `setLevel` -/

@[simp] theorem State.setLevel_cfg (s : State) (p : Line) (l : Level) : (s.setLevel p l).cfg = s.cfg := by cases p <;> rfl

@[simp] theorem State.setLevel_fsm (s : State) (p : Line) (l : Level) : (s.setLevel p l).fsm = s.fsm := by cases p <;> rfl

@[simp] theorem State.setLevel_rot (s : State) (p : Line) (l : Level) : (s.setLevel p l).rot = s.rot := by cases p <;> rfl

@[simp] theorem State.setLevel_fb (s : State) (p : Line) (l : Level) : (s.setLevel p l).fb = s.fb := by cases p <;> rfl

@[simp] theorem State.setLevel_result (s : State) (p : Line) (l : Level) : (s.setLevel p l).result = s.result := by cases p <;> rfl

@[simp] theorem State.setLevel_pix (s : State) (p : Line) (l : Level) : (s.setLevel p l).pix = s.pix := by cases p <;> rfl

@[simp] theorem State.setLevel_unk (s : State) (p : Line) (l : Level) : (s.setLevel p l).unk = s.unk := by cases p <;> rfl

@[simp] theorem State.setLevel_port (s : State) (p : Line) (l : Level) : (s.setLevel p l).port = s.port := by cases p <;> rfl

@[simp] theorem State.setLevel_replies (s : State) (p : Line) (l : Level) : (s.setLevel p l).replies = s.replies := by cases p <;> rfl

@[simp] theorem State.setLevel_trace (s : State) (p : Line) (l : Level) : (s.setLevel p l).trace = s.trace := by cases p <;> rfl

@[simp] theorem State.setLevel_busAnswers (s : State) (p : Line) (l : Level) : (s.setLevel p l).busAnswers = s.busAnswers := by cases p <;> rfl

@[simp] theorem State.setLevel_busyAnswers (s : State) (p : Line) (l : Level) : (s.setLevel p l).busyAnswers = s.busyAnswers := by cases p <;> rfl

@[simp] theorem State.setLevel_draws (s : State) (p : Line) (l : Level) : (s.setLevel p l).draws = s.draws := by cases p <;> rfl

@[simp] theorem State.setLevel_dc (s : State) (p : Line) (l : Level) : (s.setLevel p l).dc = if p = .dc then l else s.dc := by cases p <;> rfl

@[simp] theorem State.setLevel_cs (s : State) (p : Line) (l : Level) : (s.setLevel p l).cs = if p = .cs then l else s.cs := by cases p <;> rfl

@[simp] theorem State.setLevel_rst (s : State) (p : Line) (l : Level) : (s.setLevel p l).rst = if p = .rst then l else s.rst := by cases p <;> rfl

/-! ### `setPin` -/

@[simp] theorem State.setPin_cfg (s : State) (p : Line) (l : Level) : (s.setPin p l).cfg = s.cfg := by
  unfold State.setPin; split <;> simp

@[simp] theorem State.setPin_fsm (s : State) (p : Line) (l : Level) : (s.setPin p l).fsm = s.fsm := by
  unfold State.setPin; split <;> simp

@[simp] theorem State.setPin_rot (s : State) (p : Line) (l : Level) : (s.setPin p l).rot = s.rot := by
  unfold State.setPin; split <;> simp

@[simp] theorem State.setPin_fb (s : State) (p : Line) (l : Level) : (s.setPin p l).fb = s.fb := by
  unfold State.setPin; split <;> simp

@[simp] theorem State.setPin_result (s : State) (p : Line) (l : Level) : (s.setPin p l).result = s.result := by
  unfold State.setPin; split <;> simp

@[simp] theorem State.setPin_pix (s : State) (p : Line) (l : Level) : (s.setPin p l).pix = s.pix := by
  unfold State.setPin; split <;> simp

@[simp] theorem State.setPin_unk (s : State) (p : Line) (l : Level) : (s.setPin p l).unk = s.unk := by
  unfold State.setPin; split <;> simp

@[simp] theorem State.setPin_port (s : State) (p : Line) (l : Level) : (s.setPin p l).port = s.port := by
  unfold State.setPin; split <;> simp

@[simp] theorem State.setPin_replies (s : State) (p : Line) (l : Level) : (s.setPin p l).replies = s.replies := by
  unfold State.setPin; split <;> simp

@[simp] theorem State.setPin_busAnswers (s : State) (p : Line) (l : Level) : (s.setPin p l).busAnswers = s.busAnswers := by
  unfold State.setPin; split <;> simp

@[simp] theorem State.setPin_busyAnswers (s : State) (p : Line) (l : Level) : (s.setPin p l).busyAnswers = s.busyAnswers := by
  unfold State.setPin; split <;> simp

@[simp] theorem State.setPin_draws (s : State) (p : Line) (l : Level) : (s.setPin p l).draws = s.draws := by
  unfold State.setPin; split <;> simp

@[simp] theorem State.setPin_dc (s : State) (p : Line) (l : Level) : (s.setPin p l).dc = if p = .dc then l else s.dc := by
  unfold State.setPin; split <;> cases p <;> simp_all [State.drives]

@[simp] theorem State.setPin_cs (s : State) (p : Line) (l : Level) : (s.setPin p l).cs = if p = .cs ∧ s.cfg.pCsPresent = true then l else s.cs := by
  unfold State.setPin; split <;> cases p <;> simp_all [State.drives]

@[simp] theorem State.setPin_rst (s : State) (p : Line) (l : Level) : (s.setPin p l).rst = if p = .rst then l else s.rst := by
  unfold State.setPin; split <;> cases p <;> simp_all [State.drives]

@[simp] theorem State.setPin_trace (s : State) (p : Line) (l : Level) : (s.setPin p l).trace = s.trace ++ (if s.drives p then [.pin p l] else []) := by
  unfold State.setPin; split <;> simp

/-! ### `delay` -/

@[simp] theorem State.delay_cfg (s : State) (ms : Nat) : (s.delay ms).cfg = s.cfg := by
  unfold State.delay; split <;> simp

@[simp] theorem State.delay_fsm (s : State) (ms : Nat) : (s.delay ms).fsm = s.fsm := by
  unfold State.delay; split <;> simp

@[simp] theorem State.delay_rot (s : State) (ms : Nat) : (s.delay ms).rot = s.rot := by
  unfold State.delay; split <;> simp

@[simp] theorem State.delay_fb (s : State) (ms : Nat) : (s.delay ms).fb = s.fb := by
  unfold State.delay; split <;> simp

@[simp] theorem State.delay_result (s : State) (ms : Nat) : (s.delay ms).result = s.result := by
  unfold State.delay; split <;> simp

@[simp] theorem State.delay_pix (s : State) (ms : Nat) : (s.delay ms).pix = s.pix := by
  unfold State.delay; split <;> simp

@[simp] theorem State.delay_unk (s : State) (ms : Nat) : (s.delay ms).unk = s.unk := by
  unfold State.delay; split <;> simp

@[simp] theorem State.delay_dc (s : State) (ms : Nat) : (s.delay ms).dc = s.dc := by
  unfold State.delay; split <;> simp

@[simp] theorem State.delay_cs (s : State) (ms : Nat) : (s.delay ms).cs = s.cs := by
  unfold State.delay; split <;> simp

@[simp] theorem State.delay_rst (s : State) (ms : Nat) : (s.delay ms).rst = s.rst := by
  unfold State.delay; split <;> simp

@[simp] theorem State.delay_port (s : State) (ms : Nat) : (s.delay ms).port = s.port := by
  unfold State.delay; split <;> simp

@[simp] theorem State.delay_replies (s : State) (ms : Nat) : (s.delay ms).replies = s.replies := by
  unfold State.delay; split <;> simp

@[simp] theorem State.delay_busAnswers (s : State) (ms : Nat) : (s.delay ms).busAnswers = s.busAnswers := by
  unfold State.delay; split <;> simp

@[simp] theorem State.delay_busyAnswers (s : State) (ms : Nat) : (s.delay ms).busyAnswers = s.busyAnswers := by
  unfold State.delay; split <;> simp

@[simp] theorem State.delay_draws (s : State) (ms : Nat) : (s.delay ms).draws = s.draws := by
  unfold State.delay; split <;> simp

@[simp] theorem State.delay_trace (s : State) (ms : Nat) : (s.delay ms).trace = s.trace ++ delayEvents ms := by
  unfold State.delay delayEvents; split <;> simp

/-! ### `busWrite` -/

@[simp] theorem State.busWrite_cfg (s : State) (bs : List Byte) : (s.busWrite bs).2.cfg = s.cfg := rfl

@[simp] theorem State.busWrite_fsm (s : State) (bs : List Byte) : (s.busWrite bs).2.fsm = s.fsm := rfl

@[simp] theorem State.busWrite_rot (s : State) (bs : List Byte) : (s.busWrite bs).2.rot = s.rot := rfl

@[simp] theorem State.busWrite_fb (s : State) (bs : List Byte) : (s.busWrite bs).2.fb = s.fb := rfl

@[simp] theorem State.busWrite_result (s : State) (bs : List Byte) : (s.busWrite bs).2.result = s.result := rfl

@[simp] theorem State.busWrite_pix (s : State) (bs : List Byte) : (s.busWrite bs).2.pix = s.pix := rfl

@[simp] theorem State.busWrite_unk (s : State) (bs : List Byte) : (s.busWrite bs).2.unk = s.unk := rfl

@[simp] theorem State.busWrite_dc (s : State) (bs : List Byte) : (s.busWrite bs).2.dc = s.dc := rfl

@[simp] theorem State.busWrite_cs (s : State) (bs : List Byte) : (s.busWrite bs).2.cs = s.cs := rfl

@[simp] theorem State.busWrite_rst (s : State) (bs : List Byte) : (s.busWrite bs).2.rst = s.rst := rfl

@[simp] theorem State.busWrite_port (s : State) (bs : List Byte) : (s.busWrite bs).2.port = s.port := rfl

@[simp] theorem State.busWrite_replies (s : State) (bs : List Byte) : (s.busWrite bs).2.replies = s.replies := rfl

@[simp] theorem State.busWrite_busyAnswers (s : State) (bs : List Byte) : (s.busWrite bs).2.busyAnswers = s.busyAnswers := rfl

@[simp] theorem State.busWrite_trace (s : State) (bs : List Byte) : (s.busWrite bs).2.trace = s.trace ++ [.write bs s.nextBusResult] := rfl

@[simp] theorem State.busWrite_busAnswers (s : State) (bs : List Byte) : (s.busWrite bs).2.busAnswers = s.busAnswers.tail := rfl

@[simp] theorem State.busWrite_draws (s : State) (bs : List Byte) : (s.busWrite bs).2.draws = s.draws + 1 := rfl

/-! ### `readBusy` -/

@[simp] theorem State.readBusy_cfg (s : State) : s.readBusy.2.cfg = s.cfg := rfl

@[simp] theorem State.readBusy_fsm (s : State) : s.readBusy.2.fsm = s.fsm := rfl

@[simp] theorem State.readBusy_rot (s : State) : s.readBusy.2.rot = s.rot := rfl

@[simp] theorem State.readBusy_fb (s : State) : s.readBusy.2.fb = s.fb := rfl

@[simp] theorem State.readBusy_result (s : State) : s.readBusy.2.result = s.result := rfl

@[simp] theorem State.readBusy_pix (s : State) : s.readBusy.2.pix = s.pix := rfl

@[simp] theorem State.readBusy_unk (s : State) : s.readBusy.2.unk = s.unk := rfl

@[simp] theorem State.readBusy_dc (s : State) : s.readBusy.2.dc = s.dc := rfl

@[simp] theorem State.readBusy_cs (s : State) : s.readBusy.2.cs = s.cs := rfl

@[simp] theorem State.readBusy_rst (s : State) : s.readBusy.2.rst = s.rst := rfl

@[simp] theorem State.readBusy_port (s : State) : s.readBusy.2.port = s.port := rfl

@[simp] theorem State.readBusy_replies (s : State) : s.readBusy.2.replies = s.replies := rfl

@[simp] theorem State.readBusy_busAnswers (s : State) : s.readBusy.2.busAnswers = s.busAnswers := rfl

@[simp] theorem State.readBusy_trace (s : State) : s.readBusy.2.trace = s.trace ++ [.busy s.nextBusyLevel] := rfl

@[simp] theorem State.readBusy_busyAnswers (s : State) : s.readBusy.2.busyAnswers = s.busyAnswers.tail := rfl

@[simp] theorem State.readBusy_draws (s : State) : s.readBusy.2.draws = s.draws + 1 := rfl

/-! ### `blockReset` -/

@[simp] theorem State.blockReset_cfg (s : State) : s.blockReset.cfg = s.cfg := by simp [State.blockReset]

@[simp] theorem State.blockReset_port (s : State) : s.blockReset.port = s.port := by simp [State.blockReset]

@[simp] theorem State.blockReset_replies (s : State) : s.blockReset.replies = s.replies := by simp [State.blockReset]

@[simp] theorem State.blockReset_busAnswers (s : State) : s.blockReset.busAnswers = s.busAnswers := by simp [State.blockReset]

@[simp] theorem State.blockReset_busyAnswers (s : State) : s.blockReset.busyAnswers = s.busyAnswers := by simp [State.blockReset]

@[simp] theorem State.blockReset_draws (s : State) : s.blockReset.draws = s.draws := by simp [State.blockReset]

@[simp] theorem State.blockReset_fsm (s : State) : s.blockReset.fsm = .uninit := rfl

@[simp] theorem State.blockReset_rot (s : State) : s.blockReset.rot = .r0 := rfl

@[simp] theorem State.blockReset_fb (s : State) : s.blockReset.fb = [] := rfl

@[simp] theorem State.blockReset_result (s : State) : s.blockReset.result = .ok := rfl

@[simp] theorem State.blockReset_pix (s : State) : s.blockReset.pix = .white := rfl

@[simp] theorem State.blockReset_unk (s : State) : s.blockReset.unk = false := rfl

@[simp] theorem State.blockReset_dc (s : State) : s.blockReset.dc = s.cfg.dcData := rfl

@[simp] theorem State.blockReset_cs (s : State) : s.blockReset.cs = s.cfg.csIdle := rfl

@[simp] theorem State.blockReset_rst (s : State) : s.blockReset.rst = true := rfl

@[simp] theorem State.blockReset_trace (s : State) : s.blockReset.trace =
    s.trace ++ csEvents s.cfg.toParams s.cfg.csIdle ++ [.pin .dc s.cfg.dcData, .pin .rst true] := by
  simp [State.blockReset, State.drives, csEvents]
  rfl

@[simp] theorem State.busWrite_fst (s : State) (bs : List Byte) : (s.busWrite bs).1 = s.nextBusResult := rfl

@[simp] theorem State.readBusy_fst (s : State) : s.readBusy.1 = s.nextBusyLevel := rfl

/-- Two states are equal when their fields are. -/
theorem State.ext_fields {s t : State} (h₁ : s.cfg = t.cfg) (h₂ : s.fsm = t.fsm) (h₃ : s.rot = t.rot)
    (h₄ : s.fb = t.fb) (h₅ : s.result = t.result) (h₆ : s.pix = t.pix) (h₇ : s.unk = t.unk) (h₈ : s.dc = t.dc)
    (h₉ : s.cs = t.cs) (h₁₀ : s.rst = t.rst) (h₁₁ : s.port = t.port) (h₁₂ : s.replies = t.replies)
    (h₁₃ : s.trace = t.trace) (h₁₄ : s.busAnswers = t.busAnswers) (h₁₅ : s.busyAnswers = t.busyAnswers)
    (h₁₆ : s.draws = t.draws) : s = t := by
  cases s; cases t; simp_all

end Sys2Proof.Machine
end

