-- ==== Sys2Proof/Laws/Channel.lean ====
section
/-! SUPPORT. What a micro-operation can do, said once (R130 to R141): it drives lines, appends to the trace and takes the
environment's answers, and leaves everything else as it was; with the lines idle before it, they are idle after it. -/

namespace Sys2Proof.Machine

/-- What every micro-operation keeps, and how it moves the trace and the answers. -/
structure MicroFrame (s t : State) : Prop where
  cfg : t.cfg = s.cfg
  fsm : t.fsm = s.fsm
  rot : t.rot = s.rot
  fb : t.fb = s.fb
  result : t.result = s.result
  pix : t.pix = s.pix
  unk : t.unk = s.unk
  port : t.port = s.port
  replies : t.replies = s.replies
  trace : s.trace <+: t.trace
  busAnswers : t.busAnswers <:+ s.busAnswers
  busyAnswers : t.busyAnswers <:+ s.busyAnswers

theorem MicroFrame.refl (s : State) : MicroFrame s s :=
  ⟨rfl, rfl, rfl, rfl, rfl, rfl, rfl, rfl, rfl, List.prefix_rfl, List.suffix_rfl, List.suffix_rfl⟩

theorem MicroFrame.trans {s t u : State} (h : MicroFrame s t) (k : MicroFrame t u) : MicroFrame s u :=
  ⟨k.cfg.trans h.cfg, k.fsm.trans h.fsm, k.rot.trans h.rot, k.fb.trans h.fb, k.result.trans h.result,
    k.pix.trans h.pix, k.unk.trans h.unk, k.port.trans h.port, k.replies.trans h.replies, h.trace.trans k.trace,
    k.busAnswers.trans h.busAnswers, k.busyAnswers.trans h.busyAnswers⟩

/-- Setting a line. -/
theorem MicroFrame.setPin (s : State) (p : Line) (l : Level) : MicroFrame s (s.setPin p l) := by
  constructor <;> simp

/-- A delay. -/
theorem MicroFrame.delay (s : State) (ms : Nat) : MicroFrame s (s.delay ms) := by
  constructor <;> simp

/-- A bus write. -/
theorem MicroFrame.busWrite (s : State) (bs : List Byte) : MicroFrame s (s.busWrite bs).2 := by
  constructor <;> simp [List.tail_suffix]

/-- A busy sample. -/
theorem MicroFrame.readBusy (s : State) : MicroFrame s s.readBusy.2 := by
  constructor <;> simp [List.tail_suffix]

/-- A transaction (R133). -/
theorem MicroFrame.transaction (bs : List Byte) (s : State) : MicroFrame s (transaction bs s).2 :=
  ((MicroFrame.setPin ..).trans (MicroFrame.busWrite ..)).trans (MicroFrame.setPin ..)

/-- `SendCommand` (R130). -/
theorem MicroFrame.sendCommand (op : Byte) (s : State) : MicroFrame s (sendCommand op s).2 := by
  show MicroFrame s ((Machine.transaction [op] (s.setPin .dc s.cfg.pDcCmd)).2.setPin .dc s.cfg.dcData)
  exact ((MicroFrame.setPin ..).trans (MicroFrame.transaction ..)).trans (MicroFrame.setPin ..)

/-- `SendData` (R131, R132). -/
theorem MicroFrame.sendData (bs : List Byte) (s : State) : MicroFrame s (sendData bs s).2 := by
  cases bs with
  | nil => exact MicroFrame.refl s
  | cons b rest => exact (MicroFrame.setPin ..).trans (MicroFrame.transaction ..)

/-- A sequence keeps what both parts keep, whichever way the first ends. -/
theorem MicroFrame.andThen {s : State} {m : Micro} {k : State → Micro} (h : MicroFrame s m.2)
    (hk : ∀ t, MicroFrame t (k t).2) : MicroFrame s (m.andThen k).2 := by
  unfold Micro.andThen
  split
  · exact h.trans (hk _)
  · exact h

/-- `Issue` (R135). -/
theorem MicroFrame.issue (c : Command) (s : State) : MicroFrame s (issue c s).2 :=
  MicroFrame.andThen (MicroFrame.sendCommand ..) fun _ => MicroFrame.sendData ..

/-- `IssueList` (R136). -/
theorem MicroFrame.issueList (l : List Command) (s : State) : MicroFrame s (issueList l s).2 := by
  induction l generalizing s with
  | nil => exact MicroFrame.refl s
  | cons c rest ih => exact MicroFrame.andThen (MicroFrame.issue ..) ih

/-- `ResetPulse` (R137). -/
theorem MicroFrame.resetPulse (s : State) : MicroFrame s (resetPulse s) :=
  (((MicroFrame.setPin ..).trans (MicroFrame.delay ..)).trans (MicroFrame.setPin ..)).trans (MicroFrame.delay ..)

/-- The data transactions of `SendFrame` (R138). -/
theorem MicroFrame.sendChunks (fuel a left : Nat) (s : State) : MicroFrame s (sendChunks fuel a left s).2 := by
  induction fuel generalizing a left s with
  | zero => exact MicroFrame.refl s
  | succ fuel ih =>
    unfold Machine.sendChunks
    split
    · exact MicroFrame.refl s
    · exact MicroFrame.andThen (MicroFrame.sendData ..) fun _ => ih ..

/-- `SendFrame` (R138, R139). -/
theorem MicroFrame.sendFrame (y0 y1 : Nat) (s : State) : MicroFrame s (sendFrame y0 y1 s).2 :=
  MicroFrame.andThen (MicroFrame.sendCommand ..) fun _ => MicroFrame.sendChunks ..

/-- The polling loop (R141). -/
theorem MicroFrame.waitLoop (timeout fuel elapsed : Nat) (s : State) :
    MicroFrame s (waitLoop timeout fuel elapsed s).2 := by
  induction fuel generalizing elapsed s with
  | zero => exact MicroFrame.refl s
  | succ fuel ih =>
    unfold Machine.waitLoop
    dsimp only
    split
    · split
      · exact MicroFrame.readBusy s
      · exact ((MicroFrame.readBusy s).trans (MicroFrame.delay ..)).trans (ih ..)
    · exact MicroFrame.readBusy s

/-- `WaitIdle` (R141). -/
theorem MicroFrame.waitIdle (timeout : Nat) (s : State) : MicroFrame s (waitIdle timeout s).2 :=
  MicroFrame.waitLoop ..

/-- The sequence of INIT and of WAKE (R161, R180). -/
theorem MicroFrame.wakeSequence (l : List Command) (timeout : Nat) (s : State) :
    MicroFrame s (wakeSequence l timeout s).2 :=
  MicroFrame.andThen ((MicroFrame.resetPulse s).trans (MicroFrame.issueList ..)) fun _ => MicroFrame.waitIdle ..

/-- The refresh phase (R165). -/
theorem MicroFrame.refreshPhase (l : List Command) (s : State) : MicroFrame s (refreshPhase l s).2 :=
  MicroFrame.andThen (MicroFrame.issueList ..) fun _ => MicroFrame.waitIdle ..

/-- The sequence of FULL and of PARTIAL (R166, R172). -/
theorem MicroFrame.refreshSequence (y0 y1 : Nat) (l : List Command) (s : State) :
    MicroFrame s (refreshSequence y0 y1 l s).2 :=
  MicroFrame.andThen (MicroFrame.andThen (MicroFrame.issueList ..) fun _ => MicroFrame.sendFrame ..)
    fun _ => MicroFrame.refreshPhase ..

/-! ### The lines are idle again after every micro-operation -/

theorem LinesIdle.iff (s : State) :
    LinesIdle s ↔ s.dc = s.cfg.dcData ∧ s.cs = s.cfg.csIdle ∧ s.rst = true :=
  ⟨fun h => ⟨h.dc, h.cs, h.rst⟩, fun h => ⟨h.1, h.2.1, h.2.2⟩⟩

/-- A transaction that starts with chip-select idle and reset high ends so, and leaves DC alone (R133). -/
theorem transaction_lines (bs : List Byte) (s : State) (hcs : s.cs = s.cfg.csIdle) :
    (transaction bs s).2.dc = s.dc ∧ (transaction bs s).2.cs = s.cfg.csIdle ∧ (transaction bs s).2.rst = s.rst := by
  refine ⟨by simp [transaction], ?_, by simp [transaction]⟩
  by_cases hp : s.cfg.pCsPresent = true <;> simp [transaction, hp, hcs]

theorem LinesIdle.sendCommand {s : State} (h : LinesIdle s) (op : Byte) : LinesIdle (sendCommand op s).2 := by
  have hc := (MicroFrame.sendCommand op s).cfg
  have ht := transaction_lines [op] (s.setPin .dc s.cfg.pDcCmd) (by simp [h.cs])
  have hk := (MicroFrame.transaction [op] (s.setPin .dc s.cfg.pDcCmd)).cfg
  rw [LinesIdle.iff, hc]
  simp_all [Machine.sendCommand, h.rst]

theorem LinesIdle.sendData {s : State} (h : LinesIdle s) (bs : List Byte) : LinesIdle (sendData bs s).2 := by
  cases bs with
  | nil => exact h
  | cons b rest =>
    have hc := (MicroFrame.sendData (b :: rest) s).cfg
    have ht := transaction_lines (b :: rest) (s.setPin .dc s.cfg.dcData) (by simp [h.cs])
    rw [LinesIdle.iff, hc]
    simp_all [Machine.sendData, h.rst]

theorem LinesIdle.andThen {m : Micro} {k : State → Micro} (h : LinesIdle m.2)
    (hk : ∀ t, LinesIdle t → LinesIdle (k t).2) : LinesIdle (m.andThen k).2 := by
  unfold Micro.andThen
  split
  · exact hk _ h
  · exact h

theorem LinesIdle.delay {s : State} (h : LinesIdle s) (ms : Nat) : LinesIdle (s.delay ms) := by
  rw [LinesIdle.iff] at *; simpa using h

theorem LinesIdle.readBusy {s : State} (h : LinesIdle s) : LinesIdle s.readBusy.2 := by
  rw [LinesIdle.iff] at *; simpa using h

theorem LinesIdle.resetPulse {s : State} (h : LinesIdle s) : LinesIdle (resetPulse s) := by
  rw [LinesIdle.iff] at *; simp [Machine.resetPulse, h.1, h.2.1]

theorem LinesIdle.issue {s : State} (h : LinesIdle s) (c : Command) : LinesIdle (issue c s).2 :=
  LinesIdle.andThen (h.sendCommand _) fun _ ht => ht.sendData _

theorem LinesIdle.issueList {s : State} (h : LinesIdle s) (l : List Command) : LinesIdle (issueList l s).2 := by
  induction l generalizing s with
  | nil => exact h
  | cons c rest ih => exact LinesIdle.andThen (h.issue c) fun _ ht => ih ht

theorem LinesIdle.sendChunks {s : State} (h : LinesIdle s) (fuel a left : Nat) :
    LinesIdle (sendChunks fuel a left s).2 := by
  induction fuel generalizing a left s with
  | zero => exact h
  | succ fuel ih =>
    unfold Machine.sendChunks
    split
    · exact h
    · exact LinesIdle.andThen (h.sendData _) fun _ ht => ih ht ..

theorem LinesIdle.sendFrame {s : State} (h : LinesIdle s) (y0 y1 : Nat) : LinesIdle (sendFrame y0 y1 s).2 :=
  LinesIdle.andThen (h.sendCommand _) fun _ ht => ht.sendChunks ..

theorem LinesIdle.waitLoop {s : State} (h : LinesIdle s) (timeout fuel elapsed : Nat) :
    LinesIdle (waitLoop timeout fuel elapsed s).2 := by
  induction fuel generalizing elapsed s with
  | zero => exact h
  | succ fuel ih =>
    unfold Machine.waitLoop
    dsimp only
    split
    · split
      · exact h.readBusy
      · exact ih (h.readBusy.delay _) ..
    · exact h.readBusy

theorem LinesIdle.waitIdle {s : State} (h : LinesIdle s) (timeout : Nat) : LinesIdle (waitIdle timeout s).2 :=
  h.waitLoop ..

theorem LinesIdle.wakeSequence {s : State} (h : LinesIdle s) (l : List Command) (timeout : Nat) :
    LinesIdle (wakeSequence l timeout s).2 :=
  LinesIdle.andThen (h.resetPulse.issueList l) fun _ ht => ht.waitIdle _

theorem LinesIdle.refreshSequence {s : State} (h : LinesIdle s) (y0 y1 : Nat) (l : List Command) :
    LinesIdle (refreshSequence y0 y1 l s).2 :=
  LinesIdle.andThen (LinesIdle.andThen (h.issueList _) fun _ ht => ht.sendFrame ..)
    fun _ ht => LinesIdle.andThen (ht.issueList _) fun _ hu => hu.waitIdle _

end Sys2Proof.Machine
end

