-- ==== Sys2Proof/Laws/Trace.lean ====
section
/-! SUPPORT. The counts and totals over events, event by event and over a concatenation. -/

namespace Sys2Proof.Machine

@[simp] theorem transactions_nil : transactions [] = 0 := rfl

@[simp] theorem transactions_cons (e : Event) (evs : List Event) :
    transactions (e :: evs) = transactions evs + (if e.isWrite then 1 else 0) := by
  simp [transactions, List.countP_cons]

@[simp] theorem transactions_append (a b : List Event) : transactions (a ++ b) = transactions a + transactions b := by
  simp [transactions]

@[simp] theorem samples_nil : samples [] = 0 := rfl

@[simp] theorem samples_cons (e : Event) (evs : List Event) :
    samples (e :: evs) = samples evs + (if e.isSample then 1 else 0) := by
  simp [samples, List.countP_cons]

@[simp] theorem samples_append (a b : List Event) : samples (a ++ b) = samples a + samples b := by
  simp [samples]

@[simp] theorem delayTotal_nil : delayTotal [] = 0 := rfl

@[simp] theorem delayTotal_cons (e : Event) (evs : List Event) :
    delayTotal (e :: evs) = e.millis + delayTotal evs := by
  simp [delayTotal]

@[simp] theorem delayTotal_append (a b : List Event) : delayTotal (a ++ b) = delayTotal a + delayTotal b := by
  simp [delayTotal]

@[simp] theorem delayTotal_delayEvents (ms : Nat) : delayTotal (delayEvents ms) = ms := by
  unfold delayEvents
  split
  · next h => simp [h]
  · simp [Event.millis]

@[simp] theorem payloadsOf_nil : payloadsOf [] = [] := rfl

@[simp] theorem payloadsOf_cons (e : Event) (evs : List Event) :
    payloadsOf (e :: evs) = if e.isWrite then e.bytes :: payloadsOf evs else payloadsOf evs := by
  unfold payloadsOf
  rw [List.filter_cons]
  split <;> rfl

@[simp] theorem payloadsOf_append (a b : List Event) : payloadsOf (a ++ b) = payloadsOf a ++ payloadsOf b := by
  simp [payloadsOf]

/-- The number of transactions is the number of payloads. -/
theorem transactions_eq_length (evs : List Event) : transactions evs = (payloadsOf evs).length := by
  simp [transactions, payloadsOf, List.countP_eq_length_filter]

/-- The bytes handed over are the payloads joined. -/
theorem bytesSent_eq_flatten (evs : List Event) : bytesSent evs = (payloadsOf evs).flatten := by
  induction evs with
  | nil => rfl
  | cons e rest ih =>
    have h : bytesSent (e :: rest) = e.bytes ++ bytesSent rest := rfl
    rw [h, ih]
    cases e <;> simp [Event.isWrite, Event.bytes]

@[simp] theorem answersOf_append (a b : List Event) : answersOf (a ++ b) = answersOf a ++ answersOf b := by
  simp [answersOf]

/-- Events without a failed write answer `Ok` at every write. -/
theorem answersOf_of_all {evs : List Event} (h : ∀ e ∈ evs, e.isFailedWrite = false) :
    answersOf evs = List.replicate (transactions evs) .ok := by
  induction evs with
  | nil => rfl
  | cons e rest ih =>
    have hr := ih fun x hx => h x (List.mem_cons_of_mem _ hx)
    have he := h e (List.mem_cons_self ..)
    cases e with
    | write bs r =>
      cases r
      · simp only [answersOf, List.filterMap_cons, Event.answer] at hr ⊢
        simp [hr, Event.isWrite, List.replicate_succ]
      · simp [Event.isFailedWrite] at he
    | pin p l => simpa [answersOf, List.filterMap_cons, Event.answer, Event.isWrite] using hr
    | busy l => simpa [answersOf, List.filterMap_cons, Event.answer, Event.isWrite] using hr
    | delay ms => simpa [answersOf, List.filterMap_cons, Event.answer, Event.isWrite] using hr

/-- Events without a failed write stay as they are when every write is answered `Ok`. -/
theorem map_answeredOk_of_all {evs : List Event} (h : ∀ e ∈ evs, e.isFailedWrite = false) :
    evs.map Event.answeredOk = evs := by
  conv_rhs => rw [← List.map_id evs]
  refine List.map_congr_left fun e he => ?_
  have := h e he
  cases e with
  | write bs r => cases r <;> simp_all [Event.answeredOk, Event.isFailedWrite]
  | pin p l => rfl
  | busy l => rfl
  | delay ms => rfl

/-- A trace without a failed write has nothing to retry. -/
theorem noRetry_of_all {evs : List Event} (h : ∀ e ∈ evs, e.isFailedWrite = false) : noRetry evs = true := by
  induction evs with
  | nil => rfl
  | cons e rest ih =>
    have he := h e (List.mem_cons_self ..)
    simp [noRetry, he, ih fun x hx => h x (List.mem_cons_of_mem _ hx)]

/-- Events without a failed write before a trace that retries nothing. -/
theorem noRetry_append {a b : List Event} (ha : ∀ e ∈ a, e.isFailedWrite = false) (hb : noRetry b = true) :
    noRetry (a ++ b) = true := by
  induction a with
  | nil => exact hb
  | cons e rest ih =>
    have he := ha e (List.mem_cons_self ..)
    simp [noRetry, he, ih fun x hx => ha x (List.mem_cons_of_mem _ hx)]

/-- A bounded trace followed by a bounded trace, from the lines the first one leaves (R133): the event after the first
trace matters only to a write that ends it, and a framed trace ends with none. -/
theorem framedTrace_append {p : Params} {ls : Lines} {a b : List Event} (ha : framedTrace p ls a = true)
    (hb : framedTrace p (a.foldl Lines.after ls) b = true) : framedTrace p ls (a ++ b) = true := by
  induction a generalizing ls with
  | nil => exact hb
  | cons e rest ih =>
    simp only [framedTrace, Bool.and_eq_true, List.cons_append] at *
    refine ⟨?_, ih ha.2 hb⟩
    cases rest with
    | cons f more => cases e <;> exact ha.1
    | nil =>
      cases e with
      | write bs r =>
        simp only [Event.framed, closesNext, Bool.and_eq_true, List.nil_append] at *
        refine ⟨⟨ha.1.1.1, ?_⟩, ha.1.2⟩
        cases b <;> simp_all
      | pin q l => rfl
      | busy l => exact ha.1
      | delay ms => exact ha.1

/-- A framed trace cut after some of its events stays framed when line sets follow of which the first closes the
transaction that the cut may have left open (R133). -/
theorem framedTrace_cut {p : Params} {ls : Lines} {a b : List Event} (ha : framedTrace p ls a = true)
    (hc : closesNext p b = true) (hb : ∀ ms : Lines, framedTrace p ms b = true) (k : Nat) :
    framedTrace p ls (a.take k ++ b) = true := by
  induction a generalizing ls k with
  | nil => simpa using hb ls
  | cons e rest ih =>
    cases k with
    | zero => simpa using hb ls
    | succ k =>
      simp only [framedTrace, Bool.and_eq_true, List.take_succ_cons, List.cons_append] at *
      refine ⟨?_, ih ha.2 k⟩
      cases e with
      | write bs r =>
        simp only [Event.framed, Bool.and_eq_true] at *
        refine ⟨⟨ha.1.1.1, ?_⟩, ha.1.2⟩
        cases hk : rest.take k with
        | nil => exact hc
        | cons f more =>
          cases rest with
          | nil => simp at hk
          | cons g rest =>
            cases k with
            | zero => simp at hk
            | succ k => simp only [List.take_succ_cons, List.cons.injEq] at hk; rw [← hk.1]; exact ha.1.1.2
      | pin q l => rfl
      | busy l => exact ha.1
      | delay ms => exact ha.1

end Sys2Proof.Machine
end

