-- ==== Sys2Proof/Laws/Replay.lean ====
section
/-! SUPPORT. Every micro-operation moves the state by the events it records and by nothing else: what `replay` does to each
field, and each primitive as a replay of its events (R57). -/

namespace Sys2Proof.Machine

/-- Replaying two event lists one after the other. -/
theorem State.replay_append (s : State) (a b : List Event) : s.replay (a ++ b) = (s.replay a).replay b := by
  simp [State.replay]

@[simp] theorem State.replay_nil (s : State) : s.replay [] = s := rfl

theorem State.replay_cons (s : State) (e : Event) (evs : List Event) :
    s.replay (e :: evs) = (s.replayEvent e).replay evs := rfl

/-- What one replayed event keeps. -/
theorem State.replayEvent_keeps (s : State) (e : Event) :
    (s.replayEvent e).cfg = s.cfg ∧ (s.replayEvent e).fsm = s.fsm ∧ (s.replayEvent e).rot = s.rot ∧
    (s.replayEvent e).fb = s.fb ∧ (s.replayEvent e).result = s.result ∧ (s.replayEvent e).pix = s.pix ∧
    (s.replayEvent e).unk = s.unk ∧ (s.replayEvent e).port = s.port ∧ (s.replayEvent e).replies = s.replies := by
  cases e <;> simp [State.replayEvent]

/-- What replayed events keep. -/
theorem State.replay_keeps (s : State) (evs : List Event) :
    (s.replay evs).cfg = s.cfg ∧ (s.replay evs).fsm = s.fsm ∧ (s.replay evs).rot = s.rot ∧
    (s.replay evs).fb = s.fb ∧ (s.replay evs).result = s.result ∧ (s.replay evs).pix = s.pix ∧
    (s.replay evs).unk = s.unk ∧ (s.replay evs).port = s.port ∧ (s.replay evs).replies = s.replies := by
  induction evs generalizing s with
  | nil => simp
  | cons e rest ih =>
    have h := s.replayEvent_keeps e
    have k := ih (s.replayEvent e)
    rw [State.replay_cons]
    simp_all

@[simp] theorem State.replay_cfg (s : State) (evs : List Event) : (s.replay evs).cfg = s.cfg := (s.replay_keeps evs).1

@[simp] theorem State.replay_fsm (s : State) (evs : List Event) : (s.replay evs).fsm = s.fsm := (s.replay_keeps evs).2.1

@[simp] theorem State.replay_rot (s : State) (evs : List Event) : (s.replay evs).rot = s.rot :=
  (s.replay_keeps evs).2.2.1

@[simp] theorem State.replay_fb (s : State) (evs : List Event) : (s.replay evs).fb = s.fb :=
  (s.replay_keeps evs).2.2.2.1

@[simp] theorem State.replay_result (s : State) (evs : List Event) : (s.replay evs).result = s.result :=
  (s.replay_keeps evs).2.2.2.2.1

@[simp] theorem State.replay_pix (s : State) (evs : List Event) : (s.replay evs).pix = s.pix :=
  (s.replay_keeps evs).2.2.2.2.2.1

@[simp] theorem State.replay_unk (s : State) (evs : List Event) : (s.replay evs).unk = s.unk :=
  (s.replay_keeps evs).2.2.2.2.2.2.1

@[simp] theorem State.replay_port (s : State) (evs : List Event) : (s.replay evs).port = s.port :=
  (s.replay_keeps evs).2.2.2.2.2.2.2.1

@[simp] theorem State.replay_replies (s : State) (evs : List Event) : (s.replay evs).replies = s.replies :=
  (s.replay_keeps evs).2.2.2.2.2.2.2.2

/-- The trace after replayed events. -/
@[simp] theorem State.replay_trace (s : State) (evs : List Event) : (s.replay evs).trace = s.trace ++ evs := by
  induction evs generalizing s with
  | nil => simp
  | cons e rest ih => rw [State.replay_cons, ih]; cases e <;> simp [State.replayEvent]

/-- The transport's answers left after replayed events. -/
@[simp] theorem State.replay_busAnswers (s : State) (evs : List Event) :
    (s.replay evs).busAnswers = s.busAnswers.drop (transactions evs) := by
  induction evs generalizing s with
  | nil => simp
  | cons e rest ih =>
    rw [State.replay_cons, ih]
    cases e <;> simp [State.replayEvent, Event.isWrite]

/-- The busy levels left after replayed events. -/
@[simp] theorem State.replay_busyAnswers (s : State) (evs : List Event) :
    (s.replay evs).busyAnswers = s.busyAnswers.drop (samples evs) := by
  induction evs generalizing s with
  | nil => simp
  | cons e rest ih =>
    rw [State.replay_cons, ih]
    cases e <;> simp [State.replayEvent, Event.isSample]

/-- The draw counter after replayed events. -/
@[simp] theorem State.replay_draws (s : State) (evs : List Event) :
    (s.replay evs).draws = s.draws + transactions evs + samples evs := by
  induction evs generalizing s with
  | nil => simp
  | cons e rest ih =>
    rw [State.replay_cons, ih]
    cases e <;> simp [State.replayEvent, Event.isWrite, Event.isSample] <;> omega

/-- The lines after replayed events. -/
@[simp] theorem State.replay_lines (s : State) (evs : List Event) :
    (s.replay evs).lines = evs.foldl Lines.after s.lines := by
  induction evs generalizing s with
  | nil => rfl
  | cons e rest ih =>
    rw [State.replay_cons, ih, List.foldl_cons]
    congr 1
    cases e with
    | pin p l => cases p <;> rfl
    | write bs r => rfl
    | busy l => rfl
    | delay ms => rfl

/-- The new events of a replay are the events replayed. -/
@[simp] theorem newEvents_replay (s : State) (evs : List Event) : newEvents s (s.replay evs) = evs := by
  simp [newEvents]

/-- A state is the replay of some events when its lines and draws are, and it keeps the rest. -/
theorem State.replay_eq_advance {s : State} {evs : List Event} (h : evs.foldl Lines.after s.lines = s.lines) :
    s.replay evs = s.advance evs (transactions evs) (samples evs) := by
  have hl : (s.replay evs).lines = s.lines := (s.replay_lines evs).trans h
  simp only [State.lines, Lines.mk.injEq] at hl
  obtain ⟨h₁, h₂, h₃⟩ := hl
  apply State.ext_fields <;> simp [State.advance, h₁, h₂, h₃]

/-! ### The primitives as replays -/

/-- The events of a line set (R16, R59). -/
def pinEvents (p : Params) (line : Line) (l : Level) : List Event :=
  match line with
  | .dc => [.pin .dc l]
  | .cs => csEvents p l
  | .rst => [.pin .rst l]

theorem State.setPin_eq_replay (s : State) (line : Line) (l : Level) :
    s.setPin line l = s.replay (pinEvents s.cfg.toParams line l) := by
  cases line with
  | dc => rfl
  | rst => rfl
  | cs =>
    by_cases h : s.cfg.pCsPresent = true <;>
      simp [State.setPin, State.drives, pinEvents, csEvents, h, State.replay, State.replayEvent]

theorem State.delay_eq_replay (s : State) (ms : Nat) : s.delay ms = s.replay (delayEvents ms) := by
  unfold State.delay delayEvents
  split <;> rfl

theorem State.busWrite_eq_replay (s : State) (bs : List Byte) :
    (s.busWrite bs).2 = s.replay [.write bs s.nextBusResult] := rfl

theorem State.readBusy_eq_replay (s : State) : s.readBusy.2 = s.replay [.busy s.nextBusyLevel] := rfl

/-- The transport's answer `k` draws ahead, when no busy sample comes between. -/
def State.busResultAt (s : State) (k : Nat) : BusResult :=
  match s.busAnswers.drop k with
  | [] => Config.freeBusResult (s.draws + k)
  | r :: _ => r

theorem State.nextBusResult_eq (s : State) : s.nextBusResult = s.busResultAt 0 := rfl

theorem State.busResultAt_replay {s : State} {evs : List Event} (h : samples evs = 0) (k : Nat) :
    (s.replay evs).busResultAt k = s.busResultAt (transactions evs + k) := by
  simp [State.busResultAt, h, List.drop_drop, Nat.add_assoc]

theorem State.nextBusResult_replay {s : State} {evs : List Event} (ht : transactions evs = 0) (h : samples evs = 0) :
    (s.replay evs).nextBusResult = s.nextBusResult := by
  rw [State.nextBusResult_eq, State.busResultAt_replay h, ht]; rfl

/-- A premise that the next `n` writes succeed, read at one of them. -/
theorem BusOk.at {n : Nat} {s : State} (h : BusOk n s) {k : Nat} (hk : k < n) : s.busResultAt k = .ok := by
  have hlen : n ≤ s.busAnswers.length := by
    have := congrArg List.length h; simp at this; omega
  have hget : s.busAnswers[k]'(by omega) = .ok := by
    have h1 : (s.busAnswers.take n)[k]? = some .ok := by rw [h]; simp [hk]
    rw [List.getElem?_take_of_lt hk, List.getElem?_eq_getElem (by omega)] at h1
    exact Option.some.inj h1
  unfold State.busResultAt
  rw [List.drop_eq_getElem_cons (by omega), hget]

/-- A premise that `n` writes succeed and the next fails, read at one of them. -/
theorem BusFailsAfter.at {n : Nat} {s : State} (h : BusFailsAfter n s) :
    (∀ k, k < n → s.busResultAt k = .ok) ∧ s.busResultAt n = .err := by
  have hlen : n + 1 ≤ s.busAnswers.length := by
    have := congrArg List.length h; simp at this; omega
  have key : ∀ k (hk : k < n + 1), s.busResultAt k = (List.replicate n BusResult.ok ++ [.err])[k]'(by simp; omega) := by
    intro k hk
    have h1 : (s.busAnswers.take (n + 1))[k]? = (List.replicate n BusResult.ok ++ [.err])[k]? := by rw [h]
    rw [List.getElem?_take_of_lt hk, List.getElem?_eq_getElem (by omega), List.getElem?_eq_getElem (by simp; omega)] at h1
    unfold State.busResultAt
    rw [List.drop_eq_getElem_cons (by omega), Option.some.inj h1]
  refine ⟨fun k hk => ?_, ?_⟩
  · rw [key k (by omega)]; simp [List.getElem_append_left, hk]
  · rw [key n (by omega)]; simp

end Sys2Proof.Machine
end

