-- ==== Sys2Proof/Laws/Bus.lean ====
section
/-! SUPPORT. What the framer's micro-operations do, said once (R130 to R139): each either makes all its transactions and
records the events the rules write out, or ends at the first failed write, having made exactly the transactions up to it.
-/

namespace Sys2Proof.Machine

/-- A transaction records its events, with the transport's answer in them (R133). -/
theorem transaction_eq (bs : List Byte) (s : State) :
    transaction bs s = (replyOf s.nextBusResult, s.replay (transactionEvents s.cfg.toParams bs s.nextBusResult)) := by
  have h : (s.setPin .cs s.cfg.pCsActive).nextBusResult = s.nextBusResult := by simp [State.nextBusResult]
  simp only [transaction, State.busWrite_fst, h, State.busWrite_eq_replay, Prod.mk.injEq, true_and]
  rw [State.setPin_eq_replay (State.replay _ _), State.setPin_eq_replay s]
  simp only [transactionEvents, State.replay_append, pinEvents, State.replay_cfg]

/-- `SendCommand` as a replay (R130). -/
theorem sendCommand_eq (op : Byte) (s : State) :
    sendCommand op s = (replyOf s.nextBusResult, s.replay (commandEvents s.cfg.toParams op s.nextBusResult)) := by
  have h : (s.setPin .dc s.cfg.pDcCmd).nextBusResult = s.nextBusResult := by simp [State.nextBusResult]
  simp only [sendCommand, transaction_eq, h, Prod.mk.injEq, true_and]
  rw [State.setPin_eq_replay (State.replay _ _), State.setPin_eq_replay s]
  simp only [commandEvents, State.replay_append, pinEvents, State.replay_cfg]

theorem dataEvents_of_ne_nil (p : Params) {bs : List Byte} (h : bs ≠ []) (r : BusResult) :
    dataEvents p bs r = [.pin .dc p.dcData] ++ transactionEvents p bs r := by
  obtain ⟨b, rest, rfl⟩ := List.exists_cons_of_ne_nil h
  rfl

/-- `SendData` of a list that is not empty, as a replay (R131). -/
theorem sendData_eq {bs : List Byte} (hbs : bs ≠ []) (s : State) :
    sendData bs s = (replyOf s.nextBusResult, s.replay (dataEvents s.cfg.toParams bs s.nextBusResult)) := by
  rw [dataEvents_of_ne_nil _ hbs]
  obtain ⟨b, rest, rfl⟩ := List.exists_cons_of_ne_nil hbs
  have h : (s.setPin .dc s.cfg.dcData).nextBusResult = s.nextBusResult := by simp [State.nextBusResult]
  simp only [sendData, transaction_eq, h, Prod.mk.injEq, true_and]
  rw [State.setPin_eq_replay s]
  simp only [State.replay_append, pinEvents, State.replay_cfg]

/-- `ResetPulse` as a replay (R137). -/
theorem resetPulse_eq (s : State) : resetPulse s = s.replay (pulseEvents s.cfg.toParams) := by
  unfold resetPulse
  rw [State.delay_eq_replay, State.setPin_eq_replay, State.delay_eq_replay, State.setPin_eq_replay]
  simp only [pulseEvents, State.replay_append, pinEvents]

/-- What holds of the events of bus micro-operations that made the transactions `pl`: no sample, no delay, no set of the
reset line, none of chip-select where it is not driven (R59), and from idle lines a framed trace that leaves the lines idle. -/
structure BusEvents (p : Params) (pl : List (List Byte)) (evs : List Event) : Prop where
  payloads : payloadsOf evs = pl
  samples : samples evs = 0
  delays : delayTotal evs = 0
  noReset : ∀ l, .pin .rst l ∉ evs
  noSelect : p.pCsPresent = false → ∀ l, .pin .cs l ∉ evs
  lines : ∀ ls : Lines, ls.dc = p.dcData → ls.cs = p.csIdle → evs.foldl Lines.after ls = ls
  framed : ∀ ls : Lines, ls.dc = p.dcData → ls.cs = p.csIdle → framedTrace p ls evs = true

theorem BusEvents.nil (p : Params) : BusEvents p [] [] :=
  ⟨rfl, rfl, rfl, by simp, by simp, fun _ _ _ => rfl, fun _ _ _ => rfl⟩

theorem BusEvents.append {p : Params} {pl ql : List (List Byte)} {a b : List Event} (ha : BusEvents p pl a)
    (hb : BusEvents p ql b) : BusEvents p (pl ++ ql) (a ++ b) where
  payloads := by simp [ha.payloads, hb.payloads]
  samples := by simp [ha.samples, hb.samples]
  delays := by simp [ha.delays, hb.delays]
  noReset l := by simp [ha.noReset l, hb.noReset l]
  noSelect h l := by simp [ha.noSelect h l, hb.noSelect h l]
  lines ls h₁ h₂ := by rw [List.foldl_append, ha.lines ls h₁ h₂, hb.lines ls h₁ h₂]
  framed ls h₁ h₂ := framedTrace_append (ha.framed ls h₁ h₂) (by rw [ha.lines ls h₁ h₂]; exact hb.framed ls h₁ h₂)

theorem BusEvents.transactions {p : Params} {pl : List (List Byte)} {evs : List Event} (h : BusEvents p pl evs) :
    transactions evs = pl.length := by
  rw [transactions_eq_length, h.payloads]

/-- The events of one command transaction (R130). -/
theorem BusEvents.command (p : Params) (op : Byte) (r : BusResult) : BusEvents p [[op]] (commandEvents p op r) where
  payloads := by
    unfold commandEvents transactionEvents csEvents
    split <;> simp [Event.isWrite, Event.bytes]
  samples := by
    unfold commandEvents transactionEvents csEvents
    split <;> simp [Event.isSample]
  delays := by
    unfold commandEvents transactionEvents csEvents
    split <;> simp [Event.millis]
  noReset l := by
    unfold commandEvents transactionEvents csEvents
    split <;> simp
  noSelect h l := by
    unfold commandEvents transactionEvents csEvents
    simp [h]
  lines ls h₁ h₂ := by
    unfold commandEvents transactionEvents csEvents
    split <;> simp [Lines.after, Lines.set, ← h₁, ← h₂]
  framed ls h₁ h₂ := by
    unfold commandEvents transactionEvents csEvents
    split <;> simp_all [framedTrace, Event.framed, Lines.after, Lines.set, closesNext]

/-- The events of one data transaction (R131). -/
theorem BusEvents.data (p : Params) {bs : List Byte} (hbs : bs ≠ []) (r : BusResult) :
    BusEvents p [bs] (dataEvents p bs r) := by
  rw [dataEvents_of_ne_nil _ hbs]
  constructor
  · unfold transactionEvents csEvents
    split <;> simp [Event.isWrite, Event.bytes]
  · unfold transactionEvents csEvents
    split <;> simp [Event.isSample]
  · unfold transactionEvents csEvents
    split <;> simp [Event.millis]
  · intro l
    unfold transactionEvents csEvents
    split <;> simp
  · intro h l
    unfold transactionEvents csEvents
    simp [h]
  · intro ls h₁ h₂
    unfold transactionEvents csEvents
    split <;> simp [Lines.after, Lines.set, ← h₁, ← h₂]
  · intro ls h₁ h₂
    unfold transactionEvents csEvents
    split <;> simp_all [framedTrace, Event.framed, Lines.after, Lines.set, closesNext]

/-- No write among the events failed. -/
def NoneFailed (evs : List Event) : Prop := ∀ e ∈ evs, e.isFailedWrite = false

theorem NoneFailed.append {a b : List Event} (ha : NoneFailed a) (hb : NoneFailed b) : NoneFailed (a ++ b) := by
  intro e he
  rcases List.mem_append.1 he with h | h
  · exact ha e h
  · exact hb e h

/-- How a bus micro-operation with planned transactions `pl` and success events `okEvs` ends (R134, R136). -/
structure BusSpec (pl : List (List Byte)) (okEvs : List Event) (s : State) (m : Micro) : Prop where
  events : BusEvents s.cfg.toParams pl okEvs
  noneFailed : NoneFailed okEvs
  ends :
    (m = (.ok, s.replay okEvs) ∧ ∀ k, k < pl.length → s.busResultAt k = .ok) ∨
    (∃ n evs, n < pl.length ∧ m = (.err .busTransportError, s.replay evs) ∧ (∀ k, k < n → s.busResultAt k = .ok) ∧
      s.busResultAt n = .err ∧ BusEvents s.cfg.toParams (pl.take (n + 1)) evs ∧ noRetry evs = true ∧
      FailsAt n okEvs evs)

/-- Nothing to send. -/
theorem BusSpec.nil (s : State) : BusSpec [] [] s (.ok, s) :=
  ⟨BusEvents.nil _, by simp [NoneFailed], .inl ⟨rfl, by simp⟩⟩

/-- One bus micro-operation after another. -/
theorem BusSpec.andThen {pl ql : List (List Byte)} {a b : List Event} {s : State} {m : Micro} {k : State → Micro}
    (h : BusSpec pl a s m) (hk : ∀ t, t.cfg = s.cfg → t.fb = s.fb → BusSpec ql b t (k t)) :
    BusSpec (pl ++ ql) (a ++ b) s (m.andThen k) := by
  have hb := hk (s.replay a) (by simp) (by simp)
  refine ⟨h.events.append (by simpa using hb.events), h.noneFailed.append hb.noneFailed, ?_⟩
  rcases h.ends with ⟨rfl, hok⟩ | ⟨n, evs, hn, rfl, h₁, h₂, h₃, h₄, h₅⟩
  · have hat : ∀ j, (s.replay a).busResultAt j = s.busResultAt (pl.length + j) := fun j => by
      rw [State.busResultAt_replay h.events.samples, h.events.transactions]
    rcases hb.ends with ⟨hm, hok'⟩ | ⟨n, evs, hn, hm, h₁, h₂, h₃, h₄, h₅⟩
    · refine .inl ⟨by simp [Micro.andThen, hm, State.replay_append], fun j hj => ?_⟩
      by_cases hlt : j < pl.length
      · exact hok j hlt
      · have := hok' (j - pl.length) (by simp at hj; omega)
        rwa [hat, Nat.add_sub_cancel' (by omega)] at this
    · refine .inr ⟨pl.length + n, a ++ evs, by simp; omega, by simp [Micro.andThen, hm, State.replay_append], ?_, ?_, ?_,
        noRetry_append h.noneFailed h₄, ?_, ?_⟩
      · intro j hj
        by_cases hlt : j < pl.length
        · exact hok j hlt
        · have := h₁ (j - pl.length) (by omega)
          rwa [hat, Nat.add_sub_cancel' (by omega)] at this
      · rwa [hat] at h₂
      · have : (pl ++ ql).take (pl.length + n + 1) = pl ++ ql.take (n + 1) := by
          rw [List.take_append, List.take_of_length_le (by omega)]; congr 2; omega
        rw [this]
        exact h.events.append (by simpa using h₃)
      · rw [List.map_append, map_answeredOk_of_all h.noneFailed]
        exact List.prefix_append_right_inj .. |>.2 h₅.same
      · rw [answersOf_append, answersOf_of_all h.noneFailed, h₅.answers, h.events.transactions, ← List.append_assoc,
          List.replicate_append_replicate]
  · refine .inr ⟨n, evs, by simp; omega, rfl, h₁, h₂, ?_, h₄, h₅.same.trans (List.prefix_append ..), h₅.answers⟩
    rwa [List.take_append_of_le_length (by omega)]

/-- One transaction whose events are `f` of the transport's answer. -/
theorem BusSpec.single {bs : List Byte} {f : BusResult → List Event} {s : State} {m : Micro}
    (hm : m = (replyOf s.nextBusResult, s.replay (f s.nextBusResult)))
    (hev : ∀ r, BusEvents s.cfg.toParams [bs] (f r)) (hok : NoneFailed (f .ok)) (herr : noRetry (f .err) = true)
    (hfail : FailsAt 0 (f .ok) (f .err)) :
    BusSpec [bs] (f .ok) s m := by
  refine ⟨hev .ok, hok, ?_⟩
  cases hr : s.nextBusResult with
  | ok =>
    refine .inl ⟨by rw [hm, hr]; rfl, fun k hk => ?_⟩
    obtain rfl : k = 0 := by simpa using hk
    exact hr
  | err => exact .inr ⟨0, f .err, by simp, by rw [hm, hr]; rfl, by simp, hr, by simpa using hev .err, by simpa using herr,
      hfail⟩

/-- `SendCommand` (R130, R133, R134). -/
theorem sendCommand_spec (op : Byte) (s : State) :
    BusSpec [[op]] (commandEvents s.cfg.toParams op .ok) s (sendCommand op s) := by
  refine BusSpec.single (sendCommand_eq op s) (BusEvents.command _ op) ?_ ?_ ⟨?_, ?_⟩
  · unfold NoneFailed commandEvents transactionEvents csEvents
    split <;> simp [Event.isFailedWrite]
  · unfold commandEvents transactionEvents csEvents
    split <;> simp [noRetry, Event.isFailedWrite, Event.isPin]
  · unfold commandEvents transactionEvents csEvents
    split <;> simp [Event.answeredOk]
  · unfold commandEvents transactionEvents csEvents
    split <;> rfl

/-- The payloads of one `SendData`: none for an empty list (R132). -/
def dataPayloads (bs : List Byte) : List (List Byte) := if bs = [] then [] else [bs]

/-- `SendData` (R131, R132, R133, R134). -/
theorem sendData_spec (bs : List Byte) (s : State) :
    BusSpec (dataPayloads bs) (dataEvents s.cfg.toParams bs .ok) s (sendData bs s) := by
  by_cases hbs : bs = []
  · subst hbs; exact BusSpec.nil s
  · rw [dataPayloads, if_neg hbs]
    refine BusSpec.single (sendData_eq hbs s) (BusEvents.data _ hbs) ?_ ?_ ⟨?_, ?_⟩
    · rw [dataEvents_of_ne_nil _ hbs]
      unfold NoneFailed transactionEvents csEvents
      split <;> simp [Event.isFailedWrite]
    · rw [dataEvents_of_ne_nil _ hbs]
      unfold transactionEvents csEvents
      split <;> simp [noRetry, Event.isFailedWrite, Event.isPin]
    · rw [dataEvents_of_ne_nil _ hbs, dataEvents_of_ne_nil _ hbs]
      unfold transactionEvents csEvents
      split <;> simp [Event.answeredOk]
    · rw [dataEvents_of_ne_nil _ hbs]
      unfold transactionEvents csEvents
      split <;> rfl

/-- `Issue` (R135). -/
theorem issue_spec (c : Command) (s : State) :
    BusSpec (commandPayloads c) (issueEvents s.cfg.toParams c) s (issue c s) := by
  have h := (sendCommand_spec c.opcode s).andThen (k := sendData c.payload) (ql := dataPayloads c.payload)
    (b := dataEvents s.cfg.toParams c.payload .ok) fun t ht _ => by rw [← ht]; exact sendData_spec c.payload t
  exact h

/-- `IssueList` (R136). -/
theorem issueList_spec (l : List Command) (s : State) :
    BusSpec (listPayloads l) (issueListEvents s.cfg.toParams l) s (issueList l s) := by
  induction l generalizing s with
  | nil => exact BusSpec.nil s
  | cons c rest ih =>
    have h := (issue_spec c s).andThen (k := issueList rest) (ql := listPayloads rest)
      (b := issueListEvents s.cfg.toParams rest) fun t ht _ => by rw [← ht]; exact ih t
    exact h

/-- The pieces of a byte list, none of them empty. -/
theorem chunksOf_ne_nil {n : Nat} (hn : 1 ≤ n) (fuel : Nat) (bs : List Byte) : ∀ c ∈ chunksOf n fuel bs, c ≠ [] := by
  induction fuel generalizing bs with
  | zero => simp [chunksOf]
  | succ fuel ih =>
    cases bs with
    | nil => simp [chunksOf]
    | cons b rest =>
      simp only [chunksOf, List.mem_cons, forall_eq_or_imp]
      exact ⟨by simp; omega, ih _⟩

/-- The pieces joined are the list (R138). -/
theorem chunksOf_flatten {n : Nat} (hn : 1 ≤ n) (fuel : Nat) (bs : List Byte) (hf : bs.length ≤ fuel) :
    (chunksOf n fuel bs).flatten = bs := by
  induction fuel generalizing bs with
  | zero => simp at hf; subst hf; rfl
  | succ fuel ih =>
    cases bs with
    | nil => rfl
    | cons b rest =>
      simp only [chunksOf, List.flatten_cons]
      rw [ih _ (by simp at hf ⊢; omega), List.take_append_drop]

/-- The number of pieces is the length over the piece size, rounded up (R138). -/
theorem chunksOf_length {n : Nat} (hn : 1 ≤ n) (fuel : Nat) (bs : List Byte) (hf : bs.length ≤ fuel) :
    (chunksOf n fuel bs).length = (bs.length + n - 1) / n := by
  induction fuel generalizing bs with
  | zero =>
    simp at hf; subst hf
    simp only [chunksOf, List.length_nil]
    rw [Nat.div_eq_of_lt (by omega)]
  | succ fuel ih =>
    cases bs with
    | nil => simp only [chunksOf, List.length_nil]; rw [Nat.div_eq_of_lt (by omega)]
    | cons b rest =>
      simp only [chunksOf, List.length_cons]
      rw [ih _ (by simp at hf ⊢; omega)]
      simp only [List.length_drop, List.length_cons]
      by_cases h : n ≤ rest.length + 1
      · rw [show rest.length + 1 + n - 1 = (rest.length + 1 - n + n - 1) + n by omega, Nat.add_div_right _ (by omega)]
      · rw [show rest.length + 1 - n = 0 by omega, Nat.div_eq_of_lt (by omega),
          show rest.length + 1 + n - 1 = rest.length + n by omega, Nat.add_div_right _ (by omega),
          Nat.div_eq_of_lt (by omega)]

theorem frameBytes_length (fb : Memory) (a n : Nat) : (frameBytes fb a n).length = n := by simp [frameBytes]

theorem frameBytes_take (fb : Memory) (a n m : Nat) : (frameBytes fb a n).take m = frameBytes fb a (min m n) := by
  unfold frameBytes
  rw [← List.map_take]
  congr 1
  apply List.ext_getElem <;> simp

theorem frameBytes_drop (fb : Memory) (a n m : Nat) : (frameBytes fb a n).drop m = frameBytes fb (a + m) (n - m) := by
  unfold frameBytes
  rw [← List.map_drop]
  congr 1
  apply List.ext_getElem <;> simp [Nat.add_assoc]

/-- The data transactions of `SendFrame` are the pieces of the frame's bytes (R138). -/
theorem sendChunks_spec (fuel a left : Nat) (hf : left ≤ fuel) (s : State) (hc : 1 ≤ s.cfg.pChunk) :
    BusSpec (chunksOf s.cfg.pChunk fuel (frameBytes s.fb a left))
      ((chunksOf s.cfg.pChunk fuel (frameBytes s.fb a left)).flatMap (fun bs => dataEvents s.cfg.toParams bs .ok)) s
      (sendChunks fuel a left s) := by
  induction fuel generalizing a left s with
  | zero => exact BusSpec.nil s
  | succ fuel ih =>
    by_cases h0 : left = 0
    · subst h0
      simp only [sendChunks, if_true]
      exact BusSpec.nil s
    · obtain ⟨b, rest, hbs⟩ : ∃ b rest, frameBytes s.fb a left = b :: rest :=
        List.exists_cons_of_ne_nil fun h => h0 (by rw [← frameBytes_length s.fb a left, h]; rfl)
      simp only [sendChunks, if_neg h0]
      rw [hbs]
      simp only [chunksOf, List.flatMap_cons]
      rw [← hbs, frameBytes_take, frameBytes_drop]
      have hne : frameBytes s.fb a (min s.cfg.pChunk left) ≠ [] := fun h => by
        have := congrArg List.length h
        rw [frameBytes_length] at this
        simp at this; omega
      have hd := sendData_spec (frameBytes s.fb a (min s.cfg.pChunk left)) s
      rw [dataPayloads, if_neg hne] at hd
      have hmin : left - s.cfg.pChunk = left - min s.cfg.pChunk left := by omega
      have hrest : frameBytes s.fb (a + s.cfg.pChunk) (left - s.cfg.pChunk) =
          frameBytes s.fb (a + min s.cfg.pChunk left) (left - min s.cfg.pChunk left) := by
        by_cases hl : left ≤ s.cfg.pChunk
        · rw [show left - s.cfg.pChunk = 0 by omega, show left - min s.cfg.pChunk left = 0 by omega]; rfl
        · rw [Nat.min_eq_left (by omega)]
      rw [hrest]
      exact hd.andThen fun t ht hfb => by
        rw [← ht, ← hfb]
        exact ih _ _ (by rw [ht]; omega) t (by rw [ht]; exact hc)

/-- `SendFrame` (R138). -/
theorem sendFrame_spec (y0 y1 : Nat) (s : State) :
    BusSpec ([s.cfg.pp.opWriteRam] :: frameChunks s.cfg.toParams s.fb y0 y1) (frameEvents s.cfg.toParams s.fb y0 y1) s
      (sendFrame y0 y1 s) := by
  have hlen : (rowsBytes s.cfg.toParams s.fb y0 y1).length = y1 * s.cfg.rowBytes - y0 * s.cfg.rowBytes :=
    frameBytes_length ..
  unfold frameChunks frameEvents frameChunks
  rw [hlen]
  have h := (sendCommand_spec s.cfg.pp.opWriteRam s).andThen
    (k := sendChunks (y1 * s.cfg.rowBytes - y0 * s.cfg.rowBytes) (y0 * s.cfg.rowBytes)
      (y1 * s.cfg.rowBytes - y0 * s.cfg.rowBytes)) fun t ht hfb => by
    have := sendChunks_spec (y1 * s.cfg.rowBytes - y0 * s.cfg.rowBytes) (y0 * s.cfg.rowBytes)
      (y1 * s.cfg.rowBytes - y0 * s.cfg.rowBytes) le_rfl t (by
        have hl := t.cfg.isLegal
        simp only [Params.legal, Bool.and_eq_true, decide_eq_true_eq] at hl
        exact hl.1.1.2)
    rw [ht, hfb] at this
    exact this
  exact h

end Sys2Proof.Machine
end

