-- ==== Sys2Proof/Laws/PerInstr.lean ====
section
/-! SUPPORT. One lemma per instruction about its command word: the `OP` field of the opcode map (R70, R77). -/

namespace Sys2Proof.Laws.OpcodeField

/-- The opcode map (R77). -/
def opcodeOf : Instr → BitVec 4
  | .fbnew => 0x1#4
  | .setrot _ => 0x2#4
  | .clear _ => 0x3#4
  | .pset _ _ _ => 0x4#4
  | .pget _ _ => 0x5#4
  | .init => 0x6#4
  | .full => 0x7#4
  | .partialRefresh _ _ => 0x8#4
  | .sleep => 0x9#4
  | .wake => 0xA#4

/-- The encoder puts the map's opcode in `cw[31:28]`. -/
def Statement (i : Instr) : Prop := fieldOp (encode i) = opcodeOf i

/-- `cw[31:28]` of a word of formats P and R (R71). -/
theorem fieldOp_encodeP (op : BitVec 4) (c : BitVec 1) (hi lo : Nat) : fieldOp (encodeP op c hi lo) = op := by
  unfold fieldOp encodeP
  ext k hk
  simp only [BitVec.getElem_extractLsb', BitVec.getLsbD_append]
  simp [show ¬ (28 + k < 13) by omega, show ¬ (28 + k - 13 < 13) by omega,
    show ¬ (28 + k - 13 - 13 < 1) by omega, show ¬ (28 + k - 13 - 13 - 1 < 1) by omega,
    show 28 + k - 13 - 13 - 1 - 1 = k by omega, BitVec.getLsbD_eq_getElem hk]

theorem fbnew : Statement .fbnew := rfl

theorem setrot (r : Rotation) : Statement (.setrot r) := by cases r <;> rfl

theorem clear (c : Color) : Statement (.clear c) := by cases c <;> rfl

theorem pset (c : Color) (x y : Nat) : Statement (.pset c x y) := fieldOp_encodeP ..

theorem pget (x y : Nat) : Statement (.pget x y) := fieldOp_encodeP ..

theorem init : Statement .init := rfl

theorem full : Statement .full := rfl

theorem partialRefresh (ys ye : Nat) : Statement (.partialRefresh ys ye) := fieldOp_encodeP ..

theorem sleep : Statement .sleep := rfl

theorem wake : Statement .wake := rfl

end Sys2Proof.Laws.OpcodeField
end

