-- ==== Sys2Proof/Laws/Encoding.lean ====
section
/-! SUPPORT. A command word and its fields (R70 to R75): a word is its fields joined, the fields of formats P and R are what
the encoder put there, and the codes of colours and rotations are read back. -/

namespace Sys2Proof

/-- A word is `OP` and the rest (R71, format N). -/
theorem word_eq_formatN (w : Word) : w = fieldOp w ++ w.extractLsb' 0 28 := by
  apply BitVec.eq_of_getLsbD_eq
  intro i hi
  simp only [fieldOp, BitVec.getLsbD_append, BitVec.getLsbD_extractLsb']
  split
  · simp [*]
  · rw [show 28 + (i - 28) = i by omega]; simp; omega

/-- A word is the five fields of formats P and R joined (R71). -/
theorem word_eq_formatP (w : Word) :
    w = fieldOp w ++ fieldColor w ++ w.extractLsb' 26 1 ++ w.extractLsb' 13 13 ++ w.extractLsb' 0 13 := by
  apply BitVec.eq_of_getLsbD_eq
  intro i hi
  simp only [fieldOp, fieldColor, BitVec.getLsbD_append, BitVec.getLsbD_extractLsb']
  split
  · simp [*]
  split
  · simp [*]; congr 1; omega
  split
  · simp [*]; congr 1; omega
  split
  · simp [*]; congr 1; omega
  · rw [show 28 + (i - 13 - 13 - 1 - 1) = i by omega]; simp; omega

/-- The fields of a word of formats P and R (R71). -/
theorem encodeP_fields (op : BitVec 4) (c : BitVec 1) (hi lo : Nat) :
    fieldOp (encodeP op c hi lo) = op ∧ fieldColor (encodeP op c hi lo) = c ∧
    (encodeP op c hi lo).extractLsb' 26 1 = 0#1 ∧ (encodeP op c hi lo).extractLsb' 26 2 = c ++ 0#1 ∧
    (encodeP op c hi lo).extractLsb' 13 13 = BitVec.ofNat 13 hi ∧
    (encodeP op c hi lo).extractLsb' 0 13 = BitVec.ofNat 13 lo := by
  refine ⟨Laws.OpcodeField.fieldOp_encodeP .., ?_⟩
  unfold encodeP fieldColor
  refine ⟨?_, ?_, ?_, ?_, ?_⟩ <;> apply BitVec.eq_of_getLsbD_eq <;> intro i hi' <;>
    simp only [BitVec.getLsbD_append, BitVec.getLsbD_extractLsb']
  · obtain rfl : i = 0 := by omega
    simp
  · obtain rfl : i = 0 := by omega
    simp
  · rcases (by omega : i = 0 ∨ i = 1) with rfl | rfl <;> simp
  · simp [hi', show ¬ (13 + i < 13) by omega]
  · simp [hi']

/-- A 13-bit field holds a coordinate that fits it (R74, R75). -/
theorem toNat_ofNat_of_fits13 {n : Nat} (h : fits13 n = true) : (BitVec.ofNat 13 n).toNat = n := by
  simp only [decide_eq_true_eq] at h
  rw [BitVec.toNat_ofNat]
  exact Nat.mod_eq_of_lt h

/-- A colour's code is read back (R73). -/
@[simp] theorem Color.ofCode_code (c : Color) : Color.ofCode c.code = c := by cases c <;> rfl

/-- A colour code is written back (R73). -/
@[simp] theorem Color.code_ofCode (b : BitVec 1) : (Color.ofCode b).code = b := by revert b; decide

/-- A rotation's code is read back (R72). -/
@[simp] theorem Rotation.ofCode_code (r : Rotation) : Rotation.ofCode r.code = r := by cases r <;> rfl

/-- A rotation code is written back (R72). -/
@[simp] theorem Rotation.code_ofCode (b : BitVec 2) : (Rotation.ofCode b).code = b := by revert b; decide

end Sys2Proof
end

