-- ==== Sys2Proof/Laws/Operands.lean ====
section
/-! SUPPORT. What a legal geometry gives the operand computations (R9, R48, R118): the derived constants, and that an
in-bounds pixel lies inside the framebuffer. -/

namespace Sys2Proof

/-- The legal ranges of a configuration, as propositions (R9, R11, R12, R13). -/
theorem Config.legal_facts (c : Config) :
    8 ≤ c.pW ∧ c.pW ≤ 8184 ∧ c.pW % 8 = 0 ∧ 1 ≤ c.pH ∧ c.pH ≤ 8191 ∧ 1 ≤ c.pPoll ∧ 1 ≤ c.pChunk
      ∧ c.pp.fullTrigger ≠ [] ∧ c.pp.partialTrigger ≠ [] := by
  have h := c.isLegal
  simp only [Params.legal, Bool.and_eq_true, decide_eq_true_eq, Bool.not_eq_true', List.isEmpty_eq_false_iff] at h
  tauto

/-- `P_W = 8 * ROW_BYTES` (R9). -/
theorem Config.pW_eq (c : Config) : c.pW = 8 * c.rowBytes := by
  have h := c.legal_facts
  unfold Params.rowBytes
  omega

/-- `FB_BYTES = P_H * ROW_BYTES` (R9). -/
theorem Config.fbBytes_eq (c : Config) : c.fbBytes = c.pH * c.rowBytes := by
  have h := c.pW_eq
  unfold Params.fbBytes
  rw [h, Nat.mul_assoc, Nat.mul_div_cancel_left _ (by decide), Nat.mul_comm]

namespace Machine

/-- `InBounds` as a proposition (R108). -/
theorem inBounds_iff (p : Params) (r : Rotation) (x y : Nat) :
    inBounds p r x y = true ↔ x < logicalWidth p r ∧ y < logicalHeight p r := by
  simp [inBounds]

/-- An in-bounds logical pixel is a native pixel of the panel (R102, R118). -/
theorem toNative_lt {c : Config} {r : Rotation} {x y : Nat} (h : inBounds c.toParams r x y = true) :
    (toNative c.toParams r x y).1 < c.pW ∧ (toNative c.toParams r x y).2 < c.pH := by
  simp only [inBounds, Bool.and_eq_true, decide_eq_true_eq] at h
  cases r <;> simp only [toNative, logicalWidth, logicalHeight] at * <;> omega

/-- The byte of a native pixel lies in its row, inside the framebuffer (R48, R50, R118). -/
theorem byteIndex_lt {c : Config} {x y : Nat} (hx : x < c.pW) (hy : y < c.pH) :
    byteIndex c.toParams x y < c.fbBytes := by
  have hw := c.pW_eq
  rw [c.fbBytes_eq]
  have h8 : x / 8 < c.rowBytes := by omega
  calc byteIndex c.toParams x y < y * c.rowBytes + c.rowBytes := by unfold byteIndex; omega
    _ = (y + 1) * c.rowBytes := by ring
    _ ≤ c.pH * c.rowBytes := Nat.mul_le_mul_right _ hy

/-- A bit of a byte reads as it was set (R110). -/
theorem bitColor_setBitColor_same (v : Byte) {k : Nat} (hk : k < 8) (c : Color) :
    bitColor (setBitColor v k c) k = c := by
  cases c <;> simp [bitColor, setBitColor, hk]

/-- Setting a bit leaves the other bits of the byte as they were (R112). -/
theorem getLsbD_setBitColor_other (v : Byte) {j k : Nat} (h : j ≠ k) (c : Color) :
    (setBitColor v k c).getLsbD j = v.getLsbD j := by
  by_cases hj : j < 8
  · have : ¬ (j - k = 0 ∧ k ≤ j) := by omega
    cases c <;> simp [setBitColor, hj] <;> omega
  · rw [BitVec.getLsbD_of_ge _ _ (by omega), BitVec.getLsbD_of_ge _ _ (by omega)]

end Machine

end Sys2Proof
end

