-- ==== Sys2Proof/Laws/Gate.lean ====
section
/-! SUPPORT. What the busy gate does, said once (R141, R143): it ends at the first "not busy" sample, or times out after
`K + 1` of them. -/

namespace Sys2Proof.Machine

/-- The busy level `k` draws ahead, when no bus write comes between. -/
def State.busyLevelAt (s : State) (k : Nat) : Level :=
  match s.busyAnswers.drop k with
  | [] => Config.freeBusyLevel (s.draws + k)
  | l :: _ => l

theorem State.nextBusyLevel_eq (s : State) : s.nextBusyLevel = s.busyLevelAt 0 := rfl

theorem State.busyLevelAt_replay {s : State} {evs : List Event} (h : transactions evs = 0) (k : Nat) :
    (s.replay evs).busyLevelAt k = s.busyLevelAt (samples evs + k) := by
  simp [State.busyLevelAt, h, List.drop_drop, Nat.add_assoc]

/-- The busy levels that are named are not moved by a bus write. -/
theorem State.busyLevelAt_named {s t : State} (h : t.busyAnswers = s.busyAnswers) {k : Nat}
    (hk : k < s.busyAnswers.length) : t.busyLevelAt k = s.busyLevelAt k := by
  unfold State.busyLevelAt
  rw [h, List.drop_eq_getElem_cons hk]

theorem BusyFor.at {n : Nat} {s : State} (h : BusyFor n s) {k : Nat} (hk : k < n) :
    k < s.busyAnswers.length ∧ s.busyLevelAt k = s.cfg.pBusyActive := by
  have hlen : n ≤ s.busyAnswers.length := by
    have := congrArg List.length h; simp at this; omega
  refine ⟨by omega, ?_⟩
  have h1 : (s.busyAnswers.take n)[k]? = some s.cfg.pBusyActive := by rw [h]; simp [hk]
  rw [List.getElem?_take_of_lt hk, List.getElem?_eq_getElem (by omega)] at h1
  unfold State.busyLevelAt
  rw [List.drop_eq_getElem_cons (by omega), Option.some.inj h1]

theorem IdleAfter.at {n : Nat} {s : State} (h : IdleAfter n s) :
    (∀ k, k < n → s.busyLevelAt k = s.cfg.pBusyActive) ∧ s.busyLevelAt n = !s.cfg.pBusyActive ∧
      n < s.busyAnswers.length := by
  have hlen : n + 1 ≤ s.busyAnswers.length := by
    have := congrArg List.length h; simp at this; omega
  have key : ∀ k (hk : k < n + 1),
      s.busyLevelAt k = (List.replicate n s.cfg.pBusyActive ++ [!s.cfg.pBusyActive])[k]'(by simp; omega) := by
    intro k hk
    have h1 : (s.busyAnswers.take (n + 1))[k]? = (List.replicate n s.cfg.pBusyActive ++ [!s.cfg.pBusyActive])[k]? := by
      rw [h]
    rw [List.getElem?_take_of_lt hk, List.getElem?_eq_getElem (by omega), List.getElem?_eq_getElem (by simp; omega)] at h1
    unfold State.busyLevelAt
    rw [List.drop_eq_getElem_cons (by omega), Option.some.inj h1]
  refine ⟨fun k hk => ?_, ?_, by omega⟩
  · rw [key k (by omega)]; simp [List.getElem_append_left, hk]
  · rw [key n (by omega)]; simp

/-- One more poll before the rest (R143). -/
theorem pollBound_step {p : Params} (hp : 1 ≤ p.pPoll) {x : Nat} (hx : 0 < x) :
    pollBound p x = pollBound p (x - p.pPoll) + 1 := by
  unfold pollBound
  have h1 : x + p.pPoll - 1 = (x - 1) + p.pPoll := by omega
  rw [h1, Nat.add_div_right _ (by omega)]
  by_cases h : p.pPoll ≤ x
  · rw [show x - p.pPoll + p.pPoll - 1 = x - 1 by omega]
  · rw [Nat.div_eq_of_lt (by omega : x - 1 < p.pPoll), Nat.div_eq_of_lt (by omega)]

@[simp] theorem pollBound_zero {p : Params} (hp : 1 ≤ p.pPoll) : pollBound p 0 = 0 := by
  unfold pollBound
  exact Nat.div_eq_of_lt (by omega)

theorem pollEvents_succ (p : Params) (n : Nat) :
    pollEvents p (n + 1) = [.busy p.pBusyActive, .delay p.pPoll] ++ pollEvents p n := by
  simp [pollEvents, List.replicate_succ]

@[simp] theorem transactions_pollEvents (p : Params) (n : Nat) : transactions (pollEvents p n) = 0 := by
  induction n with
  | zero => rfl
  | succ n ih => rw [pollEvents_succ]; simp [ih, Event.isWrite]

@[simp] theorem samples_pollEvents (p : Params) (n : Nat) : samples (pollEvents p n) = n := by
  induction n with
  | zero => rfl
  | succ n ih => rw [pollEvents_succ]; simp [ih, Event.isSample]

@[simp] theorem delayTotal_pollEvents (p : Params) (n : Nat) : delayTotal (pollEvents p n) = n * p.pPoll := by
  induction n with
  | zero => simp [pollEvents]
  | succ n ih => rw [pollEvents_succ]; simp [ih, Event.millis]; ring

@[simp] theorem payloadsOf_pollEvents (p : Params) (n : Nat) : payloadsOf (pollEvents p n) = [] := by
  induction n with
  | zero => rfl
  | succ n ih => rw [pollEvents_succ]; simp [ih, Event.isWrite]

/-- Every event of a polling loop is a busy sample or a delay. -/
theorem mem_pollEvents {p : Params} {n : Nat} {e : Event} (h : e ∈ pollEvents p n) :
    e = .busy p.pBusyActive ∨ e = .delay p.pPoll := by
  induction n with
  | zero => simp [pollEvents] at h
  | succ n ih => rw [pollEvents_succ] at h; simp at h; tauto

/-- How a wait ends (R141, R143): at the first sample that reads not busy, within `K`, or with a timeout after `K + 1`
busy samples. -/
def WaitSpec (k : Nat) (s : State) (m : Micro) : Prop :=
  (∃ j, j ≤ k ∧ (∀ i, i < j → s.busyLevelAt i = s.cfg.pBusyActive) ∧ s.busyLevelAt j = (!s.cfg.pBusyActive) ∧
    m = (.ok, s.replay (pollEvents s.cfg.toParams j ++ [.busy (!s.cfg.pBusyActive)]))) ∨
  ((∀ i, i ≤ k → s.busyLevelAt i = s.cfg.pBusyActive) ∧
    m = (.err .timeout, s.replay (pollEvents s.cfg.toParams k ++ [.busy s.cfg.pBusyActive])))

/-- The polling loop, from any elapsed time (R141). -/
theorem waitLoop_spec (timeout fuel elapsed : Nat) (s : State) (hf : timeout - elapsed < fuel) :
    WaitSpec (pollBound s.cfg.toParams (timeout - elapsed)) s (waitLoop timeout fuel elapsed s) := by
  have hp : 1 ≤ s.cfg.pPoll := s.cfg.legal_facts.2.2.2.2.2.1
  induction fuel generalizing elapsed s with
  | zero => omega
  | succ fuel ih =>
    unfold waitLoop
    dsimp only
    by_cases hb : s.nextBusyLevel = s.cfg.pBusyActive
    · have hbusy : isBusy s.cfg.toParams s.readBusy.1 = true := by simp [isBusy, hb]
      rw [if_pos hbusy]
      by_cases ht : timeout ≤ elapsed
      · rw [if_pos ht, show timeout - elapsed = 0 by omega, pollBound_zero hp]
        refine .inr ⟨fun i hi => ?_, ?_⟩
        · obtain rfl : i = 0 := by omega
          exact hb
        · rw [State.readBusy_eq_replay, hb]; rfl
      · rw [if_neg ht]
        have hstep := pollBound_step hp (x := timeout - elapsed) (by omega)
        have hs : s.readBusy.2.delay s.cfg.pPoll = s.replay [.busy s.cfg.pBusyActive, .delay s.cfg.pPoll] := by
          rw [State.readBusy_eq_replay, hb, State.delay_eq_replay, ← State.replay_append]
          simp [delayEvents, show s.cfg.pPoll ≠ 0 by omega]
        have hcfg : (s.replay [.busy s.cfg.pBusyActive, .delay s.cfg.pPoll]).cfg = s.cfg := by simp
        have hat : ∀ k, (s.replay [.busy s.cfg.pBusyActive, .delay s.cfg.pPoll]).busyLevelAt k = s.busyLevelAt (1 + k) :=
          fun k => State.busyLevelAt_replay rfl k
        have hrec := ih (elapsed + s.cfg.pPoll) (s.readBusy.2.delay s.cfg.pPoll) (by omega) (by simpa using hp)
        rw [hs] at hrec ⊢
        unfold WaitSpec at hrec ⊢
        rw [hcfg, show timeout - (elapsed + s.cfg.pPoll) = timeout - elapsed - s.cfg.pPoll by omega] at hrec
        rw [hstep]
        simp only [hat, ← State.replay_append, ← List.append_assoc] at hrec
        rcases hrec with ⟨j, hj, h₁, h₂, h₃⟩ | ⟨h₁, h₂⟩
        · refine .inl ⟨j + 1, by omega, fun i hi => ?_, by rw [Nat.add_comm]; exact h₂, ?_⟩
          · cases i with
            | zero => exact hb
            | succ i => rw [Nat.add_comm]; exact h₁ i (by omega)
          · rw [h₃, pollEvents_succ]
        · refine .inr ⟨fun i hi => ?_, ?_⟩
          · cases i with
            | zero => exact hb
            | succ i => rw [Nat.add_comm]; exact h₁ i (by omega)
          · rw [h₂, pollEvents_succ]
    · have hbusy : isBusy s.cfg.toParams s.readBusy.1 = false := by simp [isBusy, hb]
      have hl : s.nextBusyLevel = !s.cfg.pBusyActive := by
        revert hb; cases s.nextBusyLevel <;> cases s.cfg.pBusyActive <;> simp
      rw [hbusy]
      refine .inl ⟨0, by omega, by simp, hl, ?_⟩
      rw [State.readBusy_eq_replay, hl]; rfl

/-- `WaitIdle` (R141, R143). -/
theorem waitIdle_spec (timeout : Nat) (s : State) :
    WaitSpec (pollBound s.cfg.toParams timeout) s (waitIdle timeout s) := by
  have h := waitLoop_spec timeout (timeout + 1) 0 s (by omega)
  exact h

end Sys2Proof.Machine
end

