-- ==== Sys2Proof/Laws/Memory.lean ====
section
/-! SUPPORT. The framebuffer's laws: a byte read after a write, and that every memory operation keeps the canonical form
and the bound (log 10). -/

namespace Sys2Proof.Machine

/-- The canonical form as a proposition. -/
theorem Memory.wf_iff (m : Memory) :
    m.wf = true ↔ m.Pairwise (fun a b => a.1 < b.1) ∧ ∀ e ∈ m, e.2 ≠ background := by
  simp [Memory.wf]

theorem Memory.wf_nil : Memory.wf [] = true := rfl

theorem Memory.wf_cons (k : Nat) (u : Byte) (rest : Memory) :
    Memory.wf ((k, u) :: rest) = true ↔
      (∀ e ∈ rest, k < e.1) ∧ u ≠ background ∧ Memory.wf rest = true := by
  simp only [Memory.wf_iff, List.pairwise_cons, List.mem_cons, forall_eq_or_imp]
  tauto

theorem Memory.below_iff (m : Memory) (n : Nat) : m.below n = true ↔ ∀ e ∈ m, e.1 < n := by
  simp [Memory.below]

/-- An address no entry lists reads as the background byte. -/
theorem Memory.read_unlisted {m : Memory} {a : Nat} (h : ∀ e ∈ m, e.1 ≠ a) : m.read a = background := by
  induction m with
  | nil => rfl
  | cons e rest ih =>
    obtain ⟨k, u⟩ := e
    simp only [List.mem_cons, forall_eq_or_imp] at h
    simp [Memory.read, h.1, ih h.2]

/-- A byte reads as it was written. -/
theorem Memory.read_write_same {m : Memory} (h : m.wf = true) (a : Nat) (v : Byte) : (m.write a v).read a = v := by
  induction m with
  | nil => by_cases hv : v = background <;> simp [Memory.write, Memory.read, hv]
  | cons e rest ih =>
    obtain ⟨k, u⟩ := e
    obtain ⟨hk, hu, hrest⟩ := (Memory.wf_cons k u rest).1 h
    have hun : ∀ b, b ≤ k → Memory.read rest b = background := fun b hb =>
      Memory.read_unlisted fun e he => by have := hk e he; omega
    unfold Memory.write
    split
    · next hlt =>
      split
      · next hv => simp [Memory.read, show k ≠ a by omega, hun a (by omega), hv]
      · simp [Memory.read]
    · split
      · next heq =>
        subst heq
        split
        · next hv => rw [hun a le_rfl, hv]
        · simp [Memory.read]
      · next hne => simp [Memory.read, Ne.symm hne, ih hrest]

/-- A write changes only the byte it names (R55). -/
theorem Memory.read_write_other (m : Memory) {a b : Nat} (v : Byte) (h : b ≠ a) :
    (m.write a v).read b = m.read b := by
  induction m with
  | nil => by_cases hv : v = background <;> simp [Memory.write, Memory.read, hv, Ne.symm h]
  | cons e rest ih =>
    obtain ⟨k, u⟩ := e
    unfold Memory.write
    split
    · split
      · rfl
      · simp [Memory.read, Ne.symm h]
    · split
      · next heq =>
        subst heq
        split <;> simp [Memory.read, Ne.symm h]
      · simp [Memory.read, ih]

/-- Every index listed after a write was listed before or is the one written. -/
theorem Memory.mem_write {m : Memory} {a : Nat} {v : Byte} {e : Host.Cell} (h : e ∈ m.write a v) :
    e ∈ m ∨ e = (a, v) ∧ v ≠ background := by
  induction m with
  | nil =>
    unfold Memory.write at h
    split at h
    · simp at h
    · simp_all
  | cons c rest ih =>
    obtain ⟨k, u⟩ := c
    unfold Memory.write at h
    split at h
    · split at h
      · exact .inl h
      · rcases List.mem_cons.1 h with rfl | h
        · exact .inr ⟨rfl, by assumption⟩
        · exact .inl h
    · split at h
      · next heq =>
        subst heq
        split at h
        · exact .inl (List.mem_cons_of_mem _ h)
        · rcases List.mem_cons.1 h with rfl | h
          · exact .inr ⟨rfl, by assumption⟩
          · exact .inl (List.mem_cons_of_mem _ h)
      · rcases List.mem_cons.1 h with rfl | h
        · exact .inl (List.mem_cons_self ..)
        · rcases ih h with h | h
          · exact .inl (List.mem_cons_of_mem _ h)
          · exact .inr h

/-- A write keeps the canonical form. -/
theorem Memory.wf_write {m : Memory} (h : m.wf = true) (a : Nat) (v : Byte) : (m.write a v).wf = true := by
  induction m with
  | nil =>
    unfold Memory.write
    split
    · rfl
    · next hv => simp [Memory.wf_cons, Memory.wf_nil, hv]
  | cons e rest ih =>
    obtain ⟨k, u⟩ := e
    obtain ⟨hk, hu, hrest⟩ := (Memory.wf_cons k u rest).1 h
    unfold Memory.write
    split
    · next hlt =>
      split
      · exact h
      · next hv =>
        refine (Memory.wf_cons ..).2 ⟨?_, hv, h⟩
        simp only [List.mem_cons, forall_eq_or_imp]
        exact ⟨hlt, fun e he => by have := hk e he; omega⟩
    · split
      · next heq =>
        subst heq
        split
        · exact hrest
        · next hv => exact (Memory.wf_cons ..).2 ⟨hk, hv, hrest⟩
      · next hge hne =>
        refine (Memory.wf_cons ..).2 ⟨fun e he => ?_, hu, ih hrest⟩
        rcases Memory.mem_write he with he | ⟨rfl, -⟩
        · exact hk e he
        · show k < a; omega

/-- A write below the bound keeps the bound. -/
theorem Memory.below_write {m : Memory} {n a : Nat} (h : m.below n = true) (ha : a < n) (v : Byte) :
    (m.write a v).below n = true := by
  rw [Memory.below_iff] at *
  intro e he
  rcases Memory.mem_write he with he | ⟨rfl, -⟩
  · exact h e he
  · exact ha

/-- A filled memory reads as the fill below the bound. -/
theorem Memory.read_fill (n : Nat) (v : Byte) {i : Nat} (hi : i < n) : (Memory.fill n v).read i = v := by
  unfold Memory.fill
  split
  · next hv => rw [hv]; rfl
  · have key : ∀ (l : List Nat), i ∈ l → Memory.read (l.map fun i => (i, v)) i = v := by
      intro l hl
      induction l with
      | nil => simp at hl
      | cons k rest ih =>
        by_cases hk : k = i
        · simp [Memory.read, hk]
        · simp [Memory.read, hk, ih (by simpa [Ne.symm hk] using hl)]
    exact key _ (List.mem_range.2 hi)

/-- A fill has the canonical form. -/
theorem Memory.wf_fill (n : Nat) (v : Byte) : (Memory.fill n v).wf = true := by
  unfold Memory.fill
  split
  · rfl
  · next hv =>
    rw [Memory.wf_iff]
    refine ⟨?_, by simpa using fun _ _ => hv⟩
    rw [List.pairwise_map]
    exact List.pairwise_lt_range

/-- A fill lists no index at or above its bound. -/
theorem Memory.below_fill (n : Nat) (v : Byte) : (Memory.fill n v).below n = true := by
  rw [Memory.below_iff]
  unfold Memory.fill
  split
  · simp
  · simp

/-- The loop of `MemWrite` that FBNEW and CLEAR name gives a memory that reads as the fill does (R100, R106). -/
theorem Memory.read_writes_eq_read_fill {m : Memory} (h : m.wf = true) (v : Byte) :
    ∀ n i, i < n → ((List.range n).foldl (fun m i => m.write i v) m).read i = (Memory.fill n v).read i := by
  have wf : ∀ n, ((List.range n).foldl (fun m i => Memory.write m i v) m).wf = true := by
    intro n
    induction n with
    | zero => simpa using h
    | succ n ih => simpa [List.range_succ] using Memory.wf_write ih n v
  intro n i hi
  rw [Memory.read_fill n v hi]
  induction n with
  | zero => omega
  | succ n ih =>
    rw [List.range_succ, List.foldl_append]
    by_cases hin : i = n
    · subst hin; exact Memory.read_write_same (wf i) i v
    · exact (Memory.read_write_other _ v hin).trans (ih (by omega))

end Sys2Proof.Machine
end

