-- ==== Sys2Proof/Laws/Step.lean ====
section
/-! SUPPORT. What `exec` and `step` do, said once: every host operation runs to a next state, and how a step finds its host
input (R27, R205). -/

namespace Sys2Proof.Machine

@[simp] theorem exec_fbnew (s : State) : exec .fbnew s = .next (fbnew s) := rfl

@[simp] theorem exec_setrot (r : Rotation) (s : State) : exec (.setrot r) s = .next (setRotation r s) := rfl

@[simp] theorem exec_clear (c : Color) (s : State) : exec (.clear c) s = .next (clearTo c s) := rfl

@[simp] theorem exec_pset (c : Color) (x y : Nat) (s : State) : exec (.pset c x y) s = .next (pixelSet c x y s) := rfl

@[simp] theorem exec_pget (x y : Nat) (s : State) : exec (.pget x y) s = .next (pixelGet x y s) := rfl

@[simp] theorem exec_init (s : State) : exec .init s = .next (initPanel s) := rfl

@[simp] theorem exec_full (s : State) : exec .full s = .next (fullUpdate s) := rfl

@[simp] theorem exec_partialRefresh (ys ye : Nat) (s : State) :
    exec (.partialRefresh ys ye) s = .next (partialUpdate ys ye s) := rfl

@[simp] theorem exec_sleep (s : State) : exec .sleep s = .next (sleepPanel s) := rfl

@[simp] theorem exec_wake (s : State) : exec .wake s = .next (wakePanel s) := rfl

/-- No host operation traps or is refused: each runs to a next state (R205). -/
theorem exec_runs (i : Instr) (s : State) : ∃ t, exec i s = .next t := by
  cases i <;> exact ⟨_, rfl⟩

/-- A framebuffer operation writes the framebuffer, the rotation, the pixel and the result at most, and where its result is
not `Ok`, the result alone (R111, R116, R119). -/
theorem exec_framebuffer {i : Instr} {s t : State} (h : isRefresh i = false) (he : exec i s = .next t) :
    t = { s with fb := t.fb, rot := t.rot, pix := t.pix, result := t.result } ∧ t.result ∈ possibleCodes i ∧
      (t.result ≠ .ok → t = { s with result := t.result }) := by
  cases i <;> simp [isRefresh] at h <;> cases he
  · exact ⟨rfl, List.mem_singleton.2 rfl, fun h => absurd rfl h⟩
  · exact ⟨rfl, List.mem_singleton.2 rfl, fun h => absurd rfl h⟩
  · exact ⟨rfl, List.mem_singleton.2 rfl, fun h => absurd rfl h⟩
  · unfold pixelSet
    split
    · exact ⟨rfl, by simp [possibleCodes, State.returnOk], fun h => absurd rfl h⟩
    · exact ⟨rfl, by simp [possibleCodes, State.raise], fun _ => rfl⟩
  · unfold pixelGet
    split
    · exact ⟨rfl, by simp [possibleCodes, State.returnOk], fun h => absurd rfl h⟩
    · exact ⟨rfl, by simp [possibleCodes, State.raise], fun _ => rfl⟩

/-- A step with a pending host input serves it. -/
theorem step_serves {s : State} {x : HostInput} {rest : List HostInput} (h : s.port = x :: rest) :
    step s = serve x { s with port := rest } := by
  simp [step, h]

/-- How a sequence of two micro-operations ends: the first one's error is passed on, or the second one runs. -/
theorem Micro.andThen_cases (m : Micro) (k : State → Micro) :
    (∃ e, m.1 = .err e ∧ m.andThen k = (.err e, m.2)) ∨ (m.1 = .ok ∧ m.andThen k = k m.2) := by
  rcases m with ⟨r, t⟩
  cases r with
  | ok => exact .inr ⟨rfl, rfl⟩
  | err e => exact .inl ⟨e, rfl, rfl⟩

/-- How INIT ends, said once (R161, R184). -/
theorem initPanel_cases (s : State) :
    ((wakeSequence s.cfg.pp.initSeq s.cfg.pTmoInit s).1 = .ok ∧
      initPanel s = { (wakeSequence s.cfg.pp.initSeq s.cfg.pTmoInit s).2 with
        fsm := .awake, unk := false, result := .ok }) ∨
    (∃ e, (wakeSequence s.cfg.pp.initSeq s.cfg.pTmoInit s).1 = .err e ∧
      initPanel s = { (wakeSequence s.cfg.pp.initSeq s.cfg.pTmoInit s).2 with
        fsm := .uninit, unk := true, result := e.resultCode .initTimeout }) := by
  unfold initPanel
  dsimp only
  split
  · next h => exact .inl ⟨h, rfl⟩
  · next e h => exact .inr ⟨e, h, rfl⟩

/-- How the sequence of a refresh ends, said once (R166, R172, R184). -/
theorem finishRefresh_cases (m : Micro) :
    (m.1 = .ok ∧ finishRefresh m = { m.2 with result := .ok }) ∨
    (∃ e, m.1 = .err e ∧ finishRefresh m = { m.2 with unk := true, result := e.resultCode .busyTimeout }) := by
  unfold finishRefresh
  split
  · next h => exact .inl ⟨h, rfl⟩
  · next e h => exact .inr ⟨e, h, rfl⟩

end Sys2Proof.Machine
end

