-- ==== Sys2Proof/Laws/Refresh.lean ====
section
/-! SUPPORT. How the sequences of the refresh operations end, said once (R161, R166, R172, R180): every transaction and a
wait that succeeds, every transaction and a wait that times out, or the transactions up to the first failed write. -/

namespace Sys2Proof.Machine

/-- The ends of a sequence that records `pre`, then makes the bus transactions `pl` (events `okEvs` when none fails), and
then waits at most `k` polls. -/
structure SeqSpec (pre : List Event) (pl : List (List Byte)) (okEvs : List Event) (k : Nat) (s : State) (m : Micro) :
    Prop where
  events : BusEvents s.cfg.toParams pl okEvs
  noneFailed : NoneFailed okEvs
  ends :
    (∃ j, j ≤ k ∧ (∀ i, i < pl.length → s.busResultAt i = .ok) ∧
      (∀ i, i < j → (s.replay (pre ++ okEvs)).busyLevelAt i = s.cfg.pBusyActive) ∧
      (s.replay (pre ++ okEvs)).busyLevelAt j = (!s.cfg.pBusyActive) ∧
      m = (.ok, s.replay (pre ++ okEvs ++ (pollEvents s.cfg.toParams j ++ [.busy (!s.cfg.pBusyActive)])))) ∨
    ((∀ i, i < pl.length → s.busResultAt i = .ok) ∧
      (∀ i, i ≤ k → (s.replay (pre ++ okEvs)).busyLevelAt i = s.cfg.pBusyActive) ∧
      m = (.err .timeout, s.replay (pre ++ okEvs ++ (pollEvents s.cfg.toParams k ++ [.busy s.cfg.pBusyActive])))) ∨
    (∃ n evs, n < pl.length ∧ m = (.err .busTransportError, s.replay (pre ++ evs)) ∧
      (∀ i, i < n → s.busResultAt i = .ok) ∧ s.busResultAt n = .err ∧
      BusEvents s.cfg.toParams (pl.take (n + 1)) evs ∧ noRetry evs = true ∧ FailsAt n okEvs evs)

/-- A bus micro-operation and then a wait. -/
theorem SeqSpec.of_bus {pre : List Event} {pl : List (List Byte)} {okEvs : List Event} {s : State} {m : Micro}
    {timeout : Nat} (hw : transactions pre = 0) (hsm : samples pre = 0) (h : BusSpec pl okEvs (s.replay pre) m) :
    SeqSpec pre pl okEvs (pollBound s.cfg.toParams timeout) s (m.andThen (waitIdle timeout)) := by
  have hat : ∀ i, (s.replay pre).busResultAt i = s.busResultAt i := fun i => by
    rw [State.busResultAt_replay hsm, hw, Nat.zero_add]
  refine ⟨by simpa using h.events, h.noneFailed, ?_⟩
  rcases h.ends with ⟨rfl, hok⟩ | ⟨n, evs, hn, rfl, h₁, h₂, h₃, h₄, h₅⟩
  · have hw := waitIdle_spec timeout ((s.replay pre).replay okEvs)
    simp only [hat] at hok
    simp only [WaitSpec, State.replay_cfg, ← State.replay_append] at hw
    rcases hw with ⟨j, hj, h₁, h₂, h₃⟩ | ⟨h₁, h₂⟩
    · refine .inl ⟨j, hj, hok, h₁, h₂, ?_⟩
      simp only [Micro.andThen, ← State.replay_append, h₃]
    · refine .inr (.inl ⟨hok, h₁, ?_⟩)
      simp only [Micro.andThen, ← State.replay_append, h₂]
  · simp only [hat] at h₁ h₂
    exact .inr (.inr ⟨n, evs, hn, by simp only [Micro.andThen, ← State.replay_append], h₁, h₂, by simpa using h₃, h₄, h₅⟩)

@[simp] theorem transactions_delayEvents (ms : Nat) : transactions (delayEvents ms) = 0 := by
  unfold delayEvents; split <;> simp [Event.isWrite]

@[simp] theorem samples_delayEvents (ms : Nat) : samples (delayEvents ms) = 0 := by
  unfold delayEvents; split <;> simp [Event.isSample]

@[simp] theorem payloadsOf_delayEvents (ms : Nat) : payloadsOf (delayEvents ms) = [] := by
  unfold delayEvents; split <;> simp [Event.isWrite]

@[simp] theorem transactions_pulseEvents (p : Params) : transactions (pulseEvents p) = 0 := by
  simp [pulseEvents, Event.isWrite]

@[simp] theorem samples_pulseEvents (p : Params) : samples (pulseEvents p) = 0 := by
  simp [pulseEvents, Event.isSample]

@[simp] theorem payloadsOf_pulseEvents (p : Params) : payloadsOf (pulseEvents p) = [] := by
  simp [pulseEvents, Event.isWrite]

@[simp] theorem delayTotal_pulseEvents (p : Params) : delayTotal (pulseEvents p) = p.pTRstLow + p.pTRstSettle := by
  simp [pulseEvents, Event.millis]

/-- The sequence of INIT and of WAKE (R161, R180). -/
theorem wakeSequence_spec (l : List Command) (timeout : Nat) (s : State) :
    SeqSpec (pulseEvents s.cfg.toParams) (listPayloads l) (issueListEvents s.cfg.toParams l)
      (pollBound s.cfg.toParams timeout) s (wakeSequence l timeout s) := by
  unfold wakeSequence
  rw [resetPulse_eq]
  exact SeqSpec.of_bus (transactions_pulseEvents _) (samples_pulseEvents _)
    (by simpa using issueList_spec l (s.replay (pulseEvents s.cfg.toParams)))

/-- Sequencing is associative. -/
theorem Micro.andThen_assoc (m : Micro) (f g : State → Micro) :
    (m.andThen f).andThen g = m.andThen (fun t => (f t).andThen g) := by
  rcases m with ⟨r, t⟩
  cases r <;> rfl

/-- The sequence of FULL and of PARTIAL (R166, R171, R172). -/
theorem refreshSequence_spec (y0 y1 : Nat) (trigger : List Command) (s : State) :
    SeqSpec [] (refreshPayloads s.cfg.toParams s.fb y0 y1 trigger) (refreshEvents s.cfg.toParams s.fb y0 y1 trigger)
      (pollBound s.cfg.toParams s.cfg.pTmoRefresh) s (refreshSequence y0 y1 trigger s) := by
  have hbus := ((issueList_spec (s.cfg.pp.window 0 y0 s.cfg.pW y1) s).andThen (k := sendFrame y0 y1)
    (ql := [s.cfg.pp.opWriteRam] :: frameChunks s.cfg.toParams s.fb y0 y1)
    (b := frameEvents s.cfg.toParams s.fb y0 y1) fun t ht hfb => by
      have := sendFrame_spec y0 y1 t
      rwa [ht, hfb] at this).andThen (k := issueList trigger) (ql := listPayloads trigger)
    (b := issueListEvents s.cfg.toParams trigger) fun t ht _ => by
      have := issueList_spec trigger t
      rwa [ht] at this
  have hseq := SeqSpec.of_bus (pre := []) (s := s) (timeout := s.cfg.pTmoRefresh) rfl rfl
    (by rw [State.replay_nil]; exact hbus)
  have hrun : refreshSequence y0 y1 trigger s =
      Micro.andThen (Micro.andThen (Micro.andThen (issueList (s.cfg.pp.window 0 y0 s.cfg.pW y1) s) (sendFrame y0 y1))
        (issueList trigger)) (waitIdle s.cfg.pTmoRefresh) := by
    rw [Micro.andThen_assoc]
    unfold refreshSequence
    have hfr := MicroFrame.andThen (MicroFrame.issueList (s.cfg.pp.window 0 y0 s.cfg.pW y1) s)
      fun t => MicroFrame.sendFrame y0 y1 t
    generalize Micro.andThen (issueList (s.cfg.pp.window 0 y0 s.cfg.pW y1) s) (sendFrame y0 y1) = m at hfr ⊢
    rcases m with ⟨r, t⟩
    cases r with
    | err e => rfl
    | ok =>
      have hc : t.cfg = s.cfg := hfr.cfg
      simp only [Micro.andThen, refreshPhase, hc]
  rw [hrun]
  exact hseq

end Sys2Proof.Machine
end

