-- ==== Sys2Proof/Laws/Endings.lean ====
section
/-! SUPPORT. How each refresh operation ends, said once for the five of them (R160 to R187): at its guard or operand check,
with success, with a timeout, or at a failed write. -/

namespace Sys2Proof.Machine

/-- The code a guard or the region check answers, none where the operation goes on (R160, R170). -/
def guardResult (s : State) : Instr → Option ResultCode
  | .fbnew => none
  | .setrot _ => none
  | .clear _ => none
  | .pset _ _ _ => none
  | .pget _ _ => none
  | .init => none
  | .full => if s.fsm = .awake then none else some .notAwake
  | .partialRefresh ys ye =>
    if s.fsm = .awake then (if ys < ye ∧ ye ≤ s.cfg.pH then none else some .invalidRegion) else some .notAwake
  | .sleep => if s.fsm = .awake then none else if s.fsm = .sleeping then some .ok else some .notAwake
  | .wake => if s.fsm = .sleeping then none else if s.fsm = .awake then some .ok else some .badState

/-- The payloads of the transactions a host operation makes in a state when no write fails, in order: none where its
guard or operand check ends it, and none for a framebuffer operation (R119, R160 to R180). -/
def plannedPayloads (s : State) : Instr → List (List Byte)
  | .fbnew => []
  | .setrot _ => []
  | .clear _ => []
  | .pset _ _ _ => []
  | .pget _ _ => []
  | .init => listPayloads s.cfg.pp.initSeq
  | .full =>
    if s.fsm = .awake then refreshPayloads s.cfg.toParams s.fb 0 s.cfg.pH s.cfg.pp.fullTrigger else []
  | .partialRefresh ys ye =>
    if s.fsm = .awake ∧ ys < ye ∧ ye ≤ s.cfg.pH then
      refreshPayloads s.cfg.toParams s.fb ys ye s.cfg.pp.partialTrigger
    else []
  | .sleep => if s.fsm = .awake then commandPayloads s.cfg.pp.sleepCmd else []
  | .wake => if s.fsm = .sleeping then listPayloads s.cfg.pp.wakeSeq else []

/-- The timeout of the wait a host operation reaches in a state when no write fails, none where it reaches none (R161,
R166, R172, R178, R180). -/
def waitTimeout (s : State) : Instr → Option Nat
  | .fbnew => none
  | .setrot _ => none
  | .clear _ => none
  | .pset _ _ _ => none
  | .pget _ _ => none
  | .init => some s.cfg.pTmoInit
  | .full => if s.fsm = .awake then some s.cfg.pTmoRefresh else none
  | .partialRefresh ys ye =>
    if s.fsm = .awake ∧ ys < ye ∧ ye ≤ s.cfg.pH then some s.cfg.pTmoRefresh else none
  | .sleep => none
  | .wake => if s.fsm = .sleeping then some s.cfg.pTmoWake else none

/-- The events of those transactions when no write fails (R135 to R138). -/
def plannedEvents (s : State) : Instr → List Event
  | .fbnew => []
  | .setrot _ => []
  | .clear _ => []
  | .pset _ _ _ => []
  | .pget _ _ => []
  | .init => issueListEvents s.cfg.toParams s.cfg.pp.initSeq
  | .full =>
    if s.fsm = .awake then refreshEvents s.cfg.toParams s.fb 0 s.cfg.pH s.cfg.pp.fullTrigger else []
  | .partialRefresh ys ye =>
    if s.fsm = .awake ∧ ys < ye ∧ ye ≤ s.cfg.pH then
      refreshEvents s.cfg.toParams s.fb ys ye s.cfg.pp.partialTrigger
    else []
  | .sleep => if s.fsm = .awake then issueEvents s.cfg.toParams s.cfg.pp.sleepCmd else []
  | .wake => if s.fsm = .sleeping then issueListEvents s.cfg.toParams s.cfg.pp.wakeSeq else []

/-- The operations that pulse the panel's reset line (R161, R180). -/
def pulses : Instr → Bool
  | .fbnew => false
  | .setrot _ => false
  | .clear _ => false
  | .pset _ _ _ => false
  | .pget _ _ => false
  | .init => true
  | .full => false
  | .partialRefresh _ _ => false
  | .sleep => false
  | .wake => true

/-- The events before an operation's first transaction. -/
def pulseOf (s : State) (i : Instr) : List Event := if pulses i then pulseEvents s.cfg.toParams else []

/-- The events of an operation in `s`, and the FSM state, panel flag and result it ends with. -/
inductive Ending (i : Instr) (s : State) : List Event → Fsm → Bool → ResultCode → Prop where
  /-- Its guard or operand check ends it (R160, R170). -/
  | guarded (r : ResultCode) (h : guardResult s i = some r) : Ending i s [] s.fsm s.unk r
  /-- Every transaction succeeds, and its wait, if it has one, ends at sample `j + 1` (R161, R166, R172, R180). -/
  | waited (timeout j : Nat) (hg : guardResult s i = none) (hw : waitTimeout s i = some timeout)
    (hev : BusEvents s.cfg.toParams (plannedPayloads s i) (plannedEvents s i)) (hok : NoneFailed (plannedEvents s i))
    (hbus : ∀ k, k < (plannedPayloads s i).length → s.busResultAt k = .ok)
    (hj : j ≤ pollBound s.cfg.toParams timeout)
    (hbusy : ∀ k, k < j → (s.replay (pulseOf s i ++ plannedEvents s i)).busyLevelAt k = s.cfg.pBusyActive)
    (hidle : (s.replay (pulseOf s i ++ plannedEvents s i)).busyLevelAt j = (!s.cfg.pBusyActive)) :
    Ending i s (pulseOf s i ++ plannedEvents s i ++ (pollEvents s.cfg.toParams j ++ [.busy (!s.cfg.pBusyActive)]))
      .awake (if i = .init then false else s.unk) .ok
  /-- SLEEP's command succeeds and its pause follows (R177). -/
  | slept (hi : i = .sleep) (hg : guardResult s i = none)
    (hev : BusEvents s.cfg.toParams (plannedPayloads s i) (plannedEvents s i)) (hok : NoneFailed (plannedEvents s i))
    (hbus : ∀ k, k < (plannedPayloads s i).length → s.busResultAt k = .ok) :
    Ending i s (plannedEvents s i ++ delayEvents s.cfg.pTSleep) .sleeping s.unk .ok
  /-- Every transaction succeeds and the wait times out (R141, R184). -/
  | timedOut (timeout : Nat) (hg : guardResult s i = none) (hw : waitTimeout s i = some timeout)
    (hev : BusEvents s.cfg.toParams (plannedPayloads s i) (plannedEvents s i)) (hok : NoneFailed (plannedEvents s i))
    (hbus : ∀ k, k < (plannedPayloads s i).length → s.busResultAt k = .ok)
    (hbusy : ∀ k, k ≤ pollBound s.cfg.toParams timeout →
      (s.replay (pulseOf s i ++ plannedEvents s i)).busyLevelAt k = s.cfg.pBusyActive) :
    Ending i s (pulseOf s i ++ plannedEvents s i
        ++ (pollEvents s.cfg.toParams (pollBound s.cfg.toParams timeout) ++ [.busy s.cfg.pBusyActive]))
      (if pulses i then .uninit else s.fsm) true (if i = .init then .initTimeout else .busyTimeout)
  /-- Write `n + 1` fails (R134, R136, R184). -/
  | busFailed (n : Nat) (evs : List Event) (hg : guardResult s i = none) (hn : n < (plannedPayloads s i).length)
    (hev : BusEvents s.cfg.toParams ((plannedPayloads s i).take (n + 1)) evs) (hnr : noRetry evs = true)
    (hfail : FailsAt n (plannedEvents s i) evs)
    (hbus : ∀ k, k < n → s.busResultAt k = .ok) (herr : s.busResultAt n = .err) :
    Ending i s (pulseOf s i ++ evs) (if pulses i then .uninit else s.fsm) true .busTransportError

/-- An operation that its guard ends plans no transaction and no wait. -/
theorem planned_of_guardResult {s : State} {i : Instr} {r : ResultCode} (h : guardResult s i = some r) :
    plannedPayloads s i = [] ∧ waitTimeout s i = none := by
  cases i with
  | fbnew => cases h
  | setrot r => cases h
  | clear c => cases h
  | pset c x y => cases h
  | pget x y => cases h
  | init => cases h
  | full => simp only [guardResult] at h; split at h <;> simp_all [plannedPayloads, waitTimeout]
  | partialRefresh ys ye =>
    simp only [guardResult] at h
    split at h
    · split at h <;> simp_all [plannedPayloads, waitTimeout]
    · simp_all [plannedPayloads, waitTimeout]
  | sleep => simp only [guardResult] at h; split at h <;> simp_all [plannedPayloads, waitTimeout]
  | wake => simp only [guardResult] at h; split at h <;> simp_all [plannedPayloads, waitTimeout]

/-- An operation in `s` leaves `s` moved by its events, with the FSM state, panel flag and result of its ending. -/
def Ends (i : Instr) (s t : State) : Prop :=
  ∃ evs f u r, t = { s.replay evs with fsm := f, unk := u, result := r } ∧ Ending i s evs f u r

/-- An operation that its guard ends. -/
theorem Ends.guarded {i : Instr} {s : State} {r : ResultCode} (h : guardResult s i = some r) :
    Ends i s { s with result := r } :=
  ⟨[], s.fsm, s.unk, r, rfl, .guarded r h⟩

/-- INIT (R161). -/
theorem initPanel_ends (s : State) : Ends .init s (initPanel s) := by
  have hs := wakeSequence_spec s.cfg.pp.initSeq s.cfg.pTmoInit s
  rcases hs.ends with ⟨j, hj, h₀, h₁, h₂, h₃⟩ | ⟨h₀, h₁, h₃⟩ | ⟨n, evs, hn, h₃, h₀, h₁, hb, hr, hx⟩
  · exact ⟨_, _, _, _, by unfold initPanel; dsimp only; rw [h₃]; rfl,
      .waited s.cfg.pTmoInit j rfl rfl hs.events hs.noneFailed h₀ hj h₁ h₂⟩
  · exact ⟨_, _, _, _, by unfold initPanel; dsimp only; rw [h₃]; rfl,
      .timedOut s.cfg.pTmoInit rfl rfl hs.events hs.noneFailed h₀ h₁⟩
  · exact ⟨_, _, _, _, by unfold initPanel; dsimp only; rw [h₃]; rfl, .busFailed n evs rfl hn hb hr hx h₀ h₁⟩

/-- WAKE (R180, R181). -/
theorem wakePanel_ends (s : State) : Ends .wake s (wakePanel s) := by
  unfold wakePanel
  split
  · next h => exact Ends.guarded (by simp [guardResult, h])
  · next h => exact Ends.guarded (by simp [guardResult, h])
  · next h =>
    have hg : guardResult s .wake = none := by simp [guardResult, h]
    have hw : waitTimeout s .wake = some s.cfg.pTmoWake := by simp [waitTimeout, h]
    have hp : plannedPayloads s .wake = listPayloads s.cfg.pp.wakeSeq := by simp [plannedPayloads, h]
    have he : plannedEvents s .wake = issueListEvents s.cfg.toParams s.cfg.pp.wakeSeq := by simp [plannedEvents, h]
    have hs := wakeSequence_spec s.cfg.pp.wakeSeq s.cfg.pTmoWake s
    rw [← hp, ← he] at hs
    dsimp only
    rcases hs.ends with ⟨j, hj, h₀, h₁, h₂, h₃⟩ | ⟨h₀, h₁, h₃⟩ | ⟨n, evs, hn, h₃, h₀, h₁, hb, hr, hx⟩
    · refine ⟨_, _, _, _, ?_,
        .waited s.cfg.pTmoWake j hg hw hs.events hs.noneFailed h₀ hj h₁ h₂⟩
      rw [h₃]
      apply State.ext_fields <;> simp [State.returnOk, pulseOf, pulses]
    · exact ⟨_, _, _, _, by rw [h₃]; rfl,
        .timedOut s.cfg.pTmoWake hg hw hs.events hs.noneFailed h₀ h₁⟩
    · exact ⟨_, _, _, _, by rw [h₃]; rfl, .busFailed n evs hg hn hb hr hx h₀ h₁⟩

/-- The end of FULL and of PARTIAL once their guards let them run (R166, R172, R184). -/
theorem finishRefresh_ends {i : Instr} {s : State} {y0 y1 : Nat} {trigger : List Command}
    (hi : i ≠ .init) (hu : pulses i = false) (hf : s.fsm = .awake) (hg : guardResult s i = none)
    (hw : waitTimeout s i = some s.cfg.pTmoRefresh)
    (hp : plannedPayloads s i = refreshPayloads s.cfg.toParams s.fb y0 y1 trigger)
    (he : plannedEvents s i = refreshEvents s.cfg.toParams s.fb y0 y1 trigger) :
    Ends i s (finishRefresh (refreshSequence y0 y1 trigger s)) := by
  have hs := refreshSequence_spec y0 y1 trigger s
  have hpre : pulseOf s i = [] := by simp [pulseOf, hu]
  rw [← hp, ← he, ← hpre] at hs
  unfold finishRefresh
  rcases hs.ends with ⟨j, hj, h₀, h₁, h₂, h₃⟩ | ⟨h₀, h₁, h₃⟩ | ⟨n, evs, hn, h₃, h₀, h₁, hb, hr, hx⟩
  · refine ⟨_, _, _, _, ?_, .waited s.cfg.pTmoRefresh j hg hw hs.events hs.noneFailed h₀ hj h₁ h₂⟩
    rw [h₃]
    apply State.ext_fields <;> simp [State.returnOk, hf, hi]
  · refine ⟨_, _, _, _, ?_, .timedOut s.cfg.pTmoRefresh hg hw hs.events hs.noneFailed h₀ h₁⟩
    rw [h₃]
    apply State.ext_fields <;> simp [failAwake, hi, hu, MicroError.resultCode]
  · refine ⟨_, _, _, _, ?_, .busFailed n evs hg hn hb hr hx h₀ h₁⟩
    rw [h₃]
    apply State.ext_fields <;> simp [failAwake, hu, MicroError.resultCode]

/-- FULL (R166, R167). -/
theorem fullUpdate_ends (s : State) : Ends .full s (fullUpdate s) := by
  unfold fullUpdate
  split
  · next h =>
    exact finishRefresh_ends (by simp) rfl h (by simp [guardResult, h]) (by simp [waitTimeout, h])
      (by simp [plannedPayloads, h]) (by simp [plannedEvents, h])
  · next h => exact Ends.guarded (by simp [guardResult, h])
  · next h => exact Ends.guarded (by simp [guardResult, h])

/-- PARTIAL (R170, R171, R172). -/
theorem partialUpdate_ends (ys ye : Nat) (s : State) : Ends (.partialRefresh ys ye) s (partialUpdate ys ye s) := by
  unfold partialUpdate
  split
  · next h =>
    by_cases hv : ys < ye ∧ ye ≤ s.cfg.pH
    · rw [if_pos (by simpa [validRegion] using hv)]
      exact finishRefresh_ends (by simp) rfl h (by simp [guardResult, h, hv]) (by simp [waitTimeout, h, hv])
        (by simp [plannedPayloads, h, hv]) (by simp [plannedEvents, h, hv])
    · rw [if_neg (by simpa [validRegion] using hv)]
      exact Ends.guarded (by simp only [guardResult, h, if_true, if_neg hv])
  · next h => exact Ends.guarded (by simp [guardResult, h])
  · next h => exact Ends.guarded (by simp [guardResult, h])

/-- SLEEP (R177, R178). -/
theorem sleepPanel_ends (s : State) : Ends .sleep s (sleepPanel s) := by
  unfold sleepPanel
  split
  · next h => exact Ends.guarded (by simp [guardResult, h])
  · next h => exact Ends.guarded (by simp [guardResult, h])
  · next h =>
    have hg : guardResult s .sleep = none := by simp [guardResult, h]
    have hp : plannedPayloads s .sleep = commandPayloads s.cfg.pp.sleepCmd := by simp [plannedPayloads, h]
    have he : plannedEvents s .sleep = issueEvents s.cfg.toParams s.cfg.pp.sleepCmd := by simp [plannedEvents, h]
    have hs := issue_spec s.cfg.pp.sleepCmd s
    rw [← hp, ← he] at hs
    dsimp only
    rcases hs.ends with ⟨h₃, h₀⟩ | ⟨n, evs, hn, h₃, h₀, h₁, hb, hr, hx⟩
    · refine ⟨_, _, _, _, ?_, .slept rfl hg hs.events hs.noneFailed h₀⟩
      rw [h₃, State.replay_append, ← State.delay_eq_replay]
      apply State.ext_fields <;> simp [State.returnOk]
    · refine ⟨_, _, _, _, ?_, .busFailed n evs hg hn hb hr hx h₀ h₁⟩
      rw [h₃]
      apply State.ext_fields <;> simp [failAwake, pulseOf, pulses, MicroError.resultCode]

/-- Every refresh operation ends in one of the five ways. -/
theorem exec_ends {i : Instr} (h : isRefresh i = true) (s : State) : ∃ t, exec i s = .next t ∧ Ends i s t := by
  cases i <;> simp [isRefresh] at h
  · exact ⟨_, rfl, initPanel_ends s⟩
  · exact ⟨_, rfl, fullUpdate_ends s⟩
  · exact ⟨_, rfl, partialUpdate_ends _ _ s⟩
  · exact ⟨_, rfl, sleepPanel_ends s⟩
  · exact ⟨_, rfl, wakePanel_ends s⟩

end Sys2Proof.Machine
end

