-- ==== Sys2Proof/Tests/Slice0.lean ====
section
/-! SUPPORT. Small checks on fixed values, their results taken from spec/95_test_vectors.md and from the rules' own examples,
and, for every statement with hypotheses, a witness that meets them. -/

namespace Sys2Proof.Machine.Tests

/-! ### The test profile, a panel of the example size and a small one -/

/-- `TP.WINDOW` (95_test_vectors.md §0). -/
def tpWindow (x0 y0 x1 y1 : Nat) : List Command :=
  let b := BitVec.ofNat 8
  [⟨0x44, [b (x0 / 8), b (x1 / 8 - 1)]⟩,
    ⟨0x45, [b (y0 % 256), b (y0 / 256), b ((y1 - 1) % 256), b ((y1 - 1) / 256)]⟩,
    ⟨0x4E, [b (x0 / 8)]⟩, ⟨0x4F, [b (y0 % 256), b (y0 / 256)]⟩]

/-- The test profile TP (95_test_vectors.md §0), with the windows of the given row ranges at the given width. -/
def tp (width : Nat) (rows : List (Nat × Nat)) : Profile where
  initSeq := [⟨0x12, []⟩, ⟨0x11, [0x03]⟩]
  wakeSeq := []
  opWriteRam := 0x24
  windowTable := rows.map fun r => (⟨0, r.1, width, r.2⟩, tpWindow 0 r.1 width r.2)
  fullTrigger := [⟨0x22, [0xF7]⟩, ⟨0x20, []⟩]
  partialTrigger := [⟨0x22, [0xFF]⟩, ⟨0x20, []⟩]
  sleepCmd := ⟨0x10, [0x01]⟩

/-- The configuration of 95_test_vectors.md §0. -/
def big : Config := ⟨Params.exampleOf (tp 400 [(0, 300), (10, 20)]), by decide⟩

/-- A panel of 16 × 4 pixels with short waits, pieces of 3 bytes and a wake sequence of one command. -/
def smallParams : Params :=
  { Params.exampleOf { tp 16 [(0, 4), (1, 3)] with wakeSeq := [⟨0x11, [0x03]⟩] } with
    pW := 16, pH := 4, pTSleep := 7, pTmoInit := 25, pTmoWake := 20, pTmoRefresh := 30, pChunk := 3 }

def small : Config := ⟨smallParams, by decide⟩

/-- A state after reset but for the FSM, with answers named. -/
def at_ (c : Config) (f : Fsm) (bus : List BusResult) (busy : List Level) : State :=
  { State.resetOf c with fsm := f, busAnswers := bus, busyAnswers := busy }

/-- `n` answers `Ok`. -/
def oks (n : Nat) : List BusResult := List.replicate n .ok

/-- The state an operation leaves. -/
def after (i : Instr) (s : State) : State :=
  match exec i s with
  | .next t => t
  | .fault _ => s
  | .refused _ => s

/-- The state a step leaves. -/
def stepped (s : State) : State :=
  match step s with
  | .next t => t
  | .fault _ => s
  | .refused _ => s

/-- The observable events of an operation (R58). -/
def seen (i : Instr) (s : State) : List Event := observable s.lines (newEvents s (after i s))

/-- The reset state of a configuration with host inputs pending. -/
def pending (c : Config) (inputs : List HostInput) : State := { State.resetOf c with port := inputs }

/-! ### Ill-formed terms are refused (R74, R75, R82), and illegal configurations (R9 to R13) -/

theorem test_wf_refuses_pset_x : (Instr.pset .black 8192 0).wellFormed = false := by decide
theorem test_wf_refuses_pset_y : (Instr.pset .white 0 8192).wellFormed = false := by decide
theorem test_wf_refuses_pget_x : (Instr.pget 8192 0).wellFormed = false := by decide
theorem test_wf_refuses_pget_y : (Instr.pget 0 8192).wellFormed = false := by decide
theorem test_wf_refuses_partial_ys : (Instr.partialRefresh 8192 1).wellFormed = false := by decide
theorem test_wf_refuses_partial_ye : (Instr.partialRefresh 0 8192).wellFormed = false := by decide

/-- R9 to R13: each bound, one value beyond it. -/
theorem test_config_refuses_each_illegal_value :
    ({ smallParams with pW := 12 } : Params).legal = false ∧ ({ smallParams with pW := 0 } : Params).legal = false ∧
    ({ smallParams with pW := 8192 } : Params).legal = false ∧ ({ smallParams with pH := 0 } : Params).legal = false ∧
    ({ smallParams with pH := 8192 } : Params).legal = false ∧
    ({ smallParams with pPoll := 0 } : Params).legal = false ∧
    ({ smallParams with pChunk := 0 } : Params).legal = false ∧
    ({ smallParams with pp := { smallParams.pp with fullTrigger := [] } } : Params).legal = false ∧
    ({ smallParams with pp := { smallParams.pp with partialTrigger := [] } } : Params).legal = false :=
  ⟨rfl, rfl, rfl, rfl, rfl, rfl, rfl, rfl, rfl⟩

theorem test_config_accepts_the_extremes :
    ({ smallParams with pW := 8184, pH := 8191 } : Params).legal = true ∧
    ({ smallParams with pW := 8, pH := 1 } : Params).legal = true := ⟨rfl, rfl⟩

/-! ### Decoding: words written out field by field from R71 and L2.1 -/

theorem test_decode_fbnew : decode (0b0001#4 ++ 0#28) = .ok .fbnew := by decide
theorem test_decode_setrot : decode (0b0010#4 ++ 0#26 ++ 0b10#2) = .ok (.setrot .r180) := by decide
theorem test_decode_clear : decode (0b0011#4 ++ 0b1#1 ++ 0#27) = .ok (.clear .black) := by decide
theorem test_decode_pset :
    decode (0b0100#4 ++ 0b1#1 ++ 0b0#1 ++ 0b0000110001111#13 ++ 0b0000100101011#13) = .ok (.pset .black 399 299) := by
  decide
theorem test_decode_pset_white : decode 0x4000A007#32 = .ok (.pset .white 5 7) := by decide
theorem test_decode_pget :
    decode (0b0101#4 ++ 0b00#2 ++ 0b0000110001111#13 ++ 0#13) = .ok (.pget 399 0) := by decide
theorem test_decode_init : decode (0b0110#4 ++ 0#28) = .ok .init := by decide
theorem test_decode_full : decode (0b0111#4 ++ 0#28) = .ok .full := by decide
theorem test_decode_partial :
    decode (0b1000#4 ++ 0b00#2 ++ 0b0000000001010#13 ++ 0b0000000010100#13) = .ok (.partialRefresh 10 20) := by decide
theorem test_decode_sleep : decode (0b1001#4 ++ 0#28) = .ok .sleep := by decide
theorem test_decode_wake : decode (0b1010#4 ++ 0#28) = .ok .wake := by decide

/-- L2.2. -/
theorem test_illegal_words :
    [0x00000000#32, 0xB0000000#32, 0xF0000000#32, 0xFFFFFFFF#32, 0x10000001#32, 0x60000100#32, 0x90000001#32,
      0xA8000000#32, 0x7FFFFFFF#32, 0x20000004#32, 0x30000001#32, 0x34000000#32, 0x44000000#32, 0x58000000#32,
      0x54000000#32, 0x88000000#32].all (fun w => (decode w).toOption.isNone) = true := by decide

/-- L2.2: from reset an illegal word gives `STATUS = 8` and no event. -/
theorem test_illegal_status :
    (stepped ((State.resetOf big).withFetchWord 32 0x44000000)).status = 0x00000008#32 ∧
    (stepped ((State.resetOf big).withFetchWord 32 0x44000000)).trace = [] := by decide

theorem test_table_word_needs_32_bits :
    decodeTableWord 32 (2 ^ 32 + 0x10000000) = none ∧ decodeTableWord 32 0x10000000 = some .fbnew := by decide

/-! ### The assembler (R82, R83) -/

theorem test_assembler_words :
    assembleWord big.toParams "pset 0x18F, 299, 1".toList = some 0x4831E12B#32 ∧
    assembleWord big.toParams "SetRot 270".toList = some 0x20000003#32 ∧
    assembleWord big.toParams "CLRB".toList = some 0x38000000#32 ∧
    assembleWord big.toParams "PWHT 5, 7".toList = some 0x4000A007#32 ∧
    assembleWord big.toParams "PARTALL".toList = some 0x8000012C#32 := by decide

/-- R82: numbers are decimal or hexadecimal, and an angle is one of four values: `0x5A` is 90, `0x10E` is 270. -/
theorem test_assembler_hexadecimal_angle :
    assembleWord big.toParams "SETROT 0x5A".toList = some 0x20000001#32 ∧
    assembleWord big.toParams "SETROT 0x10E".toList = some 0x20000003#32 := by decide

theorem test_assembler_refuses :
    assembleWord big.toParams "PSET 8192, 0, black".toList = none ∧
    assembleWord big.toParams "SETROT 45".toList = none ∧ assembleWord big.toParams "SETROT 0x2D".toList = none ∧
    assembleWord big.toParams "CLEAR grey".toList = none := by decide

/-! ### The host port (R25, R26, R47) -/

theorem test_status_image :
    ({ State.resetOf big with fsm := .awake, rot := .r270, pix := .black, unk := true, result := .badState }).status
      = 0b1111010111#32 := by decide

theorem test_narrow_access_is_refused :
    step (pending big [.write 16 0 0x10000000#32]) = .refused .accessWidth ∧
    step (pending big [.read 8 4]) = .refused .accessWidth := ⟨rfl, rfl⟩

theorem test_write_to_status_is_ignored :
    step (pending big [.write 32 4 0x38000000#32]) = .next (pending big []) := rfl

/-- R230: a reset after drawing gives the reset values again. -/
theorem test_block_reset_clears :
    ({ stepped { after (.clear .black) (State.resetOf small) with port := [.blockReset] } with trace := [] })
      = State.resetOf small := by decide

/-- R230, log 9: INIT cut after its first event has driven `RST` low; the reset drives it high and nothing else is seen. -/
theorem test_cut_init :
    observable (State.resetOf small).lines
      (stepped { at_ small .uninit (oks 3) [false] with port := [.writeCutByReset 0x60000000#32 1] }).trace =
      [.pin .rst false, .pin .rst true] := by decide

/-! ### The framebuffer operations: L2.3 to L2.11 -/

theorem test_fbnew :
    after .fbnew (after (.clear .black) (after (.setrot .r270) (State.resetOf small))) = State.resetOf small := by decide

theorem test_setrot_status : (after (.setrot .r90) (State.resetOf big)).status = 0x00000040#32 := by decide

theorem test_setrot_keeps_bytes :
    (after (.setrot .r0) (after (.pset .black 0 0) (after (.setrot .r90) (State.resetOf big)))).fb = [(49, 0x01#8)] := by
  decide

theorem test_clear_black :
    (after (.clear .black) (State.resetOf small)).fb = (List.range 8).map (fun i => (i, 0xFF#8)) := by decide

theorem test_clear_white_removes :
    (after (.clear .white) (after (.clear .black) (State.resetOf small))).fb = [] := by decide

theorem test_pset_corners :
    ((after (.pset .black 299 399) (after (.setrot .r90) (State.resetOf big))).fb = [(14950, 0x80#8)]) ∧
    ((after (.pset .black 1 0) (after (.setrot .r180) (State.resetOf big))).fb = [(14999, 0x02#8)]) ∧
    ((after (.pset .black 0 1) (after (.setrot .r270) (State.resetOf big))).fb = [(14950, 0x40#8)]) ∧
    ((after (.pset .black 8 0) (State.resetOf big)).fb = [(1, 0x80#8)]) := by decide

theorem test_pset_bounds :
    (after (.pset .black 300 0) (after (.setrot .r90) (State.resetOf big))).result = .outOfBounds ∧
    (after (.pset .black 0 399) (after (.setrot .r90) (State.resetOf big))).fb = [(0, 0x80#8)] ∧
    (after (.pset .black 400 0) (State.resetOf big)).status = 0x00000006#32 := by decide

theorem test_pget_reads :
    (after (.pget 399 0) (after (.setrot .r0) (after (.pset .black 0 0) (after (.setrot .r90) (State.resetOf big))))).status
      = 0x00000100#32 := by decide

/-- L2.8. -/
theorem test_pget_out_of_bounds_keeps_pix :
    (after (.pget 400 0) (after (.pget 0 0) (after (.pset .black 0 0) (State.resetOf big)))).status = 0x00000106#32 := by
  decide

/-! ### The refresh operations: L2.19 to L2.29 -/

/-- L2.19. -/
theorem test_init_trace :
    seen .init (at_ big .uninit (oks 3) [false]) =
      [.pin .rst false, .delay 10, .pin .rst true, .delay 10, .pin .dc false, .pin .cs false, .write [0x12] .ok,
        .pin .cs true, .pin .dc true, .pin .dc false, .pin .cs false, .write [0x11] .ok, .pin .cs true, .pin .dc true,
        .pin .cs false, .write [0x03] .ok, .pin .cs true, .busy false] ∧
    (after .init (at_ big .uninit (oks 3) [false])).status = 0x00000010#32 := by decide

/-- L2.25. -/
theorem test_init_second_write_fails :
    seen .init (at_ big .awake [.ok, .err] []) =
      [.pin .rst false, .delay 10, .pin .rst true, .delay 10, .pin .dc false, .pin .cs false, .write [0x12] .ok,
        .pin .cs true, .pin .dc true, .pin .dc false, .pin .cs false, .write [0x11] .err, .pin .cs true, .pin .dc true] ∧
    (after .init (at_ big .awake [.ok, .err] [])).status = 0x00000201#32 := by decide

/-- R138, R166: the rows of the small panel go out in pieces of 3, 3 and 2 bytes, between the window and the trigger. -/
theorem test_full_payloads :
    payloadsOf (newEvents (at_ small .awake (oks 15) [false])
      (after .full { at_ small .awake (oks 15) [false] with fb := [(0, 0x80#8), (7, 0x01#8)] })) =
      [[0x44], [0x00, 0x01], [0x45], [0x00, 0x00, 0x03, 0x00], [0x4E], [0x00], [0x4F], [0x00, 0x00], [0x24],
        [0x80, 0x00, 0x00], [0x00, 0x00, 0x00], [0x00, 0x01], [0x22], [0xF7], [0x20]] := by decide

/-- L2.26 on the small panel: `K = 3`, so four samples and three delays of 10 ms. -/
theorem test_full_stuck_busy :
    let s := at_ small .awake (oks 15) [true, true, true, true, false]
    (after .full s).status = 0x00000212#32 ∧ samples (newEvents s (after .full s)) = 4 ∧
    delayTotal (newEvents s (after .full s)) = 30 := by decide

/-- R171, R172: rows 1 and 2 of the small panel, with the partial trigger. -/
theorem test_partial_payloads :
    payloadsOf (newEvents (at_ small .awake (oks 14) [false])
      (after (.partialRefresh 1 3) { at_ small .awake (oks 14) [false] with fb := [(0, 0x80#8), (2, 0x7E#8)] })) =
      [[0x44], [0x00, 0x01], [0x45], [0x01, 0x00, 0x02, 0x00], [0x4E], [0x00], [0x4F], [0x01, 0x00], [0x24],
        [0x7E, 0x00, 0x00], [0x00], [0x22], [0xFF], [0x20]] := by decide

/-- L2.22. -/
theorem test_partial_regions :
    (after (.partialRefresh 10 10) (at_ big .awake [] [])).status = 0x00000015#32 ∧
    (after (.partialRefresh 0 301) (at_ big .awake [] [])).status = 0x00000015#32 ∧
    (after (.partialRefresh 20 10) (at_ big .sleeping [] [])).status = 0x00000024#32 := by decide

/-- L2.28. -/
theorem test_sleep_trace :
    seen .sleep (at_ big .awake (oks 2) []) =
      [.pin .dc false, .pin .cs false, .write [0x10] .ok, .pin .cs true, .pin .dc true, .pin .cs false,
        .write [0x01] .ok, .pin .cs true] ∧
    (after .sleep (at_ big .awake (oks 2) [])).status = 0x00000020#32 := by decide

theorem test_sleep_first_write_fails :
    seen .sleep (at_ big .awake [.err] []) =
      [.pin .dc false, .pin .cs false, .write [0x10] .err, .pin .cs true, .pin .dc true] ∧
    (after .sleep (at_ big .awake [.err] [])).status = 0x00000211#32 := by decide

/-- L2.29. -/
theorem test_wake_trace :
    seen .wake (at_ big .sleeping [] [false]) = [.pin .rst false, .delay 10, .pin .rst true, .delay 10, .busy false] ∧
    (after .wake (at_ big .sleeping [] [false])).status = 0x00000010#32 := by decide

/-- R141, R180, R184 on the small panel: `K = 2`. -/
theorem test_wake_stuck_busy :
    let s := at_ small .sleeping (oks 2) [true, true, true]
    (after .wake s).status = 0x00000202#32 ∧ samples (newEvents s (after .wake s)) = 3 := by decide

/-- R59: without a chip-select line no `CS` event is recorded. -/
theorem test_no_chip_select :
    newEvents (at_ small .awake (oks 2) [])
      (sendCommand 0x12 { at_ ⟨{ smallParams with pCsPresent := false }, by decide⟩ .awake (oks 2) [] with fb := [] }).2 =
      [.pin .dc false, .write [0x12] .ok, .pin .dc true] := by decide

/-- L2.17: rows 4 and 8 of the table. -/
theorem test_wait_rows :
    (samples (waitIdle 5 (at_ big .awake [] [true, true, false])).2.trace = 2) ∧
    (waitIdle 5 (at_ big .awake [] [true, true, false])).1 = .err .timeout ∧
    (waitIdle 20 (at_ big .awake [] [true, true, false])).1 = .ok := by decide

/-! ### Witnesses: every statement's hypotheses, met together -/

/-- The lines of a state made by `at_` are idle. -/
theorem at_lines (c : Config) (f : Fsm) (bus : List BusResult) (busy : List Level) : LinesIdle (at_ c f bus busy) :=
  ⟨rfl, rfl, rfl⟩

/-- Its framebuffer is in order. -/
theorem at_fb (c : Config) (f : Fsm) (bus : List BusResult) (busy : List Level) : FbOk (at_ c f bus busy) := ⟨rfl, rfl⟩

theorem witness_DecodeOfEncodeIsTheInstruction :
    (Instr.pset .black 8191 8191).wellFormed = true ∧ (Instr.pget 8191 0).wellFormed = true ∧
    (Instr.partialRefresh 0 8191).wellFormed = true ∧ (Instr.setrot .r270).wellFormed = true := by decide

theorem witness_EncodeOfDecodeIsTheWord : decode 0x4BFFFFFF#32 = .ok (.pset .black 8191 8191) := by decide

theorem witness_AssembledWordsDecodeToTheirInstruction :
    assembleWord big.toParams "PGET 8191, 0".toList = some 0x53FFE000#32 := by decide

theorem witness_StepRunsTheDecodedCommand :
    (pending big [.write 32 0x0 0x38000000#32]).port = .write 32 0x0 0x38000000#32 :: [] ∧
    decode 0x38000000#32 = .ok (.clear .black) := by decide

theorem witness_FetchWordIsTheNextCommand : decodeTableWord 32 0xA0000000 = some .wake := by decide

theorem witness_IllegalWordOnlySetsItsCode :
    (pending big [.write 32 0x0 0xB0000000#32]).port = .write 32 0x0 0xB0000000#32 :: [] ∧
    (∀ r ∈ opcodeTable, r.admits 0xB0000000#32 = false) ∧ ∀ r ∈ opcodeTable, r.admits 0x10000001#32 = false := by decide

theorem witness_StatusReadReturnsTheImage : (pending big [.read 32 0x4]).port = .read 32 0x4 :: [] := rfl

theorem witness_StatusImageDeterminesItsFields :
    (State.resetOf small).status = ({ State.resetOf small with fb := [(0, 1#8)] }).status ∧
    State.resetOf small ≠ { State.resetOf small with fb := [(0, 1#8)] } := by decide

theorem witness_OtherPortAccessesHaveNoEffect :
    (pending big [.read 32 0x0]).port = .read 32 0x0 :: [] ∧ (pending big [.read 32 0x8]).port = .read 32 0x8 :: [] ∧
    (pending big [.write 32 0x4 1#32]).port = .write 32 0x4 1#32 :: [] ∧
    (pending big [.write 32 0x8 1#32]).port = .write 32 0x8 1#32 :: [] ∧ (pending big []).port = [] :=
  ⟨rfl, rfl, rfl, rfl, rfl⟩

theorem witness_BlockResetRestoresTheResetState :
    (pending big [.blockReset]).port = .blockReset :: [] ∧ LinesIdle (pending big [.blockReset]) :=
  ⟨rfl, rfl, rfl, rfl⟩

theorem witness_OnlyInitAndWakePulseReset :
    (∃ t, exec .init (at_ small .uninit (oks 3) [false]) = .next t ∧
      .pin .rst false ∈ newEvents (at_ small .uninit (oks 3) [false]) t) ∧
    ∃ t, exec .wake (at_ small .sleeping (oks 2) [false]) = .next t ∧
      .pin .rst false ∈ newEvents (at_ small .sleeping (oks 2) [false]) t :=
  ⟨⟨_, rfl, by decide⟩, ⟨_, rfl, by decide⟩⟩

theorem witness_CutCommandLeavesAnEventPrefix :
    (pending small [.writeCutByReset 0x60000000#32 3]).port = .writeCutByReset 0x60000000#32 3 :: [] ∧
    decode 0x60000000#32 = .ok .init ∧
    ∃ u, exec .init { pending small [.writeCutByReset 0x60000000#32 3] with port := [] } = .next u :=
  ⟨rfl, by decide, _, rfl⟩

theorem witness_inBounds :
    FbOk (State.resetOf big) ∧ inBounds big.toParams .r0 399 299 = true ∧ inBounds big.toParams .r90 299 399 = true ∧
    inBounds big.toParams .r180 0 0 = true ∧ inBounds big.toParams .r270 299 399 = true ∧
    inBounds big.toParams (State.resetOf big).rot 399 299 = true :=
  ⟨⟨rfl, rfl⟩, by decide, by decide, by decide, by decide, by decide⟩

theorem witness_outOfBounds :
    inBounds big.toParams (State.resetOf big).rot 400 0 = false ∧
    inBounds big.toParams (State.resetOf big).rot 0 300 = false := by decide

theorem witness_RotationIsABijection :
    inBounds big.toParams .r90 0 399 = true ∧ inBounds big.toParams .r90 299 0 = true ∧ 399 < big.pW ∧ 299 < big.pH := by
  decide

theorem witness_PackingIsABijection : 399 < big.pW ∧ 299 < big.pH ∧ 14999 < big.fbBytes ∧ 7 < 8 := by decide

theorem witness_FramebufferOperationsLeaveThePanelAlone :
    ∀ i ∈ [Instr.fbnew, .setrot .r90, .clear .black, .pset .black 0 0, .pget 0 0], isRefresh i = false := by decide

theorem witness_SendDataTrace : ([0x03#8] : List Byte) ≠ [] := by decide

theorem witness_IssueListStopsAtTheFirstError :
    LinesIdle (at_ small .awake (oks 3) []) ∧
    BusOk (commandPayloads ⟨0x11, [0x03]⟩).length (at_ small .awake (oks 3) []) ∧
    BusOk (listPayloads small.pp.initSeq).length (at_ small .awake (oks 3) []) ∧
    (1 < (commandPayloads ⟨0x11, [0x03]⟩).length ∧ BusFailsAfter 1 (at_ small .awake [.ok, .err] [])) ∧
    (0 < (listPayloads small.pp.initSeq).length ∧ BusFailsAfter 0 (at_ small .awake [.err] [])) ∧
    2 < (listPayloads small.pp.initSeq).length ∧ BusFailsAfter 2 (at_ small .awake [.ok, .ok, .err] []) :=
  ⟨at_lines .., rfl, rfl, ⟨by decide, rfl⟩, ⟨by decide, rfl⟩, by decide, rfl⟩

theorem witness_SendFrameSendsTheRows :
    0 < 4 ∧ 4 ≤ small.pH ∧ LinesIdle (at_ small .awake (oks 4) []) ∧
    BusOk ((frameChunks small.toParams [] 0 4).length + 1) (at_ small .awake (oks 4) []) ∧
    3 < (frameChunks small.toParams [] 0 4).length + 1 ∧ BusFailsAfter 3 (at_ small .awake [.ok, .ok, .ok, .err] []) :=
  ⟨by decide, by decide, at_lines .., rfl, by decide, rfl⟩

theorem witness_WaitIdleIsBounded :
    BusyFor (pollBound small.toParams 25 + 1) (at_ small .awake [] [true, true, true, true]) ∧
    (0 ≤ pollBound small.toParams 25 ∧ IdleAfter 0 (at_ small .awake [] [false])) ∧
    3 ≤ pollBound small.toParams 25 ∧ IdleAfter 3 (at_ small .awake [] [true, true, true, false]) :=
  ⟨rfl, ⟨by decide, rfl⟩, by decide, rfl⟩

theorem witness_GuardTable :
    (at_ small .uninit [] []).fsm ≠ .awake ∧ (at_ small .sleeping [] []).fsm ≠ .awake ∧
    (at_ small .uninit [] []).fsm = .uninit ∧ (at_ small .sleeping [] []).fsm = .sleeping ∧
    (at_ small .awake [] []).fsm = .awake ∧ 3 < 4 ∧ 4 ≤ small.pH := by decide

theorem witness_InitRuns :
    LinesIdle (at_ small .sleeping (oks 3) [true, true, true, false]) ∧
    BusOk (listPayloads small.pp.initSeq).length (at_ small .sleeping (oks 3) [true, true, true, false]) ∧
    IdleAfter 3 (at_ small .sleeping (oks 3) [true, true, true, false]) ∧ 3 ≤ pollBound small.toParams small.pTmoInit ∧
    BusyFor (pollBound small.toParams small.pTmoInit + 1) (at_ small .uninit (oks 3) [true, true, true, true]) ∧
    2 < (listPayloads small.pp.initSeq).length ∧ BusFailsAfter 2 (at_ small .awake [.ok, .ok, .err] []) :=
  ⟨at_lines .., rfl, rfl, by decide, rfl, by decide, rfl⟩

theorem witness_FullRuns :
    (at_ small .sleeping [] []).fsm ≠ .awake ∧ LinesIdle (at_ small .awake (oks 15) [true, false]) ∧
    BusOk (refreshPayloads small.toParams [] 0 small.pH small.pp.fullTrigger).length
      (at_ small .awake (oks 15) [true, false]) ∧
    IdleAfter 1 (at_ small .awake (oks 15) [true, false]) ∧ 1 ≤ pollBound small.toParams small.pTmoRefresh ∧
    BusyFor (pollBound small.toParams small.pTmoRefresh + 1) (at_ small .awake (oks 15) [true, true, true, true]) ∧
    14 < (refreshPayloads small.toParams [] 0 small.pH small.pp.fullTrigger).length ∧
    BusFailsAfter 14 (at_ small .awake (oks 14 ++ [.err]) []) :=
  ⟨by decide, at_lines .., rfl, rfl, by decide, rfl, by decide, rfl⟩

theorem witness_PartialRuns :
    8191 < 8192 ∧ (at_ small .uninit [] []).fsm ≠ .awake ∧ (¬ (3 < 5 ∧ 5 ≤ small.pH) ∧ ¬ (2 < 2 ∧ 2 ≤ small.pH)) ∧
    LinesIdle (at_ small .awake (oks 14) [false]) ∧ 1 < 3 ∧ 3 ≤ small.pH ∧ 4 ≤ small.pH ∧
    BusOk (refreshPayloads small.toParams [] 1 3 small.pp.partialTrigger).length (at_ small .awake (oks 14) [false]) ∧
    IdleAfter 0 (at_ small .awake (oks 14) [false]) ∧ 0 ≤ pollBound small.toParams small.pTmoRefresh ∧
    BusyFor (pollBound small.toParams small.pTmoRefresh + 1) (at_ small .awake (oks 14) [true, true, true, true]) ∧
    9 < (refreshPayloads small.toParams [] 1 3 small.pp.partialTrigger).length ∧
    BusFailsAfter 9 (at_ small .awake (oks 9 ++ [.err]) []) :=
  ⟨by decide, by decide, by decide, at_lines .., by decide, by decide, by decide, rfl, rfl, by decide, rfl,
    by decide, rfl⟩

theorem witness_SleepRuns :
    (at_ small .sleeping [] []).fsm = .sleeping ∧ (at_ small .uninit [] []).fsm = .uninit ∧
    LinesIdle (at_ small .awake (oks 2) []) ∧ BusOk (commandPayloads small.pp.sleepCmd).length (at_ small .awake (oks 2) []) ∧
    1 < (commandPayloads small.pp.sleepCmd).length ∧ BusFailsAfter 1 (at_ small .awake [.ok, .err] []) :=
  ⟨rfl, rfl, at_lines .., rfl, by decide, rfl⟩

theorem witness_WakeRuns :
    (at_ small .awake [] []).fsm = .awake ∧ (at_ small .uninit [] []).fsm = .uninit ∧
    LinesIdle (at_ small .sleeping (oks 2) [true, true, false]) ∧
    BusOk (listPayloads small.pp.wakeSeq).length (at_ small .sleeping (oks 2) [true, true, false]) ∧
    IdleAfter 2 (at_ small .sleeping (oks 2) [true, true, false]) ∧ 2 ≤ pollBound small.toParams small.pTmoWake ∧
    BusyFor (pollBound small.toParams small.pTmoWake + 1) (at_ small .sleeping (oks 2) [true, true, true]) ∧
    0 < (listPayloads small.pp.wakeSeq).length ∧ BusFailsAfter 0 (at_ small .sleeping [.err] []) :=
  ⟨rfl, rfl, at_lines .., rfl, rfl, by decide, rfl, by decide, rfl⟩

theorem witness_PartialByteCount :
    ∃ t, exec (.partialRefresh 0 small.pH) (at_ small .awake (oks 15) [false]) = .next t ∧
      1 ≤ samples (newEvents (at_ small .awake (oks 15) [false]) t) := ⟨_, rfl, by decide⟩

theorem witness_FsmTransitions :
    (∃ t, runCommand 0x90000000#32 (at_ small .awake (oks 2) []) = .next t ∧ t.fsm = .sleeping) ∧
    ∃ t, runCommand 0#32 (at_ small .awake [] []) = .next t ∧ t.fsm = .awake :=
  ⟨⟨_, rfl, by decide⟩, ⟨_, rfl, by decide⟩⟩

theorem witness_ResultCodesPerOperation :
    (∃ t, runCommand 0x70000000#32 (at_ small .awake [.err] []) = .next t ∧ t.result = .busTransportError) ∧
    ∃ t, runCommand 0xF0000000#32 (at_ small .awake [] []) = .next t ∧ t.result = .illegalCommand :=
  ⟨⟨_, rfl, by decide⟩, ⟨_, rfl, by decide⟩⟩

theorem witness_FieldsChangeThroughTheirOperationsOnly :
    (∃ t, runCommand 0x50000000#32 { at_ small .awake [] [] with fb := [(0, 0x80#8)] } = .next t ∧ t.pix ≠ .white) ∧
    (∃ t, runCommand 0x38000000#32 (at_ small .awake [] []) = .next t ∧ t.fb ≠ []) ∧
    (∃ t, runCommand 0x20000001#32 (at_ small .awake [] []) = .next t ∧ t.rot ≠ .r0) ∧
    (∃ t, runCommand 0x60000000#32 (at_ small .uninit (oks 3) [false]) = .next t ∧ t.fsm ≠ .uninit) ∧
    (∃ t, runCommand 0x90000000#32 (at_ small .awake [.err] []) = .next t ∧ t.unk ≠ false) ∧
    (∃ t, runCommand 0x90000000#32 { at_ small .awake (oks 2) [] with dc := false, cs := false } = .next t ∧
      t.dc ≠ false ∧ t.cs ≠ false) ∧
    ∃ t, runCommand 0x60000000#32 { at_ small .awake (oks 3) [false] with rst := false } = .next t ∧ t.rst ≠ false :=
  ⟨⟨_, rfl, by decide⟩, ⟨_, rfl, by decide⟩, ⟨_, rfl, by decide⟩, ⟨_, rfl, by decide⟩, ⟨_, rfl, by decide⟩,
    ⟨_, rfl, by decide⟩, _, rfl, by decide⟩

theorem witness_RefreshWritesNoFramebufferState :
    ∀ i ∈ [Instr.init, .full, .partialRefresh 0 1, .sleep, .wake], isRefresh i = true := by decide

theorem witness_OnlyASuccessfulInitClearsUnknown :
    ∃ t, exec .init { at_ small .uninit (oks 3) [false] with unk := true } = .next t ∧ t.unk = false ∧ t.result = .ok :=
  ⟨_, rfl, by decide, by decide⟩

theorem witness_HardwareErrorBookkeeping :
    (∃ t, exec .wake (at_ small .sleeping [.err] []) = .next t ∧ t.result = .busTransportError) ∧
    (∃ t, exec .full (at_ small .awake (oks 15) [true, true, true, true]) = .next t ∧ t.result = .busyTimeout) ∧
    (∃ t, exec .init (at_ small .awake (oks 3) [true, true, true, true]) = .next t ∧ t.result = .initTimeout) ∧
    ResultCode.initTimeout.errorClass = .hardware ∧ ResultCode.busyTimeout.errorClass = .hardware ∧
    ResultCode.busTransportError.errorClass = .hardware :=
  ⟨⟨_, rfl, by decide⟩, ⟨_, rfl, by decide⟩, ⟨_, rfl, by decide⟩, rfl, rfl, rfl⟩

theorem witness_LogicErrorsChangeOnlyTheResult :
    (∃ t, exec (.pset .black 16 0) (State.resetOf small) = .next t ∧ t.result.errorClass = .callerLogic) ∧
    ∃ t, exec .wake (State.resetOf small) = .next t ∧ t.result.errorClass = .callerLogic :=
  ⟨⟨_, rfl, by decide⟩, ⟨_, rfl, by decide⟩⟩

theorem witness_SleepingSendsNothingButWakeOrInit :
    ∃ t, exec .wake (at_ small .sleeping (oks 2) [false]) = .next t ∧
      newEvents (at_ small .sleeping (oks 2) [false]) t ≠ [] := ⟨_, rfl, by decide⟩

theorem witness_EveryOperationFramesItsTransactions :
    LinesIdle (at_ small .awake (oks 15) [false]) ∧
    ∃ t, exec .full (at_ small .awake (oks 15) [false]) = .next t ∧
      transactions (newEvents (at_ small .awake (oks 15) [false]) t) = 15 := ⟨at_lines .., _, rfl, by decide⟩

theorem witness_DelayTotals :
    (∃ t, exec .sleep (at_ small .awake (oks 2) []) = .next t ∧ t.result = .ok ∧
      delayTotal (newEvents (at_ small .awake (oks 2) []) t) = 7) ∧
    (∃ t, exec .sleep (at_ small .awake [.err] []) = .next t ∧ t.result = .busTransportError) ∧
    ∃ t, exec .init (at_ small .awake [.err] []) = .next t ∧ t.result = .busTransportError ∧
      delayTotal (newEvents (at_ small .awake [.err] []) t) = 20 :=
  ⟨⟨_, rfl, by decide, by decide⟩, ⟨_, rfl, by decide⟩, ⟨_, rfl, by decide, by decide⟩⟩

theorem witness_RefreshIgnoresRotationAndPixel :
    isRefresh .full = true ∧ ∃ t, exec .full (at_ small .awake (oks 15) [false]) = .next t ∧ t.result = .ok :=
  ⟨rfl, _, rfl, by decide⟩

theorem witness_PartialDependsOnItsRowsOnly :
    (∀ a, 1 * small.rowBytes ≤ a → a < 3 * small.rowBytes → Memory.read [(0, 0xFF#8), (7, 0xFF#8)] a = Memory.read [] a) ∧
    ∃ t, exec (.partialRefresh 1 3) (at_ small .awake (oks 14) [false]) = .next t ∧ t.result = .ok := by
  refine ⟨fun a h₁ h₂ => ?_, _, rfl, by decide⟩
  have h₁ : 2 ≤ a := h₁
  have h₂ : a < 6 := h₂
  simp [Memory.read, show 0 ≠ a by omega, show 7 ≠ a by omega]

theorem witness_UnknownFlagBlocksNothing :
    ∃ t, exec .full (at_ small .awake (oks 15) [false]) = .next t ∧ t.result = .ok := ⟨_, rfl, by decide⟩

theorem witness_StepsOnlyAppendToTheTrace :
    ∃ t, step { at_ small .awake (oks 2) [] with port := [.write 32 0x0 0x90000000#32] } = .next t ∧ t.trace ≠ [] :=
  ⟨_, rfl, by decide⟩

theorem witness_StepsKeepTheInvariant :
    Invariant { at_ small .awake (oks 15) [false] with port := [.write 32 0x0 0x70000000#32] } ∧
    ∃ t, step { at_ small .awake (oks 15) [false] with port := [.write 32 0x0 0x70000000#32] } = .next t ∧ t.result = .ok :=
  ⟨⟨⟨rfl, rfl⟩, ⟨rfl, rfl, rfl⟩⟩, _, rfl, by decide⟩

/-- A command whose write has just been sent when the reset cuts it, so that its transaction is still open. -/
theorem witness_StepsKeepTheTraceFramed :
    TraceOk { at_ small .awake (oks 2) [] with port := [.writeCutByReset 0x90000000#32 3] } ∧
    ∃ t, step { at_ small .awake (oks 2) [] with port := [.writeCutByReset 0x90000000#32 3] } = .next t ∧
      transactions t.trace = 1 := ⟨⟨⟨rfl, rfl, rfl⟩, rfl, rfl⟩, _, rfl, by decide⟩

/-- One redundant set dropped, one kept, and a sample kept. -/
theorem witness_ObservableTraceIsNormal :
    observable ⟨true, true, true⟩ [.pin .dc true, .pin .cs false, .busy true] = [.pin .cs false, .busy true] := by decide

end Sys2Proof.Machine.Tests
end

/-! ## The state and its fields: proofs of the statements of 10_state.md -/

namespace Sys2Proof.Machine

/-! ### The reset values (R36) -/

/-- The framebuffer after reset reads 0x00 at every index (R36). -/
theorem State.resetOf_fb_read (c : Config) (i : Nat) : (State.resetOf c).fb.read i = 0x00#8 :=
  Memory.read_unlisted (by simp [State.resetOf])

/-- Settles O14: the fields of `resetOf` one by one, and the framebuffer by its list of no entries. -/
theorem resetValues : Obligations.ResetValues :=
  ⟨rfl, fun c => ⟨rfl, rfl, rfl, State.resetOf_fb_read c, rfl, rfl, rfl, rfl, rfl, rfl⟩⟩

/-! ### The `STATUS` image (R26) -/

/-- The fields of five bit strings joined and widened to 32 bits, lowest first (the layout of R26). -/
theorem extractLsb'_statusLayout (u p : BitVec 1) (r f : BitVec 2) (e : BitVec 4) :
    ((u ++ p ++ r ++ f ++ e).setWidth 32).extractLsb' 0 4 = e ∧
    ((u ++ p ++ r ++ f ++ e).setWidth 32).extractLsb' 4 2 = f ∧
    ((u ++ p ++ r ++ f ++ e).setWidth 32).extractLsb' 6 2 = r ∧
    ((u ++ p ++ r ++ f ++ e).setWidth 32).extractLsb' 8 1 = p ∧
    ((u ++ p ++ r ++ f ++ e).setWidth 32).extractLsb' 9 1 = u ∧
    ((u ++ p ++ r ++ f ++ e).setWidth 32).extractLsb' 10 22 = 0#22 := by
  refine ⟨?result, ?fsm, ?rot, ?pix, ?unk, ?reserved⟩
  case reserved =>
    ext k hk
    simp
  all_goals rw [BitVec.extractLsb'_setWidth_of_le (by decide)]
  case result => exact BitVec.extractLsb'_append_eq_right
  all_goals rw [BitVec.extractLsb'_append_eq_of_le (by decide)]
  case fsm => exact BitVec.extractLsb'_append_eq_right
  all_goals rw [BitVec.extractLsb'_append_eq_of_le (by decide)]
  case rot => exact BitVec.extractLsb'_append_eq_right
  all_goals rw [BitVec.extractLsb'_append_eq_of_le (by decide)]
  case pix => exact BitVec.extractLsb'_append_eq_right
  case unk => exact BitVec.extractLsb'_append_eq_left

/-- The image holds each field at its bits, and 0 above them (R26). -/
theorem State.status_fields (s : State) :
    s.status.extractLsb' 0 4 = s.result.code ∧ s.status.extractLsb' 4 2 = s.fsm.code ∧
    s.status.extractLsb' 6 2 = s.rot.code ∧ s.status.extractLsb' 8 1 = s.pix.code ∧
    s.status.extractLsb' 9 1 = BitVec.ofBool s.unk ∧ s.status.extractLsb' 10 22 = 0#22 :=
  extractLsb'_statusLayout ..

/-- A step at a 32-bit read answers what `readPort` returns and takes the read from the queue (R25, R27). -/
theorem step_read {s : State} {off : Nat} {rest : List HostInput} (h : s.port = .read 32 off :: rest) :
    step s = .next { s with port := rest, replies := s.replies ++ [readPort off s] } := by
  rw [step_serves h]
  rfl

/-- Settles O10: the step answers the image, whose fields are read back one by one. -/
theorem statusReadReturnsTheImage : Obligations.StatusReadReturnsTheImage :=
  fun s _ h => ⟨s.status, step_read h, s.status_fields⟩

/-! ### Which operation changes which field (R22, R33) -/

/-- How a command word ends: as the instruction it decodes to, or as an `Illegal` word (R78, R79). -/
theorem runCommand_cases {w : Word} {s t : State} (h : runCommand w s = .next t) :
    (∃ i, decode w = .ok i ∧ exec i s = .next t) ∨ (∃ e, decode w = .error e ∧ t = s.illegal) := by
  unfold runCommand at h
  split at h
  · next i hi => exact .inl ⟨i, hi, h⟩
  · next e he => exact .inr ⟨e, he, (Host.Outcome.next.inj h).symm⟩

@[simp] theorem fbnew_pix (s : State) : (fbnew s).pix = s.pix := rfl

@[simp] theorem setRotation_pix (r : Rotation) (s : State) : (setRotation r s).pix = s.pix := rfl

@[simp] theorem clearTo_pix (c : Color) (s : State) : (clearTo c s).pix = s.pix := rfl

@[simp] theorem setRotation_fb (r : Rotation) (s : State) : (setRotation r s).fb = s.fb := rfl

@[simp] theorem clearTo_rot (c : Color) (s : State) : (clearTo c s).rot = s.rot := rfl

@[simp] theorem pixelSet_rot (c : Color) (x y : Nat) (s : State) : (pixelSet c x y s).rot = s.rot := by
  unfold pixelSet; split <;> rfl

@[simp] theorem pixelSet_pix (c : Color) (x y : Nat) (s : State) : (pixelSet c x y s).pix = s.pix := by
  unfold pixelSet; split <;> rfl

@[simp] theorem pixelGet_fb (x y : Nat) (s : State) : (pixelGet x y s).fb = s.fb := by
  unfold pixelGet; split <;> rfl

@[simp] theorem pixelGet_rot (x y : Nat) (s : State) : (pixelGet x y s).rot = s.rot := by
  unfold pixelGet; split <;> rfl

/-- Events that set no reset line leave its level. -/
theorem Lines.foldl_after_rst {evs : List Event} (h : ∀ l, .pin .rst l ∉ evs) (ls : Lines) :
    (evs.foldl Lines.after ls).rst = ls.rst := by
  induction evs generalizing ls with
  | nil => rfl
  | cons e rest ih =>
    rw [List.foldl_cons, ih fun l hl => h l (List.mem_cons_of_mem _ hl)]
    cases e with
    | pin p l =>
      cases p with
      | rst => exact absurd (List.mem_cons_self ..) (h l)
      | dc => rfl
      | cs => rfl
    | write bs r => rfl
    | busy l => rfl
    | delay ms => rfl

/-- Replayed events that set no reset line leave its level. -/
theorem State.replay_rst_of_notMem {evs : List Event} (h : ∀ l, .pin .rst l ∉ evs) (s : State) :
    (s.replay evs).rst = s.rst := by
  rw [show (s.replay evs).rst = (s.replay evs).lines.rst from rfl, State.replay_lines, Lines.foldl_after_rst h]
  rfl

theorem pin_notMem_pollEvents (p : Params) (n : Nat) (line : Line) (l : Level) : .pin line l ∉ pollEvents p n := by
  intro h
  rcases mem_pollEvents h with h | h <;> cases h

theorem pin_notMem_delayEvents (ms : Nat) (line : Line) (l : Level) : .pin line l ∉ delayEvents ms := by
  unfold delayEvents
  split <;> simp

/-- A refresh operation that does not pulse the reset line sets it nowhere (R231). -/
theorem Ending.pin_rst_notMem {i : Instr} {s : State} {evs : List Event} {f : Fsm} {u : Bool} {r : ResultCode}
    (h : Ending i s evs f u r) (hp : pulses i = false) (l : Level) : .pin .rst l ∉ evs := by
  cases h with
  | guarded => simp
  | waited _ _ _ _ hev => simp [pulseOf, hp, hev.noReset l, pin_notMem_pollEvents]
  | slept _ _ hev => simp [hev.noReset l, pin_notMem_delayEvents]
  | timedOut _ _ _ hev => simp [pulseOf, hp, hev.noReset l, pin_notMem_pollEvents]
  | busFailed _ _ _ _ hev => simp [pulseOf, hp, hev.noReset l]

/-- FULL and PARTIAL wait in `AWAKE` only (R160). -/
theorem awake_of_waitTimeout {i : Instr} {s : State} {timeout : Nat} (h : waitTimeout s i = some timeout)
    (hp : pulses i = false) : s.fsm = .awake := by
  cases i with
  | full => simp only [waitTimeout] at h; split at h <;> simp_all
  | partialRefresh ys ye => simp only [waitTimeout] at h; split at h <;> simp_all
  | init => cases hp
  | wake => cases hp
  | _ => cases h

/-- FULL and PARTIAL leave the FSM where it was, however they end (R187). -/
theorem Ending.fsm_eq {i : Instr} {s : State} {evs : List Event} {f : Fsm} {u : Bool} {r : ResultCode}
    (h : Ending i s evs f u r) (hp : pulses i = false) (hs : i ≠ .sleep) : f = s.fsm := by
  cases h with
  | guarded => rfl
  | waited _ _ _ hw => exact (awake_of_waitTimeout hw hp).symm
  | slept hi => exact absurd hi hs
  | timedOut => simp [hp]
  | busFailed => simp [hp]

/-- No refresh operation writes the framebuffer, the rotation, the pixel, the configuration or the host's side (R186). -/
theorem Ends.keeps {i : Instr} {s t : State} (h : Ends i s t) :
    t.fb = s.fb ∧ t.rot = s.rot ∧ t.pix = s.pix ∧ t.cfg = s.cfg ∧ t.port = s.port ∧ t.replies = s.replies := by
  obtain ⟨evs, f, u, r, rfl, -⟩ := h
  simp

/-- A refresh operation that does not pulse the reset line leaves its level (R231). -/
theorem Ends.rst_eq {i : Instr} {s t : State} (h : Ends i s t) (hp : pulses i = false) : t.rst = s.rst := by
  obtain ⟨evs, f, u, r, rfl, he⟩ := h
  exact State.replay_rst_of_notMem (he.pin_rst_notMem hp) s

/-- FULL and PARTIAL leave the FSM where it was (R187). -/
theorem Ends.fsm_eq {i : Instr} {s t : State} (h : Ends i s t) (hp : pulses i = false) (hs : i ≠ .sleep) :
    t.fsm = s.fsm := by
  obtain ⟨evs, f, u, r, rfl, he⟩ := h
  exact he.fsm_eq hp hs

/-- Each field but the result is written by its own operations at most (R22, R33): what `i`, run from `s` to `t`, may have
changed. -/
structure ChangesOwnFields (i : Instr) (s t : State) : Prop where
  pix : t.pix ≠ s.pix → (∃ x y, i = .pget x y) ∧ t.result = .ok
  fb : t.fb ≠ s.fb → i = .fbnew ∨ (∃ c, i = .clear c) ∨ ∃ c x y, i = .pset c x y
  rot : t.rot ≠ s.rot → i = .fbnew ∨ ∃ r, i = .setrot r
  fsm : t.fsm ≠ s.fsm → i = .init ∨ i = .sleep ∨ i = .wake
  unk : t.unk ≠ s.unk → isRefresh i = true
  lines : t.dc ≠ s.dc ∨ t.cs ≠ s.cs → isRefresh i = true
  rst : t.rst ≠ s.rst → i = .init ∨ i = .wake
  cfg : t.cfg = s.cfg

/-- Of the framebuffer operations only a PGET that succeeds changes the pixel (R33, R115, R116). -/
theorem exec_framebuffer_pix {i : Instr} {s t : State} (h : isRefresh i = false) (he : exec i s = .next t)
    (hp : t.pix ≠ s.pix) : (∃ x y, i = .pget x y) ∧ t.result = .ok := by
  constructor
  · cases i with
    | pget x y => exact ⟨x, y, rfl⟩
    | fbnew | setrot _ | clear _ | pset _ _ _ => cases he; simp at hp
    | _ => cases h
  · obtain ⟨-, -, hfail⟩ := exec_framebuffer h he
    by_contra hr
    exact hp (by rw [hfail hr])

/-- Of the framebuffer operations only FBNEW, CLEAR and PSET change the framebuffer (R100, R106, R110). -/
theorem exec_framebuffer_fb {i : Instr} {s t : State} (h : isRefresh i = false) (he : exec i s = .next t)
    (hf : t.fb ≠ s.fb) : i = .fbnew ∨ (∃ c, i = .clear c) ∨ ∃ c x y, i = .pset c x y := by
  cases i with
  | fbnew => exact .inl rfl
  | clear c => exact .inr (.inl ⟨c, rfl⟩)
  | pset c x y => exact .inr (.inr ⟨c, x, y, rfl⟩)
  | setrot _ | pget _ _ => cases he; simp at hf
  | _ => cases h

/-- Of the framebuffer operations only FBNEW and SETROT change the rotation (R100, R103). -/
theorem exec_framebuffer_rot {i : Instr} {s t : State} (h : isRefresh i = false) (he : exec i s = .next t)
    (hr : t.rot ≠ s.rot) : i = .fbnew ∨ ∃ r, i = .setrot r := by
  cases i with
  | fbnew => exact .inl rfl
  | setrot r => exact .inr ⟨r, rfl⟩
  | clear _ | pset _ _ _ | pget _ _ => cases he; simp at hr
  | _ => cases h

/-- A framebuffer operation (R100 to R119) leaves the FSM, the panel flag, the lines and the configuration. -/
theorem ChangesOwnFields.of_framebuffer {i : Instr} {s t : State} (h : isRefresh i = false) (he : exec i s = .next t) :
    ChangesOwnFields i s t := by
  obtain ⟨ht, -, -⟩ := exec_framebuffer h he
  have hfsm : t.fsm = s.fsm := by rw [ht]
  have hunk : t.unk = s.unk := by rw [ht]
  have hdc : t.dc = s.dc := by rw [ht]
  have hcs : t.cs = s.cs := by rw [ht]
  have hrst : t.rst = s.rst := by rw [ht]
  exact
    { pix := exec_framebuffer_pix h he
      fb := exec_framebuffer_fb h he
      rot := exec_framebuffer_rot h he
      fsm := (absurd hfsm ·)
      unk := (absurd hunk ·)
      lines := fun hl => hl.elim (absurd hdc) (absurd hcs)
      rst := (absurd hrst ·)
      cfg := by rw [ht] }

/-- A refresh operation (R160 to R187) leaves the framebuffer, the rotation and the pixel, FULL and PARTIAL also the FSM,
and all but INIT and WAKE the reset line. -/
theorem ChangesOwnFields.of_ends {i : Instr} {s t : State} (h : isRefresh i = true) (he : Ends i s t) :
    ChangesOwnFields i s t := by
  obtain ⟨hfb, hrot, hpix, hcfg, -, -⟩ := he.keeps
  refine ⟨(absurd hpix ·), (absurd hfb ·), (absurd hrot ·), fun hf => ?fsm, fun _ => h, fun _ => h,
    fun hr => ?rst, hcfg⟩
  case fsm =>
    cases i with
    | init => exact .inl rfl
    | sleep => exact .inr (.inl rfl)
    | wake => exact .inr (.inr rfl)
    | full | partialRefresh _ _ => exact absurd (he.fsm_eq rfl nofun) hf
    | _ => cases h
  case rst =>
    cases i with
    | init => exact .inl rfl
    | wake => exact .inr rfl
    | full | partialRefresh _ _ | sleep => exact absurd (he.rst_eq rfl) hr
    | _ => cases h

/-- Every host operation changes its own fields only (R22, R33). -/
theorem exec_changesOwnFields {i : Instr} {s t : State} (he : exec i s = .next t) : ChangesOwnFields i s t := by
  cases h : isRefresh i with
  | false => exact .of_framebuffer h he
  | true =>
    obtain ⟨u, hu, hends⟩ := exec_ends h s
    obtain rfl : u = t := Host.Outcome.next.inj (hu.symm.trans he)
    exact .of_ends h hends

/-- Settles O44: a word that decodes runs its instruction, which changes its own fields only, and an `Illegal` word
writes nothing but the result (R79). -/
theorem fieldsChangeThroughTheirOperationsOnly : Obligations.FieldsChangeThroughTheirOperationsOnly := by
  intro w s t hrun
  rcases runCommand_cases hrun with ⟨i, hi, he⟩ | ⟨e, -, rfl⟩
  · have h := exec_changesOwnFields he
    simp only [hi, Except.ok.injEq]
    refine ⟨fun hp => ?_, h.fb, h.rot, h.fsm, fun hu => ⟨i, rfl, h.unk hu⟩, fun hl => ⟨i, rfl, h.lines hl⟩,
      h.rst, h.cfg⟩
    obtain ⟨⟨x, y, hxy⟩, hok⟩ := h.pix hp
    exact ⟨x, y, hxy, hok⟩
  · simp

end Sys2Proof.Machine

/-! ## The memory and the panel trace: proofs of the statements of 20_memory.md -/

namespace Sys2Proof.Machine

/-! ### The observable trace (R58) -/

/-- A redundant event leaves the lines as it finds them. -/
theorem Lines.after_of_redundant {ls : Lines} {e : Event} (h : e.redundant ls = true) : ls.after e = ls := by
  cases e with
  | pin p l =>
    obtain rfl : ls.level p = l := of_decide_eq_true h
    cases p <;> rfl
  | write bs r => cases h
  | busy l => cases h
  | delay ms => cases h

/-- Only a line set is redundant. -/
theorem Event.isPin_of_redundant {ls : Lines} {e : Event} (h : e.redundant ls = true) : e.isPin = true := by
  cases e with
  | pin p l => rfl
  | write bs r => cases h
  | busy l => cases h
  | delay ms => cases h

@[simp] theorem observable_nil (ls : Lines) : observable ls [] = [] := rfl

theorem observable_cons_of_redundant {ls : Lines} {e : Event} (h : e.redundant ls = true) (rest : List Event) :
    observable ls (e :: rest) = observable ls rest := if_pos h

theorem observable_cons_of_not_redundant {ls : Lines} {e : Event} (h : e.redundant ls = false) (rest : List Event) :
    observable ls (e :: rest) = e :: observable (ls.after e) rest := if_neg (by simp [h])

/-- An event goes out of the observable trace or stays in it; either way the rest is read at the lines after it. -/
theorem observable_cons (ls : Lines) (e : Event) (rest : List Event) :
    observable ls (e :: rest) = (if e.redundant ls then [] else [e]) ++ observable (ls.after e) rest := by
  cases h : e.redundant ls with
  | true => rw [observable_cons_of_redundant h, Lines.after_of_redundant h]; rfl
  | false => rw [observable_cons_of_not_redundant h]; rfl

/-- The observable trace of one recorded trace after another. -/
theorem observable_append (ls : Lines) (a b : List Event) :
    observable ls (a ++ b) = observable ls a ++ observable (a.foldl Lines.after ls) b := by
  induction a generalizing ls with
  | nil => rfl
  | cons e rest ih =>
    rw [List.cons_append, observable_cons, ih, observable_cons, List.append_assoc, List.foldl_cons]

/-- Events are left out and none is added or moved. -/
theorem observable_sublist (ls : Lines) (evs : List Event) : (observable ls evs).Sublist evs := by
  induction evs generalizing ls with
  | nil => exact .slnil
  | cons e rest ih =>
    cases h : e.redundant ls with
    | true => rw [observable_cons_of_redundant h]; exact (ih ls).cons e
    | false => rw [observable_cons_of_not_redundant h]; exact (ih _).cons_cons e

/-- No redundant event is left. -/
theorem noRedundant_observable (ls : Lines) (evs : List Event) : noRedundant ls (observable ls evs) = true := by
  induction evs generalizing ls with
  | nil => rfl
  | cons e rest ih =>
    cases h : e.redundant ls with
    | true => rw [observable_cons_of_redundant h]; exact ih ls
    | false => rw [observable_cons_of_not_redundant h]; simp [noRedundant, h, ih]

/-- A trace without redundant events is its own observable trace. -/
theorem observable_eq_self {ls : Lines} {evs : List Event} (h : noRedundant ls evs = true) : observable ls evs = evs := by
  induction evs generalizing ls with
  | nil => rfl
  | cons e rest ih =>
    simp only [noRedundant, Bool.and_eq_true, Bool.not_eq_true'] at h
    obtain ⟨he, hrest⟩ := h
    rw [observable_cons_of_not_redundant he, ih hrest]

/-- Every write, sample and delay is kept, in order. -/
theorem observable_filter_not_isPin (ls : Lines) (evs : List Event) :
    (observable ls evs).filter (fun e => !e.isPin) = evs.filter (fun e => !e.isPin) := by
  induction evs generalizing ls with
  | nil => rfl
  | cons e rest ih =>
    cases h : e.redundant ls with
    | true => rw [observable_cons_of_redundant h, ih, List.filter_cons_of_neg (by simp [Event.isPin_of_redundant h])]
    | false => rw [observable_cons_of_not_redundant h, List.filter_cons, List.filter_cons, ih]

/-- The observable trace leads the lines where the recorded one does. -/
theorem foldl_after_observable (ls : Lines) (evs : List Event) :
    (observable ls evs).foldl Lines.after ls = evs.foldl Lines.after ls := by
  induction evs generalizing ls with
  | nil => rfl
  | cons e rest ih =>
    cases h : e.redundant ls with
    | true => rw [observable_cons_of_redundant h, ih, List.foldl_cons, Lines.after_of_redundant h]
    | false => rw [observable_cons_of_not_redundant h, List.foldl_cons, List.foldl_cons, ih]

/-- Settles O56: each clause by induction on the recorded trace; the cut at an event by `observable_append`. -/
theorem observableTraceIsNormal : Obligations.ObservableTraceIsNormal := by
  intro ls evs
  refine ⟨observable_sublist ls evs, noRedundant_observable ls evs, ?cut, observable_filter_not_isPin ls evs,
    observable_eq_self (noRedundant_observable ls evs), foldl_after_observable ls evs⟩
  rintro pre e post rfl
  rw [observable_append, observable_cons, List.append_assoc, List.foldl_append, List.foldl_cons, List.foldl_nil]

/-! ### Overwriting what an operation does not read

`Overlay d` says that `d` overwrites fields which the refresh operations read nowhere, but for the framebuffer's bytes in
`sendFrame`. A micro-operation commutes with such a `d`; an operation, whose end may write `S.unk` itself, does so up to a
last `d`. -/

/-- The end of a refresh operation: its result, and the FSM state and the panel flag where it writes them. -/
def State.finish (s : State) (f : Option Fsm) (u : Option Bool) (r : ResultCode) : State :=
  { s with fsm := f.getD s.fsm, unk := u.getD s.unk, result := r }

/-- `d` overwrites fields that no guard, no transaction and no wait reads, and that an operation's end does not carry into
another field. -/
structure Overlay (d : State → State) : Prop where
  cfg : ∀ s, (d s).cfg = s.cfg
  fsm : ∀ s, (d s).fsm = s.fsm
  nextBusResult : ∀ s, (d s).nextBusResult = s.nextBusResult
  nextBusyLevel : ∀ s, (d s).nextBusyLevel = s.nextBusyLevel
  replayEvent : ∀ s e, (d s).replayEvent e = d (s.replayEvent e)
  finish : ∀ s f u r, d ((d s).finish f u r) = d (s.finish f u r)

/-- Another rotation and pixel. -/
theorem Overlay.rotPix (r : Rotation) (c : Color) : Overlay fun s => { s with rot := r, pix := c } where
  cfg _ := rfl
  fsm _ := rfl
  nextBusResult _ := rfl
  nextBusyLevel _ := rfl
  replayEvent _ e := by rcases e with ⟨_ | _ | _, _⟩ | _ | _ | _ <;> rfl
  finish _ _ _ _ := rfl

/-- Another framebuffer. -/
theorem Overlay.fb (m : Memory) : Overlay fun s => { s with fb := m } where
  cfg _ := rfl
  fsm _ := rfl
  nextBusResult _ := rfl
  nextBusyLevel _ := rfl
  replayEvent _ e := by rcases e with ⟨_ | _ | _, _⟩ | _ | _ | _ <;> rfl
  finish _ _ _ _ := rfl

/-- Another panel flag. -/
theorem Overlay.unk (b : Bool) : Overlay fun s => { s with unk := b } where
  cfg _ := rfl
  fsm _ := rfl
  nextBusResult _ := rfl
  nextBusyLevel _ := rfl
  replayEvent _ e := by rcases e with ⟨_ | _ | _, _⟩ | _ | _ | _ <;> rfl
  finish _ _ _ _ := rfl

/-- `d` alters no byte of `[a, a + n)` in a state whose framebuffer is `m`. -/
def KeepsBytes (d : State → State) (m : Memory) (a n : Nat) : Prop :=
  ∀ t : State, t.fb = m → ∀ i, a ≤ i → i < a + n → (d t).fb.read i = m.read i

theorem KeepsBytes.mono {d : State → State} {m : Memory} {a n a' n' : Nat} (h : KeepsBytes d m a n) (ha : a ≤ a')
    (hn : a' + n' ≤ a + n) : KeepsBytes d m a' n' :=
  fun t ht i h₁ h₂ => h t ht i (ha.trans h₁) (h₂.trans_le hn)

theorem KeepsBytes.frameBytes {d : State → State} {s : State} {a n : Nat} (h : KeepsBytes d s.fb a n) :
    frameBytes (d s).fb a n = frameBytes s.fb a n := by
  refine List.map_congr_left fun i hi => ?_
  obtain ⟨h₁, h₂⟩ := List.mem_range'_1.1 hi
  exact h s rfl i h₁ h₂

/-- `d` alters no byte of the native rows `[y0, y1)` of the framebuffer of `s`. -/
def KeepsRows (d : State → State) (s : State) (y0 y1 : Nat) : Prop :=
  KeepsBytes d s.fb (y0 * s.cfg.rowBytes) (y1 * s.cfg.rowBytes - y0 * s.cfg.rowBytes)

theorem KeepsRows.of_fb_eq {d : State → State} (h : ∀ t, (d t).fb = t.fb) (s : State) (y0 y1 : Nat) :
    KeepsRows d s y0 y1 := by
  intro t ht i _ _
  rw [h, ht]

/-- A micro-operation moves neither the framebuffer nor the rows in it. -/
theorem KeepsRows.of_microFrame {d : State → State} {s t : State} {y0 y1 : Nat} (h : KeepsRows d s y0 y1)
    (hf : MicroFrame s t) : KeepsRows d t y0 y1 := by
  unfold KeepsRows
  rwa [hf.fb, hf.cfg]

/-- `d` on the state a micro-operation leaves, under the same reply. -/
def Micro.map (d : State → State) (m : Micro) : Micro := (m.1, d m.2)

/-- A sequence commutes with `d` when its second part does. -/
theorem Micro.map_andThen {d : State → State} {m : Micro} {k k' : State → Micro}
    (hk : k' (d m.2) = (k m.2).map d) : (m.map d).andThen k' = (m.andThen k).map d := by
  obtain ⟨r, t⟩ := m
  cases r with
  | ok => exact hk
  | err e => rfl

/-! ### The micro-operations under an overlay (R130 to R141) -/

section
variable {d : State → State} (h : Overlay d)
include h

theorem Overlay.replay (s : State) (evs : List Event) : (d s).replay evs = d (s.replay evs) := by
  induction evs generalizing s with
  | nil => rfl
  | cons e rest ih => rw [State.replay_cons, State.replay_cons, h.replayEvent, ih]

theorem Overlay.delay (s : State) (ms : Nat) : (d s).delay ms = d (s.delay ms) := by
  rw [State.delay_eq_replay, State.delay_eq_replay, h.replay]

theorem Overlay.resetPulse (s : State) : resetPulse (d s) = d (resetPulse s) := by
  rw [resetPulse_eq, resetPulse_eq, h.cfg, h.replay]

theorem Overlay.readBusy (s : State) : (d s).readBusy = (s.nextBusyLevel, d s.readBusy.2) := by
  refine Prod.ext (h.nextBusyLevel s) ?_
  rw [State.readBusy_eq_replay, State.readBusy_eq_replay, h.nextBusyLevel, h.replay]

theorem Overlay.sendCommand (op : Byte) (s : State) : sendCommand op (d s) = (sendCommand op s).map d := by
  rw [sendCommand_eq, sendCommand_eq, h.cfg, h.nextBusResult, h.replay]
  rfl

theorem Overlay.sendData (bs : List Byte) (s : State) : sendData bs (d s) = (sendData bs s).map d := by
  by_cases hbs : bs = []
  · subst hbs; rfl
  · rw [sendData_eq hbs, sendData_eq hbs, h.cfg, h.nextBusResult, h.replay]
    rfl

theorem Overlay.issue (c : Command) (s : State) : issue c (d s) = (issue c s).map d := by
  unfold Machine.issue
  rw [h.sendCommand]
  exact Micro.map_andThen (h.sendData ..)

theorem Overlay.issueList (l : List Command) (s : State) : issueList l (d s) = (issueList l s).map d := by
  induction l generalizing s with
  | nil => rfl
  | cons c rest ih =>
    unfold Machine.issueList
    rw [h.issue]
    exact Micro.map_andThen (ih _)

theorem Overlay.waitLoop (timeout fuel elapsed : Nat) (s : State) :
    waitLoop timeout fuel elapsed (d s) = (waitLoop timeout fuel elapsed s).map d := by
  induction fuel generalizing elapsed s with
  | zero => rfl
  | succ fuel ih =>
    simp only [Machine.waitLoop, h.readBusy, h.cfg, h.delay, ih, State.readBusy_fst]
    by_cases hb : isBusy s.cfg.toParams s.nextBusyLevel = true
    · by_cases ht : timeout ≤ elapsed
      · simp only [hb, ht, if_true]; rfl
      · simp only [hb, ht, if_true, if_false]
    · simp only [hb]; rfl

theorem Overlay.waitIdle (timeout : Nat) (s : State) : waitIdle timeout (d s) = (waitIdle timeout s).map d :=
  h.waitLoop ..

theorem Overlay.wakeSequence (l : List Command) (timeout : Nat) (s : State) :
    wakeSequence l timeout (d s) = (wakeSequence l timeout s).map d := by
  unfold Machine.wakeSequence
  rw [h.resetPulse, h.issueList]
  exact Micro.map_andThen (h.waitIdle ..)

theorem Overlay.refreshPhase (trigger : List Command) (s : State) :
    refreshPhase trigger (d s) = (refreshPhase trigger s).map d := by
  unfold Machine.refreshPhase
  rw [h.issueList, h.cfg]
  exact Micro.map_andThen (h.waitIdle ..)

/-- The data transactions read the bytes they send and no others (R138). -/
theorem Overlay.sendChunks (fuel a left : Nat) (s : State) (hb : KeepsBytes d s.fb a left) :
    sendChunks fuel a left (d s) = (sendChunks fuel a left s).map d := by
  induction fuel generalizing a left s with
  | zero => rfl
  | succ fuel ih =>
    unfold Machine.sendChunks
    split
    · rfl
    · have hn : min s.cfg.pChunk left ≤ left := Nat.min_le_right ..
      dsimp only
      rw [h.cfg, (hb.mono le_rfl (by omega)).frameBytes, h.sendData]
      refine Micro.map_andThen (ih _ _ _ ?_)
      rw [(MicroFrame.sendData ..).fb]
      exact hb.mono (by omega) (by omega)

theorem Overlay.sendFrame (y0 y1 : Nat) (s : State) (hb : KeepsRows d s y0 y1) :
    sendFrame y0 y1 (d s) = (sendFrame y0 y1 s).map d := by
  unfold Machine.sendFrame
  dsimp only
  rw [h.cfg, h.sendCommand]
  refine Micro.map_andThen (h.sendChunks _ _ _ _ ?_)
  rwa [(MicroFrame.sendCommand ..).fb]

/-- The sequence of FULL and of PARTIAL reads the bytes of its rows and no others (R139). -/
theorem Overlay.refreshSequence (y0 y1 : Nat) (trigger : List Command) (s : State) (hb : KeepsRows d s y0 y1) :
    refreshSequence y0 y1 trigger (d s) = (refreshSequence y0 y1 trigger s).map d := by
  unfold Machine.refreshSequence
  rw [h.cfg, h.issueList, Micro.map_andThen (h.sendFrame ..)]
  · exact Micro.map_andThen (h.refreshPhase ..)
  · exact hb.of_microFrame (MicroFrame.issueList ..)

/-! ### The refresh operations under an overlay (R160 to R181) -/

/-- An operation that ends at its guard with `r`. -/
theorem Overlay.raise (s : State) (r : ResultCode) : d ((d s).raise r) = d (s.raise r) := h.finish s none none r

theorem Overlay.initPanel (s : State) : d (initPanel (d s)) = d (initPanel s) := by
  unfold Machine.initPanel
  rw [h.cfg, h.wakeSequence]
  generalize Machine.wakeSequence _ _ s = m
  obtain ⟨r, t⟩ := m
  cases r with
  | ok => exact h.finish t (some .awake) (some false) .ok
  | err e => exact h.finish t (some .uninit) (some true) (e.resultCode .initTimeout)

theorem Overlay.finishRefresh (m : Micro) : d (finishRefresh (m.map d)) = d (finishRefresh m) := by
  obtain ⟨r, t⟩ := m
  cases r with
  | ok => exact h.finish t none none .ok
  | err e => exact h.finish t none (some true) (e.resultCode .busyTimeout)

theorem Overlay.fullUpdate (s : State) (hb : KeepsRows d s 0 s.cfg.pH) :
    d (fullUpdate (d s)) = d (fullUpdate s) := by
  unfold Machine.fullUpdate
  rw [h.fsm]
  split
  · rw [h.cfg, h.refreshSequence _ _ _ _ hb, h.finishRefresh]
  · exact h.raise s .notAwake
  · exact h.raise s .notAwake

theorem Overlay.partialUpdate (ys ye : Nat) (s : State) (hb : KeepsRows d s ys ye) :
    d (partialUpdate ys ye (d s)) = d (partialUpdate ys ye s) := by
  unfold Machine.partialUpdate
  rw [h.fsm, h.cfg]
  split
  · split
    · rw [h.refreshSequence _ _ _ _ hb, h.finishRefresh]
    · exact h.raise s .invalidRegion
  · exact h.raise s .notAwake
  · exact h.raise s .notAwake

theorem Overlay.sleepPanel (s : State) : d (sleepPanel (d s)) = d (sleepPanel s) := by
  unfold Machine.sleepPanel
  rw [h.fsm]
  split
  · exact h.raise s .ok
  · exact h.raise s .notAwake
  · rw [h.cfg, h.issue]
    generalize Machine.issue _ s = m
    obtain ⟨r, t⟩ := m
    cases r with
    | ok =>
      dsimp only [Micro.map]
      rw [h.delay]
      exact h.finish (t.delay _) (some .sleeping) none .ok
    | err e => exact h.finish t none (some true) (e.resultCode .busyTimeout)

theorem Overlay.wakePanel (s : State) : d (wakePanel (d s)) = d (wakePanel s) := by
  unfold Machine.wakePanel
  rw [h.fsm]
  split
  · exact h.raise s .ok
  · exact h.raise s .badState
  · rw [h.cfg, h.wakeSequence]
    generalize Machine.wakeSequence _ _ s = m
    obtain ⟨r, t⟩ := m
    cases r with
    | ok => exact h.finish t (some .awake) none .ok
    | err e => exact h.finish t (some .uninit) (some true) (e.resultCode .busyTimeout)

/-- A refresh operation from an overlaid state ends as it does from the state, but for what `d` overwrites. -/
theorem Overlay.exec_refresh (hfb : ∀ t, (d t).fb = t.fb) {i : Instr} {s t u : State} (hi : isRefresh i = true)
    (ht : exec i s = .next t) (hu : exec i (d s) = .next u) : d u = d t := by
  cases i with
  | init => cases ht; cases hu; exact h.initPanel s
  | full => cases ht; cases hu; exact h.fullUpdate s (.of_fb_eq hfb s _ _)
  | partialRefresh ys ye => cases ht; cases hu; exact h.partialUpdate ys ye s (.of_fb_eq hfb s _ _)
  | sleep => cases ht; cases hu; exact h.sleepPanel s
  | wake => cases ht; cases hu; exact h.wakePanel s
  | _ => cases hi

end

/-! ### Two runs under equal answers of the environment (R62) -/

/-- What a refresh operation keeps (R186), from its run. -/
theorem exec_refresh_keeps {i : Instr} {s t : State} (hi : isRefresh i = true) (he : exec i s = .next t) :
    t.fb = s.fb ∧ t.rot = s.rot ∧ t.pix = s.pix := by
  obtain ⟨u, hu, hends⟩ := exec_ends hi s
  obtain rfl : u = t := Host.Outcome.next.inj (hu.symm.trans he)
  obtain ⟨hfb, hrot, hpix, -⟩ := hends.keeps
  exact ⟨hfb, hrot, hpix⟩

/-- Settles O52: rotation and pixel are an overlay, and a refresh operation keeps both (R186). -/
theorem refreshIgnoresRotationAndPixel : Obligations.RefreshIgnoresRotationAndPixel := by
  intro i s t r c hi ht
  obtain ⟨u, hu⟩ := exec_runs i { s with rot := r, pix := c }
  have hsame : { u with rot := r, pix := c } = { t with rot := r, pix := c } :=
    (Overlay.rotPix r c).exec_refresh (fun _ => rfl) hi ht hu
  obtain ⟨-, (hrot : u.rot = r), (hpix : u.pix = c)⟩ := exec_refresh_keeps hi hu
  rw [hu, ← hsame, ← hrot, ← hpix]

/-- Settles O53: the framebuffer is an overlay that keeps the bytes of the rows. -/
theorem partialDependsOnItsRowsOnly : Obligations.PartialDependsOnItsRowsOnly := by
  intro s t m ys ye hrows ht
  obtain ⟨u, hu⟩ := exec_runs (.partialRefresh ys ye) { s with fb := m }
  have hkeeps : KeepsRows (fun v => { v with fb := m }) s ys ye := fun _ _ a h₁ h₂ => hrows a h₁ (by omega)
  have hsame : { u with fb := m } = { t with fb := m } := by
    cases ht
    cases hu
    exact (Overlay.fb m).partialUpdate ys ye s hkeeps
  obtain ⟨(hfb : u.fb = m), -⟩ := exec_refresh_keeps rfl hu
  rw [hu, ← hsame, ← hfb]

/-- A framebuffer operation carries any value of `S.unk` through (R119). -/
theorem exec_framebuffer_unk {i : Instr} {s t : State} (b : Bool) (hi : isRefresh i = false)
    (he : exec i s = .next t) : exec i { s with unk := b } = .next { t with unk := b } := by
  cases i with
  | fbnew | setrot _ | clear _ => cases he; rfl
  | pset c x y =>
    cases he
    simp only [exec_pset, pixelSet]
    split <;> rfl
  | pget x y =>
    cases he
    simp only [exec_pget, pixelGet]
    split <;> rfl
  | _ => cases hi

/-- Settles O54: a framebuffer operation carries `S.unk` through, and for a refresh operation it is an overlay. -/
theorem unknownFlagBlocksNothing : Obligations.UnknownFlagBlocksNothing := by
  intro i s t b ht
  cases hi : isRefresh i with
  | false => exact ⟨_, exec_framebuffer_unk b hi ht, rfl⟩
  | true =>
    obtain ⟨u, hu⟩ := exec_runs i { s with unk := b }
    have hsame : { u with unk := b } = { t with unk := b } :=
      (Overlay.unk b).exec_refresh (fun _ => rfl) hi ht hu
    exact ⟨u, hu, congrArg (fun v : State => { v with unk := u.unk }) hsame⟩

end Sys2Proof.Machine

/-! ## The encoding: proofs of the statements of 30_encoding.md -/

namespace Sys2Proof.Machine

/-! ### The opcode table (R71, R77) -/

/-- The row of an operation with opcode `op` whose reserved bits are the `len` bits from bit `lo` on (R71). -/
def OpcodeRow.ofReserved (op : BitVec 4) (lo len : Nat) : OpcodeRow where
  mask := (BitVec.allOnes 4).setWidth 32 <<< 28 ||| (BitVec.allOnes len).setWidth 32 <<< lo
  bits := op.setWidth 32 <<< 28

/-- Each row of the table, in its order, by its opcode and its reserved bits (R71, R77). -/
theorem opcodeTable_eq_ofReserved :
    opcodeTable =
      [.ofReserved 0x1#4 0 28, .ofReserved 0x2#4 2 26, .ofReserved 0x3#4 0 27, .ofReserved 0x4#4 26 1,
        .ofReserved 0x5#4 26 2, .ofReserved 0x6#4 0 28, .ofReserved 0x7#4 0 28, .ofReserved 0x8#4 26 2,
        .ofReserved 0x9#4 0 28, .ofReserved 0xA#4 0 28] := by decide

/-- The bits of a field are the word's bits under the field's mask. -/
theorem and_fieldMask (w : Word) (lo len : Nat) :
    w &&& (BitVec.allOnes len).setWidth 32 <<< lo = (w.extractLsb' lo len).setWidth 32 <<< lo := by
  ext k hk
  by_cases hlo : k < lo
  · simp [hlo]
  · simp [hlo, BitVec.getElem_setWidth, show lo + (k - lo) = k by omega, BitVec.getLsbD_eq_getElem hk, Bool.and_comm]

/-- A word of a row's opcode with zeros in the row's reserved bits is a word of the row (R71). -/
theorem OpcodeRow.ofReserved_admits {w : Word} {op : BitVec 4} {lo len : Nat} (hop : fieldOp w = op)
    (hzero : w.extractLsb' lo len = 0) : (OpcodeRow.ofReserved op lo len).admits w = true := by
  refine decide_eq_true ?_
  calc w &&& (OpcodeRow.ofReserved op lo len).mask
      = (fieldOp w).setWidth 32 <<< 28 ||| (w.extractLsb' lo len).setWidth 32 <<< lo := by
        rw [OpcodeRow.ofReserved, BitVec.and_or_distrib_left, and_fieldMask, and_fieldMask, fieldOp]
    _ = (OpcodeRow.ofReserved op lo len).bits := by simp [hop, hzero, OpcodeRow.ofReserved]

/-! ### `Illegal` words (R78, R79) -/

/-- An arm of the decoder rejects a word that is not of the arm's row, when the arms after it do. -/
theorem decodeArm_rejects {w : Word} {op : BitVec 4} {lo len : Nat} {i : Instr} {next : Except Illegal Instr}
    (hrow : (OpcodeRow.ofReserved op lo len).admits w = false) (hnext : ∃ e, next = .error e) :
    ∃ e, (if fieldOp w = op then if w.extractLsb' lo len ≠ 0 then .error .reservedBit else .ok i else next) =
      .error e := by
  by_cases hop : fieldOp w = op
  · have hreserved : w.extractLsb' lo len ≠ 0 := fun hzero =>
      Bool.false_ne_true (hrow.symm.trans (OpcodeRow.ofReserved_admits hop hzero))
    exact ⟨.reservedBit, by rw [if_pos hop, if_pos hreserved]⟩
  · rwa [if_neg hop]

/-- A word of no row of the table is `Illegal` (R78, R79). -/
theorem decode_error_of_not_admits {w : Word} (h : ∀ r ∈ opcodeTable, r.admits w = false) :
    ∃ e, decode w = .error e := by
  simp only [opcodeTable_eq_ofReserved, List.forall_mem_cons] at h
  obtain ⟨hfbnew, hsetrot, hclear, hpset, hpget, hinit, hfull, hpartial, hsleep, hwake, -⟩ := h
  exact decodeArm_rejects hfbnew <| decodeArm_rejects hinit <| decodeArm_rejects hfull <|
    decodeArm_rejects hsleep <| decodeArm_rejects hwake <| decodeArm_rejects hsetrot <|
    decodeArm_rejects hclear <| decodeArm_rejects hpset <| decodeArm_rejects hpget <|
    decodeArm_rejects hpartial ⟨.opcode, rfl⟩

/-- A step at a 32-bit write to `CMD` takes the write from the queue and runs its word (R25, R27). -/
theorem step_command {s : State} {w : Word} {rest : List HostInput} (h : s.port = .write 32 0x0 w :: rest) :
    step s = runCommand w { s with port := rest } := by
  rw [step_serves h]
  rfl

/-- An `Illegal` word does what `State.illegal` does (R79). -/
theorem runCommand_of_decode_error {w : Word} {e : Illegal} (h : decode w = .error e) (s : State) :
    runCommand w s = .next s.illegal := by
  unfold runCommand
  rw [h]

/-- Settles O9: a word of no row does not decode, and running an `Illegal` word sets the result alone. -/
theorem illegalWordOnlySetsItsCode : Obligations.IllegalWordOnlySetsItsCode := by
  intro s rest w hport hnone
  obtain ⟨e, he⟩ := decode_error_of_not_admits hnone
  rw [step_command hport, runCommand_of_decode_error he]
  rfl

/-! ### The pseudo-instructions (R83) -/

/-- SETROT of a text that reads as a rotation (R82). -/
theorem assembleParts_setrot (p : Params) {a : List Char} {r : Rotation} (h : readAngle a = some r) :
    assembleParts p .setrot [a] = some (.setrot r) := congrArg (Option.map Instr.setrot) h

/-- CLEAR of a text that reads as a colour (R82). -/
theorem assembleParts_clear (p : Params) {a : List Char} {c : Color} (h : readColor a = some c) :
    assembleParts p .clear [a] = some (.clear c) := congrArg (Option.map Instr.clear) h

/-- PSET with a text that reads as a colour (R82). -/
theorem assembleParts_pset (p : Params) {a : List Char} {c : Color} (h : readColor a = some c) (x y : List Char) :
    assembleParts p .pset [x, y, a] = withTwo (.pset c) x y := by
  simp only [assembleParts, h]

/-- Settles O6: each expansion's colour or angle reads as the one its pseudo-instruction stands for. -/
theorem pseudoInstructionsExpand : Obligations.PseudoInstructionsExpand := by
  intro p x y
  exact ⟨(assembleParts_clear p rfl).symm, (assembleParts_clear p rfl).symm, (assembleParts_pset p rfl x y).symm,
    (assembleParts_pset p rfl x y).symm, (assembleParts_setrot p rfl).symm, (assembleParts_setrot p rfl).symm,
    (assembleParts_setrot p rfl).symm, (assembleParts_setrot p rfl).symm, rfl⟩

end Sys2Proof.Machine

/-! ## The framebuffer and the rotator: proofs of the statements of 40_framebuffer.md -/

namespace Sys2Proof.Machine

/-! ### The command words (R71) -/

/-- The word of formats P and R is its four fields at their bits (R71). -/
theorem encodeP_eq_or (op : BitVec 4) (c : BitVec 1) {hi lo : Nat} (hhi : hi < 8192) (hlo : lo < 8192) :
    encodeP op c hi lo =
      op.setWidth 32 <<< 28 ||| c.setWidth 32 <<< 27 ||| BitVec.ofNat 32 hi <<< 13 ||| BitVec.ofNat 32 lo := by
  have hhi' : (BitVec.ofNat 13 hi).setWidth 32 = BitVec.ofNat 32 hi :=
    BitVec.setWidth_ofNat_of_le_of_lt (by decide) hhi
  have hlo' : (BitVec.ofNat 13 lo).setWidth 32 = BitVec.ofNat 32 lo :=
    BitVec.setWidth_ofNat_of_le_of_lt (by decide) hlo
  rw [← BitVec.setWidth_eq (encodeP op c hi lo), encodeP]
  simp only [BitVec.setWidth_append_eq_shiftLeft_setWidth_or, BitVec.shiftLeft_or_distrib, ← BitVec.shiftLeft_add,
    hhi', hlo']
  simp

/-! ### Bytes and their bits (R17, R48) -/

/-- A bit index names a bit of a byte (R48). -/
theorem bitIndex_lt (x : Nat) : bitIndex x < 8 := by
  unfold bitIndex
  omega

/-- The bit of a logical pixel is a bit of a byte (R48, R102). -/
theorem pixelBit_lt (s : State) (x y : Nat) : pixelBit s x y < 8 := bitIndex_lt _

/-- A bit's colour is black exactly when the bit is 1 (R17). -/
theorem bitColor_eq_black_iff (v : Byte) (k : Nat) : bitColor v k = .black ↔ v.getLsbD k = true := by
  simp [bitColor]

/-- The bits of a byte after one of them was set to a colour (R110, R112). -/
theorem getLsbD_setBitColor (v : Byte) {j k : Nat} (hk : k < 8) (c : Color) :
    (setBitColor v k c).getLsbD j = if j = k then decide (c = .black) else v.getLsbD j := by
  split
  · next h =>
    rw [h, Bool.eq_iff_iff, ← bitColor_eq_black_iff, bitColor_setBitColor_same v hk, decide_eq_true_iff]
  · next h => exact getLsbD_setBitColor_other v h c

/-! ### Filling the framebuffer: FBNEW and CLEAR (R100, R106) -/

/-- A byte at or above the bound reads as the background byte (R46). -/
theorem Memory.read_of_below {m : Memory} {n i : Nat} (h : m.below n = true) (hi : n ≤ i) : m.read i = background :=
  Memory.read_unlisted fun e he => by
    have := (Memory.below_iff m n).1 h e he
    omega

/-- Every byte of a filled memory, below the bound and above it. -/
theorem Memory.read_fill_eq (n : Nat) (v : Byte) (i : Nat) :
    (Memory.fill n v).read i = if i < n then v else background := by
  split
  · next h => exact Memory.read_fill n v h
  · next h => exact Memory.read_of_below (Memory.below_fill n v) (by omega)

/-- Every byte that CLEAR leaves (R106). -/
theorem clearTo_read (c : Color) (s : State) (i : Nat) :
    (clearTo c s).fb.read i = if i < s.cfg.fbBytes ∧ c = .black then 0xFF#8 else 0x00#8 := by
  refine (Memory.read_fill_eq s.cfg.fbBytes (fillByte c) i).trans ?_
  cases c <;> simp [fillByte, background]

/-- Of two CLEARs in a row the second one alone counts (R107). -/
theorem clearTo_clearTo (c d : Color) (s : State) : clearTo d (clearTo c s) = clearTo d s := rfl

/-- FBNEW leaves the memory of no entries, which is the fill with the background byte (R100). -/
theorem fbnew_eq (s : State) : fbnew s = { s with fb := [], rot := .r0, result := .ok } := rfl

/-- Settles O18: the memory that FBNEW leaves has no entry, and it is the one that reset leaves. -/
theorem fbnewWhitensAndTurnsBack : Obligations.FbnewWhitensAndTurnsBack :=
  ⟨rfl, fun s => ⟨[], congrArg Host.Outcome.next (fbnew_eq s), fun _ => rfl⟩,
    fun c => congrArg Host.Outcome.next (fbnew_eq (State.resetOf c))⟩

/-- Settles O21: the word colour by colour, the bytes of the fill, and a second fill that does not read the first. -/
theorem clearFillsEveryByte : Obligations.ClearFillsEveryByte := by
  refine fun s c d => ⟨?word, (clearTo c s).fb, rfl, clearTo_read c s, ?twice⟩
  case word => cases c <;> rfl
  case twice => exact congrArg Host.Outcome.next (clearTo_clearTo c d s)

/-! ### One pixel: PSET and PGET (R110, R115) -/

/-- PSET of a pixel in bounds (R110). -/
theorem pixelSet_of_inBounds {s : State} {x y : Nat} (h : inBounds s.cfg.toParams s.rot x y = true) (c : Color) :
    pixelSet c x y s = { s with
      fb := s.fb.write (pixelByte s x y) (setBitColor (s.fb.read (pixelByte s x y)) (pixelBit s x y) c)
      result := .ok } := if_pos h

/-- PSET of a pixel out of bounds (R111). -/
theorem pixelSet_of_outOfBounds {s : State} {x y : Nat} (h : inBounds s.cfg.toParams s.rot x y = false) (c : Color) :
    pixelSet c x y s = { s with result := .outOfBounds } := if_neg (Bool.eq_false_iff.1 h)

/-- PGET of a pixel in bounds reads the native pixel (R115). -/
theorem pixelGet_of_inBounds {s : State} {x y : Nat} (h : inBounds s.cfg.toParams s.rot x y = true) :
    pixelGet x y s = { s with
      pix := pixelAt s.cfg.toParams s.fb (toNative s.cfg.toParams s.rot x y).1 (toNative s.cfg.toParams s.rot x y).2
      result := .ok } := if_pos h

/-- PGET of a pixel out of bounds (R116). -/
theorem pixelGet_of_outOfBounds {s : State} {x y : Nat} (h : inBounds s.cfg.toParams s.rot x y = false) :
    pixelGet x y s = { s with result := .outOfBounds } := if_neg (Bool.eq_false_iff.1 h)

/-- PSET leaves every byte but the one of its pixel (R111, R112). -/
theorem pixelSet_read_other {s : State} {x y i : Nat} (hi : i ≠ pixelByte s x y) (c : Color) :
    (pixelSet c x y s).fb.read i = s.fb.read i := by
  cases h : inBounds s.cfg.toParams s.rot x y with
  | true =>
    rw [pixelSet_of_inBounds h]
    exact Memory.read_write_other _ _ hi
  | false => rw [pixelSet_of_outOfBounds h]

/-- The byte of its pixel after PSET in bounds (R110). -/
theorem pixelSet_read_same {s : State} {x y : Nat} (hwf : s.fb.wf = true)
    (h : inBounds s.cfg.toParams s.rot x y = true) (c : Color) :
    (pixelSet c x y s).fb.read (pixelByte s x y) =
      setBitColor (s.fb.read (pixelByte s x y)) (pixelBit s x y) c := by
  rw [pixelSet_of_inBounds h]
  exact Memory.read_write_same hwf _ _

/-- Every bit of every byte after PSET in bounds (R110, R112). -/
theorem pixelSet_bit {s : State} {x y : Nat} (hwf : s.fb.wf = true) (h : inBounds s.cfg.toParams s.rot x y = true)
    (c : Color) (i k : Nat) :
    ((pixelSet c x y s).fb.read i).getLsbD k =
      if i = pixelByte s x y ∧ k = pixelBit s x y then decide (c = .black) else (s.fb.read i).getLsbD k := by
  by_cases hi : i = pixelByte s x y
  · subst hi
    simp only [pixelSet_read_same hwf h, getLsbD_setBitColor _ (pixelBit_lt s x y), true_and]
  · rw [pixelSet_read_other hi, if_neg fun ⟨hbyte, _⟩ => hi hbyte]

/-- PSET in bounds leaves its colour in the native pixel (R110). -/
theorem pixelAt_pixelSet {s : State} {x y : Nat} (hwf : s.fb.wf = true)
    (h : inBounds s.cfg.toParams s.rot x y = true) (c : Color) :
    pixelAt s.cfg.toParams (pixelSet c x y s).fb (toNative s.cfg.toParams s.rot x y).1
      (toNative s.cfg.toParams s.rot x y).2 = c := by
  calc bitColor ((pixelSet c x y s).fb.read (pixelByte s x y)) (pixelBit s x y)
      = bitColor (setBitColor (s.fb.read (pixelByte s x y)) (pixelBit s x y) c) (pixelBit s x y) := by
        rw [pixelSet_read_same hwf h]
    _ = c := bitColor_setBitColor_same _ (pixelBit_lt s x y) c

/-- Settles O25: the word's fields, the bits of the framebuffer in bounds, its other bytes, and the refusal. -/
theorem psetWritesOneBitOrReports : Obligations.PsetWritesOneBitOrReports := by
  intro s c x y
  refine ⟨encodeP_eq_or 0x4#4 c.code, ?inBounds, ?otherBytes, ?outOfBounds⟩
  case inBounds =>
    intro hfb hin
    refine ⟨(pixelSet c x y s).fb, ?_, fun i k _ => pixelSet_bit hfb.wf hin c i k⟩
    rw [exec_pset, pixelSet_of_inBounds hin]
  case otherBytes =>
    intro t _ ht i hi
    cases ht
    exact pixelSet_read_other hi c
  case outOfBounds => exact fun hout => congrArg Host.Outcome.next (pixelSet_of_outOfBounds hout c)

/-- Settles O26: the word's fields, the pixel read in bounds, and the refusal. -/
theorem pgetReadsOnePixelOrReports : Obligations.PgetReadsOnePixelOrReports := by
  intro s x y
  refine ⟨?word, fun hin => ⟨_, congrArg Host.Outcome.next (pixelGet_of_inBounds hin), bitColor_eq_black_iff ..⟩,
    fun hout => congrArg Host.Outcome.next (pixelGet_of_outOfBounds hout)⟩
  case word =>
    intro hx hy
    exact (encodeP_eq_or 0x5#4 0#1 hx hy).trans (by simp)

/-! ### The rotation (R101 to R104) -/

/-- Settles O19: the word rotation by rotation, and the operation as it is defined. -/
theorem setrotChangesTheRotationOnly : Obligations.SetrotChangesTheRotationOnly := by
  refine fun s r => ⟨?word, rfl⟩
  cases r <;> rfl

/-- Settles O22: the tables as they are defined, and the bounds by `inBounds_iff`. -/
theorem rotationTable : Obligations.RotationTable :=
  fun p x y => ⟨⟨rfl, rfl, rfl⟩, ⟨rfl, rfl, rfl⟩, ⟨rfl, rfl, rfl⟩, ⟨rfl, rfl, rfl⟩, fun r => inBounds_iff p r x y⟩

/-- Settles O20: PGET and PSET from the state that SETROT leaves, whose bytes are the old ones. -/
theorem setrotReinterpretsThePixels : Obligations.SetrotReinterpretsThePixels := by
  intro s r x y c hfb hin
  refine ⟨setRotation r s, pixelGet x y (setRotation r s), pixelSet c x y (setRotation r s),
    exec_setrot r s, setRotation_fb r s, exec_pget .., ?read, exec_pset .., ?written⟩
  case read =>
    rw [pixelGet_of_inBounds (s := setRotation r s) hin]
    rfl
  case written => exact pixelAt_pixelSet (s := setRotation r s) hfb.wf hin c

/-! ### The panel (R119) -/

/-- Settles O28: a framebuffer operation runs, and writes its four fields at most, none of which is the trace. -/
theorem framebufferOperationsLeaveThePanelAlone : Obligations.FramebufferOperationsLeaveThePanelAlone := by
  intro i s hi
  obtain ⟨t, ht⟩ := exec_runs i s
  obtain ⟨hframe, -, -⟩ := exec_framebuffer hi ht
  exact ⟨t, ht, by rw [hframe], hframe⟩

end Sys2Proof.Machine

/-! ## The framer: proofs of the statements of 41_channel_gate.md -/

namespace Sys2Proof.Machine

/-! ### One transaction, one pulse: the state they leave (R130 to R133, R137) -/

/-- A transaction takes one transport answer and leaves chip-select idle where it is driven (R59, R133). -/
theorem State.replay_transactionEvents (s : State) (p : Params) (bs : List Byte) (r : BusResult) :
    s.replay (transactionEvents p bs r) = { s with
      cs := if p.pCsPresent then p.csIdle else s.cs
      trace := s.trace ++ csEvents p p.pCsActive ++ [.write bs r] ++ csEvents p p.csIdle
      busAnswers := s.busAnswers.tail
      draws := s.draws + 1 } := by
  cases h : p.pCsPresent <;>
    simp [transactionEvents, csEvents, h, State.replay, State.replayEvent, State.setLevel, State.record]

/-- A delay is recorded, and nothing else happens (R16, R60). -/
theorem State.replay_delayEvents (s : State) (ms : Nat) :
    s.replay (delayEvents ms) = { s with trace := s.trace ++ delayEvents ms } := by
  by_cases h : ms = 0 <;> simp [delayEvents, h, State.replay, State.replayEvent, State.record]

/-- Settles O29: a transaction between two sets of the mode line. -/
theorem sendCommandTrace : Obligations.SendCommandTrace := by
  intro op s
  rw [sendCommand_eq, commandEvents, State.replay_append, State.replay_append,
    State.replay_transactionEvents]
  rfl

/-- Settles O30: the empty list by definition, any other as a set of the mode line and a transaction. -/
theorem sendDataTrace : Obligations.SendDataTrace := by
  refine fun s => ⟨rfl, fun bs hbs => ?_⟩
  rw [sendData_eq hbs, dataEvents_of_ne_nil _ hbs, State.replay_append,
    State.replay_transactionEvents]
  rfl

/-- Settles O32: the pulse is the replay of two sets of the reset line, each with its delay. -/
theorem resetPulseTrace : Obligations.ResetPulseTrace := by
  intro s
  rw [resetPulse_eq, pulseEvents, State.replay_append, State.replay_append, State.replay_append,
    State.replay_delayEvents, State.replay_delayEvents]
  rfl

/-! ### Runs from idle lines (R133, R134) -/

/-- Bus events leave idle lines idle, so that their replay is the state the statements write out (R133). -/
theorem BusEvents.replay_eq_advance {pl : List (List Byte)} {evs : List Event} {s : State} (hs : LinesIdle s)
    (h : BusEvents s.cfg.toParams pl evs) : s.replay evs = s.advance evs pl.length 0 := by
  rw [State.replay_eq_advance (h.lines s.lines hs.dc hs.cs), h.transactions, h.samples]

/-- A bus micro-operation none of whose writes fails makes all of its transactions (R133). -/
theorem BusSpec.of_busOk {pl : List (List Byte)} {okEvs : List Event} {s : State} {m : Micro}
    (h : BusSpec pl okEvs s m) (hs : LinesIdle s) (hb : BusOk pl.length s) :
    m = (.ok, s.advance okEvs pl.length 0) := by
  rcases h.ends with ⟨hm, -⟩ | ⟨n, evs, hn, -, -, herr, -⟩
  · rw [hm, h.events.replay_eq_advance hs]
  · exact absurd ((hb.at hn).symm.trans herr) (by decide)

/-- A bus micro-operation whose write `n + 1` fails ends at that write (R134, R136). -/
theorem BusSpec.of_busFailsAfter {pl : List (List Byte)} {okEvs : List Event} {s : State} {m : Micro}
    (h : BusSpec pl okEvs s m) (hs : LinesIdle s) {n : Nat} (hn : n < pl.length) (hb : BusFailsAfter n s) :
    ∃ evs, FailsAt n okEvs evs ∧ m = (.err .busTransportError, s.advance evs (n + 1) 0) := by
  obtain ⟨hok, herr⟩ := hb.at
  rcases h.ends with ⟨-, hall⟩ | ⟨k, evs, hk, hm, hok', herr', hevs, -, hfail⟩
  · exact absurd ((hall n hn).symm.trans herr) (by decide)
  · obtain rfl : k = n := by
      rcases Nat.lt_trichotomy k n with hlt | heq | hgt
      · exact absurd ((hok k hlt).symm.trans herr') (by decide)
      · exact heq
      · exact absurd ((hok' n hgt).symm.trans herr) (by decide)
    refine ⟨evs, hfail, ?_⟩
    rw [hm, hevs.replay_eq_advance hs, List.length_take, Nat.min_eq_left hk]

/-- Settles O31: both operations are bus micro-operations, which make all their transactions or end at the failed one. -/
theorem issueListStopsAtTheFirstError : Obligations.IssueListStopsAtTheFirstError := fun c l s hs =>
  ⟨(issue_spec c s).of_busOk hs, fun _ => (issue_spec c s).of_busFailsAfter hs,
    (issueList_spec l s).of_busOk hs, fun _ => (issueList_spec l s).of_busFailsAfter hs⟩

/-! ### The pieces of a frame (R138) -/

/-- No bytes have no pieces, whatever the fuel. -/
theorem chunksOf_nil (n fuel : Nat) : chunksOf n fuel [] = [] := by cases fuel <;> rfl

/-- Every piece but the last is full (R138). -/
theorem chunksOf_dropLast_length (n fuel : Nat) (bs : List Byte) :
    ∀ c ∈ (chunksOf n fuel bs).dropLast, c.length = n := by
  induction fuel generalizing bs with
  | zero => simp [chunksOf]
  | succ fuel ih =>
    cases bs with
    | nil => simp [chunksOf]
    | cons b rest =>
      simp only [chunksOf]
      by_cases hlast : chunksOf n fuel ((b :: rest).drop n) = []
      · simp [hlast]
      · have hfull : n < (b :: rest).length := by
          by_contra hshort
          exact hlast (by rw [List.drop_of_length_le (by omega), chunksOf_nil])
        rw [List.dropLast_cons_of_ne_nil hlast, List.forall_mem_cons]
        exact ⟨List.length_take_of_le hfull.le, ih _⟩

/-- The bytes of the rows, counted from the first (R52, R138). -/
theorem rowsBytes_eq_map_range (p : Params) (fb : Memory) (y0 y1 : Nat) :
    rowsBytes p fb y0 y1 =
      (List.range ((y1 - y0) * p.rowBytes)).map (fun j => fb.read (y0 * p.rowBytes + j)) := by
  rw [rowsBytes, frameBytes, ← Nat.sub_mul, List.range'_eq_map_range, List.map_map]
  rfl

/-- The number of bytes of the rows (R138). -/
theorem rowsBytes_length (p : Params) (fb : Memory) (y0 y1 : Nat) :
    (rowsBytes p fb y0 y1).length = (y1 - y0) * p.rowBytes := by
  rw [rowsBytes, frameBytes_length, ← Nat.sub_mul]

/-- Settles O33: the pieces by the facts of `chunksOf`, the run as a bus micro-operation. -/
theorem sendFrameSendsTheRows : Obligations.SendFrameSendsTheRows := by
  intro y0 y1 s _ _
  obtain ⟨-, -, -, -, -, -, hchunk, -, -⟩ := s.cfg.legal_facts
  refine ⟨?joined, ?count, chunksOf_dropLast_length _ _ _, (sendFrame_spec y0 y1 s).of_busOk,
    fun n hs => (sendFrame_spec y0 y1 s).of_busFailsAfter hs⟩
  case joined => rw [frameChunks, chunksOf_flatten hchunk _ _ le_rfl, rowsBytes_eq_map_range]
  case count => rw [frameChunks, chunksOf_length hchunk _ _ le_rfl, rowsBytes_length]

end Sys2Proof.Machine

/-! ## The refresh FSM: proofs of the statements of 42_refresh_fsm.md -/

namespace Sys2Proof.Machine

/-! ### The lines and the answers across a pulse, a wait and a pause (R137, R141) -/

/-- Events that set no line leave the lines. -/
theorem Lines.foldl_after_of_notMem {evs : List Event} (h : ∀ line l, .pin line l ∉ evs) (ls : Lines) :
    evs.foldl Lines.after ls = ls := by
  induction evs with
  | nil => rfl
  | cons e rest ih =>
    have hrest := ih fun line l hl => h line l (List.mem_cons_of_mem _ hl)
    cases e with
    | pin line l => exact absurd (List.mem_cons_self ..) (h line l)
    | write _ _ | busy _ | delay _ => exact hrest

/-- A pulse leaves the reset line high, and the other lines alone (R137). -/
theorem Lines.foldl_after_pulseEvents (p : Params) {ls : Lines} (h : ls.rst = true) :
    (pulseEvents p).foldl Lines.after ls = ls := by
  simp [pulseEvents, foldl_after_of_notMem (pin_notMem_delayEvents _), Lines.after, Lines.set, ← h]

@[simp] theorem transactions_pulseOf (s : State) (i : Instr) : transactions (pulseOf s i) = 0 := by
  unfold pulseOf; split <;> simp

@[simp] theorem samples_pulseOf (s : State) (i : Instr) : samples (pulseOf s i) = 0 := by
  unfold pulseOf; split <;> simp

/-- A refresh operation's events from idle lines: its pulse, bus events, and a tail without a write or a line set. -/
theorem LinesIdle.replay_between {s : State} (hs : LinesIdle s) {pl : List (List Byte)} {evs tail : List Event}
    (i : Instr) (h : BusEvents s.cfg.toParams pl evs) (htail : ∀ line l, .pin line l ∉ tail)
    (hwrites : transactions tail = 0) :
    s.replay (pulseOf s i ++ evs ++ tail) = s.advance (pulseOf s i ++ evs ++ tail) pl.length (samples tail) := by
  have hpulse : (pulseOf s i).foldl Lines.after s.lines = s.lines := by
    unfold pulseOf
    split
    · exact Lines.foldl_after_pulseEvents _ hs.rst
    · rfl
  have hlines : (pulseOf s i ++ evs ++ tail).foldl Lines.after s.lines = s.lines := by
    rw [List.foldl_append, List.foldl_append, hpulse, h.lines s.lines hs.dc hs.cs,
      Lines.foldl_after_of_notMem htail]
  rw [State.replay_eq_advance hlines]
  simp [h.transactions, h.samples, hwrites]

/-- A named busy level is the same after a pulse and bus events, which take none. -/
theorem BusEvents.busyLevelAt_replay {pl : List (List Byte)} {evs : List Event} {s : State} (i : Instr)
    (h : BusEvents s.cfg.toParams pl evs) {k : Nat} (hk : k < s.busyAnswers.length) :
    (s.replay (pulseOf s i ++ evs)).busyLevelAt k = s.busyLevelAt k :=
  State.busyLevelAt_named (by simp [h.samples]) hk

/-! ### Runs from idle lines under named answers (R62, R184) -/

/-- The first place at which a sequence leaves one value for another is unique. -/
theorem eq_of_first {α : Type} {f g : Nat → α} {a b : α} (hab : a ≠ b) {j k : Nat} (hf : ∀ n, n < j → f n = a)
    (hfj : f j = b) (hg : ∀ n, n < k → g n = a) (hgk : g k = b) (h : ∀ n, n ≤ j → g n = f n) : k = j := by
  rcases Nat.lt_trichotomy k j with hlt | heq | hgt
  · exact absurd ((hf k hlt).symm.trans ((h k hlt.le).symm.trans hgk)) hab
  · exact heq
  · exact absurd ((hg j hgt).symm.trans ((h j le_rfl).trans hfj)) hab

/-- In `s` the refresh operation `i` plans the transactions `pl`, whose events are `okEvs` when no write fails. -/
structure Plans (i : Instr) (s : State) (pl : List (List Byte)) (okEvs : List Event) : Prop where
  refresh : isRefresh i = true
  payloads : plannedPayloads s i = pl
  events : plannedEvents s i = okEvs

/-- INIT plans its sequence in every FSM state (R161). -/
theorem Plans.init (s : State) :
    Plans .init s (listPayloads s.cfg.pp.initSeq) (issueListEvents s.cfg.toParams s.cfg.pp.initSeq) :=
  ⟨rfl, rfl, rfl⟩

/-- FULL in `AWAKE` plans a refresh of every row (R166, R167). -/
theorem Plans.full {s : State} (hf : s.fsm = .awake) :
    Plans .full s (refreshPayloads s.cfg.toParams s.fb 0 s.cfg.pH s.cfg.pp.fullTrigger)
      (refreshEvents s.cfg.toParams s.fb 0 s.cfg.pH s.cfg.pp.fullTrigger) :=
  ⟨rfl, if_pos hf, if_pos hf⟩

/-- PARTIAL in `AWAKE` with a valid region plans a refresh of its rows (R170 to R172). -/
theorem Plans.partialRefresh {s : State} {ys ye : Nat} (h : s.fsm = .awake ∧ ys < ye ∧ ye ≤ s.cfg.pH) :
    Plans (.partialRefresh ys ye) s (refreshPayloads s.cfg.toParams s.fb ys ye s.cfg.pp.partialTrigger)
      (refreshEvents s.cfg.toParams s.fb ys ye s.cfg.pp.partialTrigger) :=
  ⟨rfl, if_pos h, if_pos h⟩

/-- SLEEP in `AWAKE` plans the deep-sleep command (R177). -/
theorem Plans.sleep {s : State} (hf : s.fsm = .awake) :
    Plans .sleep s (commandPayloads s.cfg.pp.sleepCmd) (issueEvents s.cfg.toParams s.cfg.pp.sleepCmd) :=
  ⟨rfl, if_pos hf, if_pos hf⟩

/-- WAKE in `SLEEPING` plans its sequence (R180). -/
theorem Plans.wake {s : State} (hf : s.fsm = .sleeping) :
    Plans .wake s (listPayloads s.cfg.pp.wakeSeq) (issueListEvents s.cfg.toParams s.cfg.pp.wakeSeq) :=
  ⟨rfl, if_pos hf, if_pos hf⟩

section
variable {i : Instr} {s : State} {pl : List (List Byte)} {okEvs : List Event} {timeout : Nat}

/-- Every write succeeds and the panel reads not busy at sample `j + 1`, in time (R161, R166, R172, R180). -/
theorem Plans.exec_of_idleAfter (p : Plans i s pl okEvs) (hs : LinesIdle s) (hw : waitTimeout s i = some timeout)
    {j : Nat} (hbus : BusOk pl.length s) (hidle : IdleAfter j s) (hj : j ≤ pollBound s.cfg.toParams timeout) :
    exec i s = .next { s.advance
      (pulseOf s i ++ okEvs ++ pollEvents s.cfg.toParams j ++ [.busy (!s.cfg.pBusyActive)]) pl.length (j + 1) with
      fsm := if pulses i then .awake else s.fsm, unk := if i = .init then false else s.unk, result := .ok } := by
  obtain ⟨hrefresh, rfl, rfl⟩ := p
  obtain ⟨hbefore, hat, hlen⟩ := hidle.at
  obtain ⟨t, ht, evs, f, u, r, rfl, he⟩ := exec_ends hrefresh s
  rw [ht]
  cases he with
  | guarded r hg => exact absurd ((planned_of_guardResult hg).2.symm.trans hw) nofun
  | waited timeout' k hg hw' hev hok hbus' hk hbusy hidle' =>
    obtain rfl : k = j := eq_of_first (by simp) hbefore hat hbusy hidle' fun n hn =>
      hev.busyLevelAt_replay i (hn.trans_lt hlen)
    have hfsm : (if pulses i then Fsm.awake else s.fsm) = .awake := by
      split
      · rfl
      · next hp => exact awake_of_waitTimeout hw (by simpa using hp)
    rw [hs.replay_between i hev (by simp [pin_notMem_pollEvents]) (by simp [Event.isWrite]), hfsm,
      List.append_assoc _ (pollEvents ..)]
    simp [Event.isSample]
  | slept hi => subst hi; cases hw
  | timedOut timeout' hg hw' hev hok hbus' hbusy =>
    obtain rfl : timeout' = timeout := Option.some.inj (hw'.symm.trans hw)
    exact absurd ((hbusy j hj).symm.trans ((hev.busyLevelAt_replay i hlen).trans hat)) (by simp)
  | busFailed n evs hg hn hev hnr hfail hbus' herr => exact absurd ((hbus.at hn).symm.trans herr) nofun

/-- Every write succeeds and the panel stays busy (R141, R184). -/
theorem Plans.exec_of_busyFor (p : Plans i s pl okEvs) (hs : LinesIdle s) (hw : waitTimeout s i = some timeout)
    (hbus : BusOk pl.length s) (hbusy : BusyFor (pollBound s.cfg.toParams timeout + 1) s) :
    exec i s = .next { s.advance
      (pulseOf s i ++ okEvs ++ pollEvents s.cfg.toParams (pollBound s.cfg.toParams timeout)
        ++ [.busy s.cfg.pBusyActive])
      pl.length (pollBound s.cfg.toParams timeout + 1) with
      fsm := if pulses i then .uninit else s.fsm, unk := true,
      result := if i = .init then .initTimeout else .busyTimeout } := by
  obtain ⟨hrefresh, rfl, rfl⟩ := p
  obtain ⟨t, ht, evs, f, u, r, rfl, he⟩ := exec_ends hrefresh s
  rw [ht]
  cases he with
  | guarded r hg => exact absurd ((planned_of_guardResult hg).2.symm.trans hw) nofun
  | waited timeout' k hg hw' hev hok hbus' hk hbusy' hidle =>
    obtain rfl : timeout' = timeout := Option.some.inj (hw'.symm.trans hw)
    obtain ⟨hlen, hlevel⟩ := hbusy.at (Nat.lt_succ_of_le hk)
    exact absurd (hlevel.symm.trans ((hev.busyLevelAt_replay i hlen).symm.trans hidle)) (by simp)
  | slept hi => subst hi; cases hw
  | timedOut timeout' hg hw' hev hok hbus' hbusy' =>
    obtain rfl : timeout' = timeout := Option.some.inj (hw'.symm.trans hw)
    rw [hs.replay_between i hev (by simp [pin_notMem_pollEvents]) (by simp [Event.isWrite]),
      List.append_assoc _ (pollEvents ..)]
    simp [Event.isSample]
  | busFailed n evs hg hn hev hnr hfail hbus' herr => exact absurd ((hbus.at hn).symm.trans herr) nofun

/-- Write `n + 1` fails (R134, R136, R184). -/
theorem Plans.exec_of_busFailsAfter (p : Plans i s pl okEvs) (hs : LinesIdle s) {n : Nat} (hn : n < pl.length)
    (hbus : BusFailsAfter n s) :
    ∃ evs, FailsAt n okEvs evs ∧ exec i s = .next { s.advance (pulseOf s i ++ evs) (n + 1) 0 with
      fsm := if pulses i then .uninit else s.fsm, unk := true, result := .busTransportError } := by
  obtain ⟨hrefresh, rfl, rfl⟩ := p
  obtain ⟨hok, herr⟩ := hbus.at
  obtain ⟨t, ht, evs, f, u, r, rfl, he⟩ := exec_ends hrefresh s
  rw [ht]
  cases he with
  | guarded r hg => simp [(planned_of_guardResult hg).1] at hn
  | waited _ _ _ _ _ _ hall => exact absurd ((hall n hn).symm.trans herr) nofun
  | slept _ _ _ _ hall => exact absurd ((hall n hn).symm.trans herr) nofun
  | timedOut _ _ _ _ _ hall => exact absurd ((hall n hn).symm.trans herr) nofun
  | busFailed m evs hg hm hev hnr hfail hok' herr' =>
    obtain rfl : m = n := eq_of_first (by decide) hok herr hok' herr' fun _ _ => rfl
    have hreplay := hs.replay_between i hev (tail := []) nofun rfl
    rw [List.append_nil, List.length_take, Nat.min_eq_left hm] at hreplay
    exact ⟨evs, hfail, by rw [hreplay]; rfl⟩

end

/-- The deep-sleep command succeeds, and the pause follows it (R177, R178). -/
theorem Plans.exec_sleep_of_busOk {s : State} {pl : List (List Byte)} {okEvs : List Event}
    (p : Plans .sleep s pl okEvs) (hs : LinesIdle s) (hf : s.fsm = .awake) (hbus : BusOk pl.length s) :
    exec .sleep s = .next { s.advance (okEvs ++ delayEvents s.cfg.pTSleep) pl.length 0 with
      fsm := .sleeping, result := .ok } := by
  obtain ⟨-, rfl, rfl⟩ := p
  obtain ⟨t, ht, evs, f, u, r, rfl, he⟩ := exec_ends (i := .sleep) rfl s
  rw [ht]
  cases he with
  | guarded r hg => simp [guardResult, hf] at hg
  | waited _ _ _ hw => cases hw
  | slept hi hg hev hok hbus' =>
    have hreplay := hs.replay_between .sleep hev (pin_notMem_delayEvents s.cfg.pTSleep) (by simp)
    simp only [pulseOf, pulses, Bool.false_eq_true, if_false, List.nil_append, samples_delayEvents] at hreplay
    rw [hreplay]
    rfl
  | timedOut _ _ hw => cases hw
  | busFailed n evs hg hn hev hnr hfail hok herr => exact absurd ((hbus.at hn).symm.trans herr) nofun

/-! ### The guards and the region check (R160, R170) -/

/-- FULL outside `AWAKE` (R160). -/
theorem exec_full_of_not_awake {s : State} (h : s.fsm ≠ .awake) :
    exec .full s = .next { s with result := .notAwake } := by
  rw [exec_full, fullUpdate]
  split
  · next hf => exact absurd hf h
  · rfl
  · rfl

/-- PARTIAL outside `AWAKE` (R160). -/
theorem exec_partialRefresh_of_not_awake {s : State} (h : s.fsm ≠ .awake) (ys ye : Nat) :
    exec (.partialRefresh ys ye) s = .next { s with result := .notAwake } := by
  rw [exec_partialRefresh, partialUpdate]
  split
  · next hf => exact absurd hf h
  · rfl
  · rfl

/-- PARTIAL in `AWAKE` with an invalid region (R170). -/
theorem exec_partialRefresh_of_invalid {s : State} (hf : s.fsm = .awake) {ys ye : Nat}
    (hv : ¬ (ys < ye ∧ ye ≤ s.cfg.pH)) :
    exec (.partialRefresh ys ye) s = .next { s with result := .invalidRegion } := by
  simp [partialUpdate, hf, validRegion, hv, State.raise]

/-- SLEEP in `SLEEPING` (R160). -/
theorem exec_sleep_of_sleeping {s : State} (h : s.fsm = .sleeping) :
    exec .sleep s = .next { s with result := .ok } := by
  simp [sleepPanel, h, State.returnOk]

/-- SLEEP in `UNINIT` (R160). -/
theorem exec_sleep_of_uninit {s : State} (h : s.fsm = .uninit) :
    exec .sleep s = .next { s with result := .notAwake } := by
  simp [sleepPanel, h, State.raise]

/-- WAKE in `AWAKE` (R160). -/
theorem exec_wake_of_awake {s : State} (h : s.fsm = .awake) :
    exec .wake s = .next { s with result := .ok } := by
  simp [wakePanel, h, State.returnOk]

/-- WAKE in `UNINIT` (R160). -/
theorem exec_wake_of_uninit {s : State} (h : s.fsm = .uninit) :
    exec .wake s = .next { s with result := .badState } := by
  simp [wakePanel, h, State.raise]

/-- PARTIAL in `AWAKE` with a valid region goes on past its guard and its region check (R170). -/
theorem guardResult_partialRefresh {s : State} {ys ye : Nat} (hf : s.fsm = .awake) (hv : ys < ye ∧ ye ≤ s.cfg.pH) :
    guardResult s (.partialRefresh ys ye) = none :=
  (if_pos hf).trans (if_pos hv)

/-- The operations that pulse are INIT and WAKE (R161, R180). -/
theorem pulses_iff (i : Instr) : pulses i = true ↔ i = .init ∨ i = .wake := by
  cases i <;> simp [pulses]

/-- A refresh operation that goes on past its guard without a pulse does so in `AWAKE` (R160). -/
theorem awake_of_guardResult {i : Instr} {s : State} (hi : isRefresh i = true) (hp : ¬ pulses i = true)
    (hg : guardResult s i = none) : s.fsm = .awake := by
  by_contra hf
  cases i with
  | full | partialRefresh _ _ => simp [guardResult, hf] at hg
  | sleep =>
    simp only [guardResult, if_neg hf] at hg
    split at hg <;> cases hg
  | init | wake => exact hp rfl
  | _ => cases hi

/-- An operation that goes on past its guard ends with no caller logic error (R204). -/
theorem Ending.result_of_guardResult {i : Instr} {s : State} {evs : List Event} {f : Fsm} {u : Bool} {r : ResultCode}
    (h : Ending i s evs f u r) (hg : guardResult s i = none) : r.errorClass ≠ .callerLogic := by
  cases h with
  | guarded r hr => exact absurd (hg.symm.trans hr) nofun
  | waited | slept | busFailed => decide
  | timedOut => split <;> decide

/-- An operation that goes on past its guard makes an event (R160): its wait samples, SLEEP's command is written, and a
write that fails is one. -/
theorem Ending.ne_nil {i : Instr} {s : State} {evs : List Event} {f : Fsm} {u : Bool} {r : ResultCode}
    (h : Ending i s evs f u r) (hg : guardResult s i = none) : evs ≠ [] := by
  cases h with
  | guarded r hr => exact absurd (hg.symm.trans hr) nofun
  | waited | timedOut => simp
  | slept hi _ hev =>
    subst hi
    have hf : s.fsm = .awake := awake_of_guardResult rfl (by decide) hg
    intro hnil
    have hpl := hev.payloads
    rw [(List.append_eq_nil_iff.1 hnil).1, (Plans.sleep hf).payloads] at hpl
    cases hpl
  | busFailed n evs _ _ _ _ hfail =>
    intro hnil
    have hans := hfail.answers
    rw [(List.append_eq_nil_iff.1 hnil).2] at hans
    simp [answersOf] at hans

/-- Settles O35: the cells of the table one by one; a cell that runs passes its guard, and so makes an event. -/
theorem guardTable : Obligations.GuardTable := by
  refine ⟨fun s ys ye h => ⟨exec_full_of_not_awake h, exec_partialRefresh_of_not_awake h ys ye⟩,
    fun s h => ⟨exec_sleep_of_uninit h, exec_wake_of_uninit h⟩, fun s h => exec_sleep_of_sleeping h,
    fun s h => exec_wake_of_awake h, fun i s h => ?runs⟩
  obtain ⟨hrefresh, hg⟩ : isRefresh i = true ∧ guardResult s i = none := by
    rcases h with rfl | ⟨rfl, hf⟩ | ⟨rfl, hf⟩ | ⟨rfl, hf⟩ | ⟨ys, ye, rfl, hf, hv⟩
    · exact ⟨rfl, rfl⟩
    · exact ⟨rfl, if_pos hf⟩
    · exact ⟨rfl, if_pos hf⟩
    · exact ⟨rfl, if_pos hf⟩
    · exact ⟨rfl, guardResult_partialRefresh hf hv⟩
  obtain ⟨t, ht, evs, f, u, r, rfl, he⟩ := exec_ends hrefresh s
  exact ⟨_, ht, by simpa using he.ne_nil hg⟩

/-! ### The five operations (R161 to R181) -/

/-- Settles O36: the three ends of a plan that holds in every FSM state. -/
theorem initRuns : Obligations.InitRuns :=
  ⟨rfl, fun s hs => ⟨fun _ => (Plans.init s).exec_of_idleAfter hs rfl, (Plans.init s).exec_of_busyFor hs rfl,
    fun _ => (Plans.init s).exec_of_busFailsAfter hs⟩⟩

/-- The pieces of the whole frame are the framebuffer (R138, R166). -/
theorem frameChunks_full_flatten (c : Config) (fb : Memory) :
    (frameChunks c.toParams fb 0 c.pH).flatten = (List.range c.fbBytes).map fb.read := by
  obtain ⟨-, -, -, -, -, -, hchunk, -, -⟩ := c.legal_facts
  rw [frameChunks, chunksOf_flatten hchunk _ _ le_rfl, rowsBytes_eq_map_range, c.fbBytes_eq]
  simp

/-- Settles O37: the guard, the pieces of the whole frame, and the three ends of its plan. -/
theorem fullRuns : Obligations.FullRuns :=
  ⟨rfl, fun s => ⟨exec_full_of_not_awake, frameChunks_full_flatten s.cfg s.fb, fun hs hf =>
    ⟨fun _ => (Plans.full hf).exec_of_idleAfter hs (if_pos hf), (Plans.full hf).exec_of_busyFor hs (if_pos hf),
      fun _ => (Plans.full hf).exec_of_busFailsAfter hs⟩⟩⟩

/-- Settles O38: the guard, the region check, and the three ends of its plan. -/
theorem partialRuns : Obligations.PartialRuns := by
  intro s ys ye
  refine ⟨fun hys hye => ?word, fun h => exec_partialRefresh_of_not_awake h ys ye,
    fun hf => exec_partialRefresh_of_invalid hf, fun hf hlt hle => ?runs, fun hs hf hlt hle => ?ends⟩
  case word =>
    rw [encode, encodeP_eq_or _ _ hys hye]
    rfl
  case runs =>
    obtain ⟨t, ht, evs, f, u, r, rfl, he⟩ := exec_ends (i := .partialRefresh ys ye) rfl s
    have hr := he.result_of_guardResult (guardResult_partialRefresh hf ⟨hlt, hle⟩)
    exact ⟨_, ht, fun h : r = _ => hr (by rw [h]; rfl), fun h : r = _ => hr (by rw [h]; rfl)⟩
  case ends =>
    have hrun : s.fsm = .awake ∧ ys < ye ∧ ye ≤ s.cfg.pH := ⟨hf, hlt, hle⟩
    exact ⟨fun _ => (Plans.partialRefresh hrun).exec_of_idleAfter hs (if_pos hrun),
      (Plans.partialRefresh hrun).exec_of_busyFor hs (if_pos hrun),
      fun _ => (Plans.partialRefresh hrun).exec_of_busFailsAfter hs⟩

/-- Settles O40: the two guard cells, and the two ends of its plan. -/
theorem sleepRuns : Obligations.SleepRuns :=
  ⟨rfl, fun _ => ⟨exec_sleep_of_sleeping, exec_sleep_of_uninit, fun hs hf =>
    ⟨(Plans.sleep hf).exec_sleep_of_busOk hs hf, fun _ => (Plans.sleep hf).exec_of_busFailsAfter hs⟩⟩⟩

/-- Settles O41: the two guard cells, and the three ends of its plan. -/
theorem wakeRuns : Obligations.WakeRuns :=
  ⟨rfl, fun _ => ⟨exec_wake_of_awake, exec_wake_of_uninit, fun hs hf =>
    ⟨fun _ => (Plans.wake hf).exec_of_idleAfter hs (if_pos hf), (Plans.wake hf).exec_of_busyFor hs (if_pos hf),
      fun _ => (Plans.wake hf).exec_of_busFailsAfter hs⟩⟩⟩

/-! ### What a refresh operation keeps, and the panel flag (R163, R184, R186) -/

/-- A run of a refresh operation ends in one of the five ways (R160 to R187). -/
theorem ends_of_exec {i : Instr} {s t : State} (hi : isRefresh i = true) (he : exec i s = .next t) : Ends i s t := by
  obtain ⟨u, hu, hends⟩ := exec_ends hi s
  obtain rfl : u = t := Host.Outcome.next.inj (hu.symm.trans he)
  exact hends

/-- Settles O45: however a refresh operation ends, it has only replayed its events and written the FSM, the panel flag
and the result. -/
theorem refreshWritesNoFramebufferState : Obligations.RefreshWritesNoFramebufferState := by
  intro i s hi
  obtain ⟨t, ht, hends⟩ := exec_ends hi s
  exact ⟨t, ht, hends.keeps⟩

/-- A refresh operation from a marked panel clears the mark where it is a successful INIT, and nowhere else (R163). -/
theorem Ending.unk_eq_false_iff {i : Instr} {s : State} {evs : List Event} {f : Fsm} {u : Bool} {r : ResultCode}
    (h : Ending i s evs f u r) (hs : s.unk = true) : u = false ↔ i = .init ∧ r = .ok := by
  cases h with
  | guarded r hg =>
    have hi : i ≠ .init := by
      rintro rfl
      cases hg
    simp [hs, hi]
  | waited => simp [hs]
  | slept hi => simp [hs, hi]
  | timedOut => split <;> simp
  | busFailed => simp

/-- Settles O46: a framebuffer operation keeps `S.unk` and is not INIT; a refresh operation by its ending. -/
theorem onlyASuccessfulInitClearsUnknown : Obligations.OnlyASuccessfulInitClearsUnknown := by
  intro i s t he hs
  cases hi : isRefresh i with
  | false =>
    obtain ⟨hframe, -, -⟩ := exec_framebuffer hi he
    have hunk : t.unk = true := by rw [hframe]; exact hs
    have hinit : i ≠ .init := by
      rintro rfl
      cases hi
    simp [hunk, hinit]
  | true =>
    obtain ⟨evs, f, u, r, rfl, hend⟩ := ends_of_exec hi he
    exact hend.unk_eq_false_iff hs

/-- No guard answers a hardware error (R204). -/
theorem errorClass_of_guardResult {s : State} {i : Instr} {r : ResultCode} (h : guardResult s i = some r) :
    r.errorClass ≠ .hardware := by
  cases i with
  | full => simp only [guardResult] at h; split at h <;> cases h; decide
  | partialRefresh ys ye =>
    simp only [guardResult] at h
    split at h
    · split at h <;> cases h; decide
    · cases h; decide
  | sleep | wake =>
    simp only [guardResult] at h
    split at h
    · cases h
    · split at h <;> cases h <;> decide
  | _ => cases h

/-- No framebuffer operation ends with a hardware error (R119, R202). -/
theorem errorClass_of_framebuffer {i : Instr} (hi : isRefresh i = false) {r : ResultCode} (hr : r ∈ possibleCodes i) :
    r.errorClass ≠ .hardware := by
  cases i with
  | fbnew | setrot _ | clear _ => cases List.mem_singleton.1 hr; decide
  | pset _ _ _ | pget _ _ => rcases List.mem_pair.1 hr with rfl | rfl <;> decide
  | _ => cases hi

/-- Events without a write have none that failed. -/
theorem NoneFailed.of_transactions {evs : List Event} (h : transactions evs = 0) : NoneFailed evs := by
  intro e he
  have hwrite := List.countP_eq_zero.1 h e he
  cases e with
  | write _ _ => exact absurd rfl hwrite
  | pin _ _ | busy _ | delay _ => rfl

/-- What R184 says of the events, the FSM state and the panel flag that a refresh operation ends with. -/
theorem Ending.hardware {i : Instr} {s : State} {evs : List Event} {f : Fsm} {u : Bool} {r : ResultCode}
    (h : Ending i s evs f u r) (hi : isRefresh i = true) (hr : r.errorClass = .hardware) :
    u = true ∧ f = (if i = .init ∨ i = .wake then .uninit else .awake) ∧ noRetry evs = true ∧
      (r ≠ .busTransportError → evs.getLast? = some (.busy s.cfg.pBusyActive)) := by
  have hfsm (hg : guardResult s i = none) :
      (if pulses i then Fsm.uninit else s.fsm) = if i = .init ∨ i = .wake then .uninit else .awake := by
    simp only [← pulses_iff]
    split
    · rfl
    · next hp => exact awake_of_guardResult hi hp hg
  have hpulse : NoneFailed (pulseOf s i) := .of_transactions (transactions_pulseOf s i)
  cases h with
  | guarded r hg => exact absurd hr (errorClass_of_guardResult hg)
  | waited | slept => cases hr
  | timedOut timeout hg hw hev hok =>
    have hwait : NoneFailed (pollEvents s.cfg.toParams (pollBound s.cfg.toParams timeout)
        ++ [.busy s.cfg.pBusyActive]) := .of_transactions (by simp [Event.isWrite])
    exact ⟨rfl, hfsm hg, noRetry_of_all ((hpulse.append hok).append hwait), fun _ => by simp⟩
  | busFailed n evs hg hn hev hnr =>
    exact ⟨rfl, hfsm hg, noRetry_append hpulse hnr, fun h => absurd rfl h⟩

/-- Settles O47: only a refresh operation ends with a hardware error, at a timeout or a failed write. -/
theorem hardwareErrorBookkeeping : Obligations.HardwareErrorBookkeeping := by
  intro i s t he hr
  cases hi : isRefresh i with
  | false =>
    obtain ⟨-, hcode, -⟩ := exec_framebuffer hi he
    exact absurd hr (errorClass_of_framebuffer hi hcode)
  | true =>
    obtain ⟨evs, f, u, r, rfl, hend⟩ := ends_of_exec hi he
    have hnew : newEvents s { s.replay evs with fsm := f, unk := u, result := r } = evs := newEvents_replay s evs
    rw [hnew]
    exact hend.hardware hi hr

end Sys2Proof.Machine

/-! ## The block's reset input: proofs of the statements of 70_reset_and_hazards.md -/

namespace Sys2Proof.Machine

/-! ### The line sets of a block reset (R37, R230) -/

/-- The line sets that a block reset records, in the order of log 19. -/
def resetEvents (p : Params) : List Event := csEvents p p.csIdle ++ [.pin .dc p.dcData, .pin .rst true]

/-- Each of them drives a line to its reset level. -/
theorem eq_pin_of_mem_resetEvents {p : Params} {e : Event} (h : e ∈ resetEvents p) :
    e = .pin .dc p.dcData ∨ e = .pin .cs p.csIdle ∨ e = .pin .rst true := by
  rcases List.mem_append.1 h with hcs | hrest
  · unfold csEvents at hcs
    split at hcs
    · exact .inr (.inl (List.mem_singleton.1 hcs))
    · cases hcs
  · obtain rfl | rfl : e = .pin .dc p.dcData ∨ e = .pin .rst true := by simpa using hrest
    · exact .inl rfl
    · exact .inr (.inr rfl)

/-- On idle lines each of them is redundant (R58). -/
theorem LinesIdle.redundant_of_mem_resetEvents {s : State} (h : LinesIdle s) {e : Event}
    (he : e ∈ resetEvents s.cfg.toParams) : e.redundant s.lines = true := by
  obtain ⟨hdc, hcs, hrst⟩ := h
  rcases eq_pin_of_mem_resetEvents he with rfl | rfl | rfl
  · exact decide_eq_true hdc
  · exact decide_eq_true hcs
  · exact decide_eq_true hrst

/-- Of redundant events nothing is observable. -/
theorem observable_eq_nil {ls : Lines} {evs : List Event} (h : ∀ e ∈ evs, e.redundant ls = true) :
    observable ls evs = [] := by
  induction evs with
  | nil => rfl
  | cons e rest ih =>
    obtain ⟨he, hrest⟩ := List.forall_mem_cons.1 h
    rw [observable_cons_of_redundant he, ih hrest]

/-! ### The state that a block reset leaves (R36, R230) -/

/-- The reset state of the configuration, but for the host's queue and replies, the trace and the environment's answers. -/
theorem State.blockReset_eq (s : State) : s.blockReset = { State.resetOf s.cfg with
    port := s.port, replies := s.replies, trace := s.trace ++ resetEvents s.cfg.toParams, busAnswers := s.busAnswers,
    busyAnswers := s.busyAnswers, draws := s.draws } := by
  apply State.ext_fields <;> simp [State.resetOf, resetEvents]

/-- Settles O15: the step is the block reset, whose line sets are redundant on idle lines. -/
theorem blockResetRestoresTheResetState : Obligations.BlockResetRestoresTheResetState := by
  intro s rest hport
  refine ⟨resetEvents s.cfg.toParams, ?state, fun _ => eq_pin_of_mem_resetEvents,
    fun hs => observable_eq_nil fun _ => hs.redundant_of_mem_resetEvents⟩
  rw [step_serves hport]
  exact congrArg Host.Outcome.next (State.blockReset_eq { s with port := rest })

end Sys2Proof.Machine

/-! ## Command words and lines of text, in both directions: proofs of further statements of 30_encoding.md -/

namespace Sys2Proof

/-! ### What the decoder reads, row by row (R78) -/

/-- The instruction a word is decoded to, by its opcode, its zero reserved bits and its operand fields (R71, R77). -/
inductive Decodes (w : Word) : Instr → Prop where
  | fbnew (hop : fieldOp w = 0x1#4) (hzero : w.extractLsb' 0 28 = 0) : Decodes w .fbnew
  | init (hop : fieldOp w = 0x6#4) (hzero : w.extractLsb' 0 28 = 0) : Decodes w .init
  | full (hop : fieldOp w = 0x7#4) (hzero : w.extractLsb' 0 28 = 0) : Decodes w .full
  | sleep (hop : fieldOp w = 0x9#4) (hzero : w.extractLsb' 0 28 = 0) : Decodes w .sleep
  | wake (hop : fieldOp w = 0xA#4) (hzero : w.extractLsb' 0 28 = 0) : Decodes w .wake
  | setrot (hop : fieldOp w = 0x2#4) (hzero : w.extractLsb' 2 26 = 0) :
    Decodes w (.setrot (Rotation.ofCode (fieldRot w)))
  | clear (hop : fieldOp w = 0x3#4) (hzero : w.extractLsb' 0 27 = 0) :
    Decodes w (.clear (Color.ofCode (fieldColor w)))
  | pset (hop : fieldOp w = 0x4#4) (hzero : w.extractLsb' 26 1 = 0) :
    Decodes w (.pset (Color.ofCode (fieldColor w)) (fieldHigh w) (fieldLow w))
  | pget (hop : fieldOp w = 0x5#4) (hzero : w.extractLsb' 26 2 = 0) : Decodes w (.pget (fieldHigh w) (fieldLow w))
  | partialRefresh (hop : fieldOp w = 0x8#4) (hzero : w.extractLsb' 26 2 = 0) :
    Decodes w (.partialRefresh (fieldHigh w) (fieldLow w))

/-- An arm of the decoder answers its instruction where the word is of its row, and leaves other opcodes to the next. -/
theorem decodeArm_eq_ok {w : Word} {op : BitVec 4} {lo len : Nat} {i j : Instr} {next : Except Illegal Instr}
    (h : (if fieldOp w = op then if w.extractLsb' lo len ≠ 0 then .error .reservedBit else .ok i else next) = .ok j) :
    (fieldOp w = op ∧ w.extractLsb' lo len = 0 ∧ i = j) ∨ next = .ok j := by
  by_cases hop : fieldOp w = op
  · rw [if_pos hop] at h
    by_cases hzero : w.extractLsb' lo len = 0
    · rw [if_neg (not_not_intro hzero)] at h
      exact .inl ⟨hop, hzero, Except.ok.inj h⟩
    · rw [if_pos hzero] at h
      cases h
  · rw [if_neg hop] at h
    exact .inr h

/-- What the decoder answers is what the word's row says. -/
theorem Decodes.of_decode {w : Word} {i : Instr} (h : decode w = .ok i) : Decodes w i := by
  rcases decodeArm_eq_ok h with ⟨hop, hzero, rfl⟩ | h
  · exact .fbnew hop hzero
  rcases decodeArm_eq_ok h with ⟨hop, hzero, rfl⟩ | h
  · exact .init hop hzero
  rcases decodeArm_eq_ok h with ⟨hop, hzero, rfl⟩ | h
  · exact .full hop hzero
  rcases decodeArm_eq_ok h with ⟨hop, hzero, rfl⟩ | h
  · exact .sleep hop hzero
  rcases decodeArm_eq_ok h with ⟨hop, hzero, rfl⟩ | h
  · exact .wake hop hzero
  rcases decodeArm_eq_ok h with ⟨hop, hzero, rfl⟩ | h
  · exact .setrot hop hzero
  rcases decodeArm_eq_ok h with ⟨hop, hzero, rfl⟩ | h
  · exact .clear hop hzero
  rcases decodeArm_eq_ok h with ⟨hop, hzero, rfl⟩ | h
  · exact .pset hop hzero
  rcases decodeArm_eq_ok h with ⟨hop, hzero, rfl⟩ | h
  · exact .pget hop hzero
  rcases decodeArm_eq_ok h with ⟨hop, hzero, rfl⟩ | h
  · exact .partialRefresh hop hzero
  cases h

/-- The decoder answers what the word's row says. -/
theorem Decodes.decode_eq {w : Word} {i : Instr} (h : Decodes w i) : decode w = .ok i := by
  cases h <;> simp [decode, *]

theorem decode_eq_ok_iff {w : Word} {i : Instr} : decode w = .ok i ↔ Decodes w i :=
  ⟨Decodes.of_decode, Decodes.decode_eq⟩

/-! ### From the instruction to the word and back (R71, R82) -/

/-- The operand fields of a word of formats P and R hold the operands that fit them (R71, R74, R75). -/
theorem encodeP_operands (op : BitVec 4) (c : BitVec 1) {hi lo : Nat} (hhi : fits13 hi = true)
    (hlo : fits13 lo = true) :
    fieldHigh (encodeP op c hi lo) = hi ∧ fieldLow (encodeP op c hi lo) = lo := by
  obtain ⟨-, -, -, -, hhigh, hlow⟩ := encodeP_fields op c hi lo
  exact ⟨by rw [fieldHigh, hhigh, toNat_ofNat_of_fits13 hhi], by rw [fieldLow, hlow, toNat_ofNat_of_fits13 hlo]⟩

/-- PSET's word decodes to it. -/
theorem decode_encode_pset (c : Color) {x y : Nat} (hx : fits13 x = true) (hy : fits13 y = true) :
    decode (encode (.pset c x y)) = .ok (.pset c x y) := by
  obtain ⟨hop, hcolor, hzero, -⟩ := encodeP_fields 0x4#4 c.code x y
  obtain ⟨hhigh, hlow⟩ := encodeP_operands 0x4#4 c.code hx hy
  have h := Decodes.pset hop hzero
  rw [hcolor, hhigh, hlow, Color.ofCode_code] at h
  exact h.decode_eq

/-- PGET's word decodes to it. -/
theorem decode_encode_pget {x y : Nat} (hx : fits13 x = true) (hy : fits13 y = true) :
    decode (encode (.pget x y)) = .ok (.pget x y) := by
  obtain ⟨hop, -, -, hzero, -⟩ := encodeP_fields 0x5#4 0#1 x y
  obtain ⟨hhigh, hlow⟩ := encodeP_operands 0x5#4 0#1 hx hy
  have h := Decodes.pget hop hzero
  rw [hhigh, hlow] at h
  exact h.decode_eq

/-- PARTIAL's word decodes to it. -/
theorem decode_encode_partialRefresh {ys ye : Nat} (hys : fits13 ys = true) (hye : fits13 ye = true) :
    decode (encode (.partialRefresh ys ye)) = .ok (.partialRefresh ys ye) := by
  obtain ⟨hop, -, -, hzero, -⟩ := encodeP_fields 0x8#4 0#1 ys ye
  obtain ⟨hhigh, hlow⟩ := encodeP_operands 0x8#4 0#1 hys hye
  have h := Decodes.partialRefresh hop hzero
  rw [hhigh, hlow] at h
  exact h.decode_eq

/-- Settles O1: the words without coordinates one by one, those with coordinates by their fields. -/
theorem decodeOfEncodeIsTheInstruction : Obligations.DecodeOfEncodeIsTheInstruction := by
  intro i hwf
  cases i with
  | fbnew | init | full | sleep | wake => rfl
  | setrot r => cases r <;> rfl
  | clear c => cases c <;> rfl
  | pset c x y =>
    obtain ⟨hx, hy⟩ := Bool.and_eq_true_iff.1 hwf
    exact decode_encode_pset c hx hy
  | pget x y =>
    obtain ⟨hx, hy⟩ := Bool.and_eq_true_iff.1 hwf
    exact decode_encode_pget hx hy
  | partialRefresh ys ye =>
    obtain ⟨hys, hye⟩ := Bool.and_eq_true_iff.1 hwf
    exact decode_encode_partialRefresh hys hye

/-! ### From the word to the instruction and back (R78) -/

/-- A word of SETROT's format is `OP`, `[27:2]` and the rotation's code (R71, R72). -/
theorem word_eq_formatRot (w : Word) : w = fieldOp w ++ w.extractLsb' 2 26 ++ fieldRot w := by
  rw [fieldOp, fieldRot, BitVec.extractLsb'_append_extractLsb'_eq_extractLsb' (show 28 = 2 + 26 from rfl),
    BitVec.extractLsb'_append_extractLsb'_eq_extractLsb' (show 2 = 0 + 2 from rfl)]
  exact BitVec.extractLsb'_eq_self.symm

/-- A word of CLEAR's format is `OP`, the colour's code and `[26:0]` (R71, R73). -/
theorem word_eq_formatColor (w : Word) : w = fieldOp w ++ fieldColor w ++ w.extractLsb' 0 27 := by
  rw [fieldOp, fieldColor, BitVec.extractLsb'_append_extractLsb'_eq_extractLsb' (show 28 = 27 + 1 from rfl),
    BitVec.extractLsb'_append_extractLsb'_eq_extractLsb' (show 27 = 0 + 27 from rfl)]
  exact BitVec.extractLsb'_eq_self.symm

/-- A word with zeros in `[27:0]` is format N's word of its opcode (R71). -/
theorem encodeN_eq_word {w : Word} {op : BitVec 4} (hop : fieldOp w = op) (hzero : w.extractLsb' 0 28 = 0) :
    encodeN op = w := by
  rw [word_eq_formatN w, hop, hzero]
  rfl

/-- A word with a zero in `[26]` is the word of formats P and R of its fields (R71). -/
theorem encodeP_eq_word {w : Word} {op : BitVec 4} {c : BitVec 1} (hop : fieldOp w = op) (hcolor : fieldColor w = c)
    (hzero : w.extractLsb' 26 1 = 0) : encodeP op c (fieldHigh w) (fieldLow w) = w := by
  conv_rhs => rw [word_eq_formatP w, hop, hcolor, hzero]
  simp only [encodeP, fieldHigh, fieldLow, BitVec.ofNat_toNat, BitVec.setWidth_eq]
  rfl

/-- Zeros in `[27:26]` are a zero in `[27]` and one in `[26]` (R71). -/
theorem fieldColor_eq_zero {w : Word} (h : w.extractLsb' 26 2 = 0) :
    fieldColor w = 0#1 ∧ w.extractLsb' 26 1 = 0 := by
  have hparts : fieldColor w ++ w.extractLsb' 26 1 = 0#2 :=
    (BitVec.extractLsb'_append_extractLsb'_eq_extractLsb' rfl).trans h
  have hsplit : ∀ a b : BitVec 1, a ++ b = 0#2 → a = 0#1 ∧ b = 0#1 := by decide
  exact hsplit _ _ hparts

/-- A 13-bit field holds a coordinate that fits it (R74, R75). -/
theorem fits13_fields (w : Word) : fits13 (fieldHigh w) = true ∧ fits13 (fieldLow w) = true :=
  ⟨decide_eq_true (BitVec.isLt _), decide_eq_true (BitVec.isLt _)⟩

/-- Settles O2: row by row, the word is its fields joined, of which the encoder writes each. -/
theorem encodeOfDecodeIsTheWord : Obligations.EncodeOfDecodeIsTheWord := by
  intro w i h
  have hfits : (fits13 (fieldHigh w) && fits13 (fieldLow w)) = true := Bool.and_eq_true_iff.2 (fits13_fields w)
  cases Decodes.of_decode h with
  | fbnew hop hzero => exact ⟨rfl, encodeN_eq_word hop hzero⟩
  | init hop hzero => exact ⟨rfl, encodeN_eq_word hop hzero⟩
  | full hop hzero => exact ⟨rfl, encodeN_eq_word hop hzero⟩
  | sleep hop hzero => exact ⟨rfl, encodeN_eq_word hop hzero⟩
  | wake hop hzero => exact ⟨rfl, encodeN_eq_word hop hzero⟩
  | setrot hop hzero =>
    refine ⟨rfl, ?_⟩
    conv_rhs => rw [word_eq_formatRot w, hop, hzero]
    rw [encode, Rotation.code_ofCode]
    rfl
  | clear hop hzero =>
    refine ⟨rfl, ?_⟩
    conv_rhs => rw [word_eq_formatColor w, hop, hzero]
    rw [encode, Color.code_ofCode]
    rfl
  | pset hop hzero => exact ⟨hfits, encodeP_eq_word hop (Color.code_ofCode _).symm hzero⟩
  | pget hop hzero =>
    obtain ⟨hcolor, hzero⟩ := fieldColor_eq_zero hzero
    exact ⟨hfits, encodeP_eq_word hop hcolor hzero⟩
  | partialRefresh hop hzero =>
    obtain ⟨hcolor, hzero⟩ := fieldColor_eq_zero hzero
    exact ⟨hfits, encodeP_eq_word hop hcolor hzero⟩

namespace Machine

/-! ### The words that decode (R71, R77) -/

/-- A word of a row has the row's opcode, and zeros in the row's reserved bits below it (R71). -/
theorem OpcodeRow.fields_of_admits {w : Word} {op : BitVec 4} {lo len : Nat} (hlen : lo + len ≤ 28)
    (h : (OpcodeRow.ofReserved op lo len).admits w = true) : fieldOp w = op ∧ w.extractLsb' lo len = 0 := by
  have hword : (fieldOp w).setWidth 32 <<< 28 ||| (w.extractLsb' lo len).setWidth 32 <<< lo
      = op.setWidth 32 <<< 28 := by
    rw [fieldOp, ← and_fieldMask, ← and_fieldMask, ← BitVec.and_or_distrib_left]
    exact of_decide_eq_true h
  have hbit (k : Nat) := congrArg (fun v : Word => v.getLsbD k) hword
  constructor
  · ext k hk
    simpa [show 28 + k < 32 by omega, show k < 32 by omega, show ¬ 28 + k - lo < len by omega,
      BitVec.getLsbD_eq_getElem hk] using hbit (28 + k)
  · ext k hk
    simpa [show lo + k < 28 by omega, show lo + k < 32 by omega, show k < 32 by omega, hk] using hbit (lo + k)

/-- A word of the table decodes: its row's arm answers (R71, R77). -/
theorem exists_decodes_of_admits {w : Word} {r : OpcodeRow} (hr : r ∈ opcodeTable) (h : r.admits w = true) :
    ∃ i, Decodes w i := by
  rw [opcodeTable_eq_ofReserved] at hr
  simp only [List.mem_cons, List.not_mem_nil, or_false] at hr
  rcases hr with rfl | rfl | rfl | rfl | rfl | rfl | rfl | rfl | rfl | rfl <;>
    obtain ⟨hop, hzero⟩ := OpcodeRow.fields_of_admits (by decide) h
  · exact ⟨_, .fbnew hop hzero⟩
  · exact ⟨_, .setrot hop hzero⟩
  · exact ⟨_, .clear hop hzero⟩
  · exact ⟨_, .pset hop hzero⟩
  · exact ⟨_, .pget hop hzero⟩
  · exact ⟨_, .init hop hzero⟩
  · exact ⟨_, .full hop hzero⟩
  · exact ⟨_, .partialRefresh hop hzero⟩
  · exact ⟨_, .sleep hop hzero⟩
  · exact ⟨_, .wake hop hzero⟩

/-- Settles O3: a word of no row is `Illegal`, and the arm of a row's word answers. -/
theorem decodableWordsAreTheTableRows : Obligations.DecodableWordsAreTheTableRows := by
  refine fun w => ⟨fun ⟨i, hi⟩ => ?row, fun ⟨r, hr, h⟩ => ?decodes⟩
  case row =>
    by_contra hnone
    push Not at hnone
    obtain ⟨e, he⟩ := decode_error_of_not_admits fun r hr => Bool.eq_false_iff.2 (hnone r hr)
    rw [hi] at he
    cases he
  case decodes =>
    obtain ⟨i, hi⟩ := exists_decodes_of_admits hr h
    exact ⟨i, hi.decode_eq⟩

/-! ### Lines of text (R82, R83) -/

/-- A coordinate that was read fits its field: it is never truncated (R82). -/
theorem fits13_of_readCoordinate {cs : List Char} {n : Nat} (h : readCoordinate cs = some n) : fits13 n = true := by
  unfold readCoordinate at h
  split at h
  · next m _ =>
    split at h
    · next hm =>
      obtain rfl : m = n := Option.some.inj h
      exact hm
    · cases h
  · cases h

/-- An instruction read with two coordinates has two that fit their fields (R82). -/
theorem withTwo_eq_some {f : Nat → Nat → Instr} {a b : List Char} {i : Instr} (h : withTwo f a b = some i) :
    ∃ m n, fits13 m = true ∧ fits13 n = true ∧ i = f m n := by
  unfold withTwo at h
  split at h
  · next m n hm hn =>
    exact ⟨m, n, fits13_of_readCoordinate hm, fits13_of_readCoordinate hn, (Option.some.inj h).symm⟩
  · cases h

/-- An instruction read with two coordinates is well formed when it is so at any two that fit. -/
theorem wellFormed_of_withTwo {f : Nat → Nat → Instr} {a b : List Char} {i : Instr} (h : withTwo f a b = some i)
    (hf : ∀ m n, (f m n).wellFormed = (fits13 m && fits13 n)) : i.wellFormed = true := by
  obtain ⟨m, n, hm, hn, rfl⟩ := withTwo_eq_some h
  rw [hf, hm, hn]
  rfl

/-- What the assembler reads is well formed; for PARTALL because `P_H` is at most 8191 (R9, R82, R83). -/
theorem wellFormed_of_assembleParts {c : Config} {m : Mnemonic} {ops : List (List Char)} {i : Instr}
    (h : assembleParts c.toParams m ops = some i) : i.wellFormed = true := by
  unfold assembleParts at h
  split at h
  -- SETROT and CLEAR
  case h_2 | h_3 =>
    obtain ⟨_, -, rfl⟩ := Option.map_eq_some_iff.1 h
    rfl
  -- PSET
  case h_4 =>
    split at h
    · exact wellFormed_of_withTwo h fun _ _ => rfl
    · cases h
  -- PGET, PARTIAL, PBLK and PWHT
  case h_5 | h_8 | h_13 | h_14 => exact wellFormed_of_withTwo h fun _ _ => rfl
  -- PARTALL
  case h_19 =>
    cases h
    obtain ⟨-, -, -, -, hpH, -⟩ := c.legal_facts
    simp only [Pseudo.expand, Instr.wellFormed, Bool.and_eq_true, decide_eq_true_eq]
    exact ⟨by decide, by omega⟩
  -- a mnemonic with operands it does not take, and the mnemonics that take none
  case h_20 => cases h
  all_goals
    cases h
    rfl

/-- What a line assembles to is well formed (R82). -/
theorem wellFormed_of_assembleLine {c : Config} {line : List Char} {i : Instr}
    (h : assembleLine c.toParams line = some i) : i.wellFormed = true := by
  unfold assembleLine at h
  dsimp only at h
  split at h
  · exact wellFormed_of_assembleParts h
  · cases h

/-- Settles O5: the instruction of the line is well formed, and so its word decodes to it. -/
theorem assembledWordsDecodeToTheirInstruction : Obligations.AssembledWordsDecodeToTheirInstruction := by
  intro c line w h
  obtain ⟨i, hi, rfl⟩ := Option.map_eq_some_iff.1 h
  have hwf := wellFormed_of_assembleLine hi
  exact ⟨i, hi, hwf, decodeOfEncodeIsTheInstruction i hwf⟩

/-- Settles O4: the six lines one by one, under a configuration that none of them reads. -/
theorem workedEncodings : Obligations.WorkedEncodings := by
  intro p e he
  simp only [List.mem_cons, List.not_mem_nil, or_false] at he
  rcases he with rfl | rfl | rfl | rfl | rfl | rfl <;> exact ⟨rfl, rfl, rfl⟩

end Machine
end Sys2Proof

/-! ## The port and the `STATUS` image: proofs of further statements of 10_state.md -/

namespace Sys2Proof.Machine

/-! ### Running a command word (R25, R27, R78) -/

/-- A word that decodes runs its instruction (R78). -/
theorem runCommand_of_decode {w : Word} {i : Instr} (h : decode w = .ok i) (s : State) : runCommand w s = exec i s := by
  unfold runCommand
  rw [h]

/-- Every command word runs to a next state (R205). -/
theorem runCommand_runs (w : Word) (s : State) : ∃ t, runCommand w s = .next t := by
  cases h : decode w with
  | ok i => exact runCommand_of_decode h s ▸ exec_runs i s
  | error e => exact ⟨_, runCommand_of_decode_error h s⟩

/-- Settles O7: the step runs the word, and the word its instruction. -/
theorem stepRunsTheDecodedCommand : Obligations.StepRunsTheDecodedCommand := fun s rest _ _ hport hw =>
  (step_command hport).trans (runCommand_of_decode hw { s with port := rest })

/-- Settles O8: the word that is handed over is the next write to `CMD`. -/
theorem fetchWordIsTheNextCommand : Obligations.FetchWordIsTheNextCommand := by
  intro s w i h
  unfold decodeTableWord at h
  split at h
  · have hdecode : decode (BitVec.ofNat 32 (w % 2 ^ 32)) = .ok i := by
      cases hw : decode (BitVec.ofNat 32 (w % 2 ^ 32)) with
      | ok j =>
        rw [hw] at h
        exact congrArg Except.ok (Option.some.inj h)
      | error e =>
        rw [hw] at h
        cases h
    exact stepRunsTheDecodedCommand (s.withFetchWord 32 w) s.port _ i rfl hdecode
  · cases h

/-! ### Accesses that run no command (R22, R25, R47) -/

/-- Every offset but that of `STATUS` reads as 0 (R25, R47). -/
theorem readPort_of_ne {off : Nat} (h : off ≠ 0x4) (s : State) : readPort off s = 0#32 := if_neg h

/-- Settles O12: such an access is served and changes what it names; with nothing pending the block waits. -/
theorem otherPortAccessesHaveNoEffect : Obligations.OtherPortAccessesHaveNoEffect := by
  refine fun s rest off v => ⟨fun hport hoff => ?read, fun hport hoff => ?write, fun hport => ?idle⟩
  case read => rw [step_read hport, readPort_of_ne hoff]
  case write =>
    rw [step_serves hport]
    exact if_neg hoff
  case idle => simp only [step, hport]

/-! ### Which accesses are served (R25, R205) -/

/-- Whether a host input is served: all but a port access that is not 32 bits wide (R25, D36). -/
def HostInput.Served (x : HostInput) : Prop :=
  (∀ bits off v, x = .write bits off v → bits = 32) ∧ ∀ bits off, x = .read bits off → bits = 32

/-- A 32-bit write goes on, whatever its offset (R25, R47). -/
theorem writePort_runs (off : Nat) (v : Word) (s : State) : ∃ t, writePort off v s = .next t := by
  unfold writePort
  split
  · exact runCommand_runs v s
  · exact ⟨s, rfl⟩

/-- A command cut by a reset goes on (R230). -/
theorem runCutByReset_of_runCommand {w : Word} {s u : State} (h : runCommand w s = .next u) (k : Nat) :
    runCutByReset w k s = .next (cutAfter k s u).blockReset := by
  unfold runCutByReset
  rw [h]

/-- An input that is served goes on. -/
theorem serve_runs {x : HostInput} (h : x.Served) (s : State) : ∃ t, serve x s = .next t := by
  obtain ⟨hwrite, hread⟩ := h
  cases x with
  | write bits off v => exact (hwrite bits off v rfl) ▸ writePort_runs off v s
  | read bits off => exact (hread bits off rfl) ▸ ⟨_, rfl⟩
  | blockReset => exact ⟨_, rfl⟩
  | writeCutByReset w k =>
    obtain ⟨u, hu⟩ := runCommand_runs w s
    exact ⟨_, runCutByReset_of_runCommand hu k⟩

/-- An input that is not served is refused for its width. -/
theorem serve_refused {x : HostInput} (h : ¬ x.Served) (s : State) : serve x s = .refused .accessWidth := by
  cases x with
  | write bits off v => exact if_neg fun hbits : bits = 32 => h ⟨fun _ _ _ hx => by cases hx; exact hbits, nofun⟩
  | read bits off => exact if_neg fun hbits : bits = 32 => h ⟨nofun, fun _ _ hx => by cases hx; exact hbits⟩
  | blockReset => exact absurd ⟨nofun, nofun⟩ h
  | writeCutByReset w k => exact absurd ⟨nofun, nofun⟩ h

/-- Settles O13: a served input goes on, and the others are refused. -/
theorem onlyOtherWidthsAreRefused : Obligations.OnlyOtherWidthsAreRefused := by
  intro s
  cases hport : s.port with
  | nil =>
    have hstep : step s = .next s := by simp only [step, hport]
    exact ⟨⟨fun _ _ hx => (by cases hx), fun _ => ⟨s, hstep⟩⟩, .inl ⟨s, hstep⟩⟩
  | cons x rest =>
    rw [step_serves hport, List.head?_cons]
    by_cases hx : x.Served
    · have hruns := serve_runs hx { s with port := rest }
      exact ⟨⟨fun _ _ hy => (by cases hy; exact hx), fun _ => hruns⟩, .inl hruns⟩
    · have hrefused := serve_refused hx { s with port := rest }
      refine ⟨⟨fun ⟨t, ht⟩ => ?_, fun h => absurd (h x rfl) hx⟩, .inr hrefused⟩
      rw [hrefused] at ht
      cases ht

/-! ### The `STATUS` image tells its fields apart (R20, R200) -/

/-- The FSM states, in the order of their codes (R20). -/
def fsmStates : List Fsm := [.uninit, .awake, .sleeping]

/-- An FSM state's code is its place in the list (R20). -/
theorem fsmStates_getElem? (f : Fsm) : fsmStates[f.code.toNat]? = some f := by cases f <;> rfl

/-- The codes of the FSM states are distinct (R20). -/
theorem Fsm.code_injective : Function.Injective Fsm.code := fun a b h =>
  Option.some.inj ((fsmStates_getElem? a).symm.trans (h ▸ fsmStates_getElem? b))

/-- The result codes, in the order of their values (R200). -/
def resultCodes : List ResultCode :=
  [.ok, .busTransportError, .busyTimeout, .initTimeout, .notAwake, .invalidRegion, .outOfBounds, .badState,
    .illegalCommand]

/-- A result's code is its place in the list (R200). -/
theorem resultCodes_getElem? (r : ResultCode) : resultCodes[r.code.toNat]? = some r := by cases r <;> rfl

/-- The result codes are distinct (R200). -/
theorem ResultCode.code_injective : Function.Injective ResultCode.code := fun a b h =>
  Option.some.inj ((resultCodes_getElem? a).symm.trans (h ▸ resultCodes_getElem? b))

/-- The codes of the rotations are distinct (R72). -/
theorem Rotation.code_injective : Function.Injective Rotation.code :=
  Function.LeftInverse.injective Rotation.ofCode_code

/-- The codes of the colours are distinct (R73). -/
theorem Color.code_injective : Function.Injective Color.code := Function.LeftInverse.injective Color.ofCode_code

/-- Settles O11: the image holds each field's code at its bits, and the codes are distinct. -/
theorem statusImageDeterminesItsFields : Obligations.StatusImageDeterminesItsFields := by
  intro s t h
  obtain ⟨hresult, hfsm, hrot, hpix, hunk, -⟩ := s.status_fields
  rw [h] at hresult hfsm hrot hpix hunk
  obtain ⟨hresult', hfsm', hrot', hpix', hunk', -⟩ := t.status_fields
  exact ⟨ResultCode.code_injective (hresult.symm.trans hresult'), Fsm.code_injective (hfsm.symm.trans hfsm'),
    Rotation.code_injective (hrot.symm.trans hrot'), Color.code_injective (hpix.symm.trans hpix'),
    BitVec.ofBool_eq_iff_eq.1 (hunk.symm.trans hunk')⟩

end Sys2Proof.Machine

/-! ## Rotation, packing and the read-back law: proofs of further statements of 20_memory.md and 40_framebuffer.md -/

namespace Sys2Proof.Machine

/-! ### The rotation transform is a bijection (R105) -/

/-- The logical coordinate of a native pixel: the transform of R102 read backwards. -/
def ofNative (p : Params) (r : Rotation) (a b : Nat) : Nat × Nat :=
  match r with
  | .r0 => (a, b)
  | .r90 => (b, p.pW - 1 - a)
  | .r180 => (p.pW - 1 - a, p.pH - 1 - b)
  | .r270 => (p.pH - 1 - b, a)

/-- The logical coordinate of a native pixel is in bounds (R101, R108). -/
theorem inBounds_ofNative {p : Params} (r : Rotation) {a b : Nat} (ha : a < p.pW) (hb : b < p.pH) :
    inBounds p r (ofNative p r a b).1 (ofNative p r a b).2 = true := by
  rw [inBounds_iff]
  cases r <;> simp only [ofNative, logicalWidth, logicalHeight] <;> omega

/-- The transform leads back to the native pixel (R102). -/
theorem toNative_ofNative {p : Params} (r : Rotation) {a b : Nat} (ha : a < p.pW) (hb : b < p.pH) :
    toNative p r (ofNative p r a b).1 (ofNative p r a b).2 = (a, b) := by
  cases r <;> simp only [ofNative, toNative, Prod.mk.injEq, true_and, and_true] <;> omega

/-- An in-bounds logical coordinate is found again from its native pixel (R102). -/
theorem ofNative_toNative {p : Params} {r : Rotation} {x y : Nat} (h : inBounds p r x y = true) :
    ofNative p r (toNative p r x y).1 (toNative p r x y).2 = (x, y) := by
  rw [inBounds_iff] at h
  cases r <;> simp only [ofNative, toNative, logicalWidth, logicalHeight, Prod.mk.injEq,
    true_and, and_true] at * <;> omega

/-- Settles O23: the transform has an inverse, which lands in bounds. -/
theorem rotationIsABijection : Obligations.RotationIsABijection := by
  refine fun c r => ⟨fun x y h => toNative_lt h, fun x y x' y' h h' heq => ?injective, fun a b ha hb => ?surjective⟩
  case injective =>
    have hback := ofNative_toNative h
    rw [heq, ofNative_toNative h'] at hback
    obtain ⟨rfl, rfl⟩ := Prod.mk.inj hback
    exact ⟨rfl, rfl⟩
  case surjective => exact ⟨_, _, inBounds_ofNative r ha hb, toNative_ofNative r ha hb⟩

/-! ### The packing is a bijection (R51) -/

/-- The byte of a native column lies in its row (R48). -/
theorem column_div_lt_rowBytes {c : Config} {x : Nat} (hx : x < c.pW) : x / 8 < c.rowBytes := by
  have hw := c.pW_eq
  omega

/-- The native row of a pixel, from its byte (R48). -/
theorem byteIndex_div {c : Config} {x : Nat} (hx : x < c.pW) (y : Nat) :
    byteIndex c.toParams x y / c.rowBytes = y := by
  have hbyte := column_div_lt_rowBytes hx
  rw [byteIndex, Nat.mul_comm, Nat.mul_add_div (by omega), Nat.div_eq_of_lt hbyte, Nat.add_zero]

/-- The byte of a pixel within its row (R48). -/
theorem byteIndex_mod {c : Config} {x : Nat} (hx : x < c.pW) (y : Nat) :
    byteIndex c.toParams x y % c.rowBytes = x / 8 := by
  have hbyte := column_div_lt_rowBytes hx
  rw [byteIndex, Nat.mul_comm, Nat.mul_add_mod, Nat.mod_eq_of_lt hbyte]

/-- The column of the pixel that bit `k` of byte `j` of a row holds (R48). -/
def pixelColumn (j k : Nat) : Nat := 8 * j + (7 - k)

/-- Settles O24: row and byte are the quotient and the remainder by `ROW_BYTES`, and a byte's bit is a column. -/
theorem packingIsABijection : Obligations.PackingIsABijection := by
  refine fun c => ⟨fun x y hx hy => ⟨byteIndex_lt hx hy, bitIndex_lt x⟩,
    fun x y x' y' hx _ hx' _ hbyte hbit => ?injective, fun i k hi hk => ?surjective⟩
  case injective =>
    have hy : y = y' := by rw [← byteIndex_div hx y, hbyte, byteIndex_div hx' y']
    have hcolumn : x / 8 = x' / 8 := by rw [← byteIndex_mod hx y, hbyte, byteIndex_mod hx' y']
    unfold bitIndex at hbit
    exact ⟨by omega, hy⟩
  case surjective =>
    have hw := c.pW_eq
    rw [c.fbBytes_eq] at hi
    have hrow : 0 < c.rowBytes := Nat.pos_of_mul_pos_left (Nat.zero_lt_of_lt hi)
    have hmod : i % c.rowBytes < c.rowBytes := Nat.mod_lt i hrow
    refine ⟨pixelColumn (i % c.rowBytes) k, i / c.rowBytes, ?column, ?row, ?byte, ?bit⟩
    case column =>
      unfold pixelColumn
      omega
    case row => exact Nat.div_lt_of_lt_mul (by rwa [Nat.mul_comm])
    case byte =>
      have hcolumn : pixelColumn (i % c.rowBytes) k / 8 = i % c.rowBytes := by
        unfold pixelColumn
        omega
      rw [byteIndex, hcolumn, Nat.mul_comm, Nat.div_add_mod]
    case bit =>
      unfold bitIndex pixelColumn
      omega

/-! ### The read-back law (R117) -/

@[simp] theorem pixelSet_cfg (c : Color) (x y : Nat) (s : State) : (pixelSet c x y s).cfg = s.cfg := by
  unfold pixelSet; split <;> rfl

/-- PGET reads the native pixel of its coordinate where it is in bounds (R115). -/
theorem pixelGet_pix {s : State} {x y : Nat} (h : inBounds s.cfg.toParams s.rot x y = true) :
    (pixelGet x y s).pix =
      pixelAt s.cfg.toParams s.fb (toNative s.cfg.toParams s.rot x y).1 (toNative s.cfg.toParams s.rot x y).2 := by
  rw [pixelGet_of_inBounds h]

/-- PGET after PSET of the same in-bounds coordinate reads the colour that was set (R117). -/
theorem pixelGet_pixelSet_pix {s : State} {x y : Nat} (hwf : s.fb.wf = true)
    (h : inBounds s.cfg.toParams s.rot x y = true) (c : Color) : (pixelGet x y (pixelSet c x y s)).pix = c := by
  have hget : inBounds (pixelSet c x y s).cfg.toParams (pixelSet c x y s).rot x y = true := by simpa using h
  rw [pixelGet_pix hget, pixelSet_cfg, pixelSet_rot, pixelAt_pixelSet hwf h]

/-- Settles O27: SETROT leaves the bytes and takes the rotation, under which PGET reads what PSET wrote. -/
theorem readBackReturnsWhatWasSet : Obligations.ReadBackReturnsWhatWasSet := fun s r c x y hfb hin =>
  ⟨_, _, _, exec_setrot r s, exec_pset c x y _, exec_pget x y _,
    pixelGet_pixelSet_pix (s := setRotation r s) hfb.wf hin c⟩

end Sys2Proof.Machine

/-! ## The busy gate: proofs of further statements of 41_channel_gate.md -/

namespace Sys2Proof.Machine

/-! ### The wait (R141, R143) -/

/-- The samples and delays of a wait leave the lines alone, and each sample takes one busy level. -/
theorem State.replay_wait (s : State) (n : Nat) (l : Level) :
    s.replay (pollEvents s.cfg.toParams n ++ [.busy l]) =
      s.advance (pollEvents s.cfg.toParams n ++ [.busy l]) 0 (n + 1) := by
  have hlines : (pollEvents s.cfg.toParams n ++ [Event.busy l]).foldl Lines.after s.lines = s.lines :=
    Lines.foldl_after_of_notMem (by simp [pin_notMem_pollEvents]) s.lines
  rw [State.replay_eq_advance hlines]
  simp [Event.isWrite, Event.isSample]

/-- A wait that reads busy `K + 1` times makes that many samples and times out (R143). -/
theorem WaitSpec.of_busyFor {k : Nat} {s : State} {m : Micro} (h : WaitSpec k s m) (hb : BusyFor (k + 1) s) :
    m = (.err .timeout, s.advance (pollEvents s.cfg.toParams k ++ [.busy s.cfg.pBusyActive]) 0 (k + 1)) := by
  rcases h with ⟨j, hj, -, hidle, -⟩ | ⟨-, hm⟩
  · obtain ⟨-, hbusy⟩ := hb.at (Nat.lt_succ_of_le hj)
    exact absurd (hbusy.symm.trans hidle) (by simp)
  · rw [hm, State.replay_wait]

/-- A wait that first reads not busy at sample `j + 1`, in time, makes that many samples and succeeds (R143). -/
theorem WaitSpec.of_idleAfter {k j : Nat} {s : State} {m : Micro} (h : WaitSpec k s m) (hj : j ≤ k)
    (hi : IdleAfter j s) :
    m = (.ok, s.advance (pollEvents s.cfg.toParams j ++ [.busy (!s.cfg.pBusyActive)]) 0 (j + 1)) := by
  obtain ⟨hbefore, hat, -⟩ := hi.at
  rcases h with ⟨n, -, hbusy, hidle, hm⟩ | ⟨hbusy, -⟩
  · obtain rfl : n = j := eq_of_first (by simp) hbefore hat hbusy hidle fun _ _ => rfl
    rw [hm, State.replay_wait]
  · exact absurd ((hbusy j hj).symm.trans hat) (by simp)

/-- No wait makes more than `K + 1` samples (R143). -/
theorem WaitSpec.samples_le {k : Nat} {s : State} {m : Micro} (h : WaitSpec k s m) :
    samples (newEvents s m.2) ≤ k + 1 := by
  rcases h with ⟨j, hj, -, -, rfl⟩ | ⟨-, rfl⟩
  · simpa [Event.isSample] using hj
  · simp [Event.isSample]

/-- Settles O34: the two ends of the wait, and the samples of either. -/
theorem waitIdleIsBounded : Obligations.WaitIdleIsBounded := fun timeout s =>
  ⟨(waitIdle_spec timeout s).of_busyFor, fun _ => (waitIdle_spec timeout s).of_idleAfter,
    (waitIdle_spec timeout s).samples_le⟩

end Sys2Proof.Machine

/-! ## The events of an operation: proofs of further statements of 41_channel_gate.md -/

namespace Sys2Proof.Machine

/-! ### What an operation records (R57, R119) -/

/-- A framebuffer operation makes no event (R119). -/
theorem newEvents_of_framebuffer {i : Instr} {s t : State} (hi : isRefresh i = false) (he : exec i s = .next t) :
    newEvents s t = [] := by
  obtain ⟨hframe, -, -⟩ := exec_framebuffer hi he
  rw [hframe]
  exact List.drop_length

/-- A refresh operation ends with the events it made, and the FSM state, panel flag and result it left. -/
theorem Ending.of_exec {i : Instr} {s t : State} (hi : isRefresh i = true) (he : exec i s = .next t) :
    Ending i s (newEvents s t) t.fsm t.unk t.result := by
  obtain ⟨evs, f, u, r, rfl, hend⟩ := ends_of_exec hi he
  have hnew : newEvents s { s.replay evs with fsm := f, unk := u, result := r } = evs := newEvents_replay s evs
  rw [hnew]
  exact hend

/-! ### Events from idle lines (R133) -/

/-- Events that leave idle lines idle, each within the framing discipline (R133). -/
structure KeepsIdle (p : Params) (evs : List Event) : Prop where
  leads : evs.foldl Lines.after (resetLines p) = resetLines p
  framed : framedTrace p (resetLines p) evs = true

theorem KeepsIdle.nil (p : Params) : KeepsIdle p [] := ⟨rfl, rfl⟩

theorem KeepsIdle.append {p : Params} {a b : List Event} (ha : KeepsIdle p a) (hb : KeepsIdle p b) :
    KeepsIdle p (a ++ b) where
  leads := by rw [List.foldl_append, ha.leads, hb.leads]
  framed := framedTrace_append ha.framed (by rw [ha.leads]; exact hb.framed)

/-- The events of bus micro-operations keep the lines idle (R133). -/
theorem BusEvents.keepsIdle {p : Params} {pl : List (List Byte)} {evs : List Event} (h : BusEvents p pl evs) :
    KeepsIdle p evs :=
  ⟨h.lines (resetLines p) rfl rfl, h.framed (resetLines p) rfl rfl⟩

/-- Samples and delays only: no line set and no bus write. -/
def Quiet (evs : List Event) : Prop := ∀ e ∈ evs, e.isPin = false ∧ e.isWrite = false

theorem Quiet.pin_notMem {evs : List Event} (h : Quiet evs) (line : Line) (l : Level) : .pin line l ∉ evs := by
  intro hmem
  obtain ⟨hpin, -⟩ := h _ hmem
  cases hpin

theorem Quiet.delayEvents (ms : Nat) : Quiet (delayEvents ms) := by
  unfold Machine.delayEvents
  split <;> simp [Quiet, Event.isPin, Event.isWrite]

theorem Quiet.wait (p : Params) (n : Nat) (l : Level) : Quiet (pollEvents p n ++ [.busy l]) := by
  intro e he
  rcases List.mem_append.1 he with he | he
  · rcases mem_pollEvents he with rfl | rfl <;> exact ⟨rfl, rfl⟩
  · cases List.mem_singleton.1 he
    exact ⟨rfl, rfl⟩

/-- Samples and delays are framed wherever chip-select is idle (R133). -/
theorem Quiet.framedTrace {p : Params} {evs : List Event} (h : Quiet evs) {ls : Lines} (hcs : ls.cs = p.csIdle) :
    framedTrace p ls evs = true := by
  induction evs with
  | nil => rfl
  | cons e rest ih =>
    obtain ⟨he, hrest⟩ := List.forall_mem_cons.1 h
    cases e with
    | pin _ _ => cases he.1
    | write _ _ => cases he.2
    | busy _ | delay _ => exact Bool.and_eq_true_iff.2 ⟨decide_eq_true hcs, ih hrest⟩

theorem Quiet.keepsIdle {evs : List Event} (h : Quiet evs) (p : Params) : KeepsIdle p evs :=
  ⟨Lines.foldl_after_of_notMem h.pin_notMem _, h.framedTrace rfl⟩

/-- A reset pulse delays with chip-select idle, and ends with the reset line high (R137). -/
theorem KeepsIdle.pulseEvents (p : Params) : KeepsIdle p (pulseEvents p) where
  leads := Lines.foldl_after_pulseEvents p rfl
  framed := by
    have hlow := Quiet.delayEvents p.pTRstLow
    have hsettle := Quiet.delayEvents p.pTRstSettle
    have hrest : framedTrace p { resetLines p with rst := false }
        (delayEvents p.pTRstLow ++ .pin .rst true :: delayEvents p.pTRstSettle) = true := by
      refine framedTrace_append (hlow.framedTrace rfl) ?_
      rw [Lines.foldl_after_of_notMem hlow.pin_notMem]
      exact Bool.and_eq_true_iff.2 ⟨rfl, hsettle.framedTrace rfl⟩
    rw [Machine.pulseEvents, List.append_assoc, List.append_assoc]
    exact Bool.and_eq_true_iff.2 ⟨rfl, hrest⟩

/-! ### The events of every ending (R59, R133, R134) -/

/-- The events of a refresh operation, however it ends: a pulse or none, bus events, and then samples and delays. -/
theorem Ending.parts {i : Instr} {s : State} {evs : List Event} {f : Fsm} {u : Bool} {r : ResultCode}
    (h : Ending i s evs f u r) :
    ∃ pre pl bus tail, evs = pre ++ bus ++ tail ∧ (pre = [] ∨ pre = pulseEvents s.cfg.toParams) ∧
      BusEvents s.cfg.toParams pl bus ∧ Quiet tail := by
  have hpulse : pulseOf s i = [] ∨ pulseOf s i = pulseEvents s.cfg.toParams := by
    unfold pulseOf
    split
    · exact .inr rfl
    · exact .inl rfl
  have hnone : Quiet [] := nofun
  cases h with
  | guarded => exact ⟨[], [], [], [], rfl, .inl rfl, .nil _, hnone⟩
  | waited _ _ _ _ hev => exact ⟨_, _, _, _, rfl, hpulse, hev, .wait _ _ _⟩
  | slept _ _ hev => exact ⟨[], _, _, _, rfl, .inl rfl, hev, .delayEvents _⟩
  | timedOut _ _ _ hev => exact ⟨_, _, _, _, rfl, hpulse, hev, .wait _ _ _⟩
  | busFailed _ _ _ _ hev => exact ⟨_, _, _, [], (List.append_nil _).symm, hpulse, hev, hnone⟩

/-- The events of a refresh operation keep idle lines idle, and are framed (R133). -/
theorem Ending.keepsIdle {i : Instr} {s : State} {evs : List Event} {f : Fsm} {u : Bool} {r : ResultCode}
    (h : Ending i s evs f u r) : KeepsIdle s.cfg.toParams evs := by
  obtain ⟨pre, pl, bus, tail, rfl, rfl | rfl, hbus, htail⟩ := h.parts
  · exact hbus.keepsIdle.append (htail.keepsIdle _)
  · exact ((KeepsIdle.pulseEvents _).append hbus.keepsIdle).append (htail.keepsIdle _)

/-- Where no chip-select line is driven, a refresh operation sets it nowhere (R59). -/
theorem Ending.pin_cs_notMem {i : Instr} {s : State} {evs : List Event} {f : Fsm} {u : Bool} {r : ResultCode}
    (h : Ending i s evs f u r) (hcs : s.cfg.pCsPresent = false) (l : Level) : .pin .cs l ∉ evs := by
  obtain ⟨pre, pl, bus, tail, rfl, hpre, hbus, htail⟩ := h.parts
  have hpre : Event.pin .cs l ∉ pre := by
    rcases hpre with rfl | rfl
    · simp
    · simp [pulseEvents, pin_notMem_delayEvents]
  simp [hpre, hbus.noSelect hcs l, htail.pin_notMem]

/-- However a refresh operation ends, nothing is retried (R134). -/
theorem Ending.noRetry {i : Instr} {s : State} {evs : List Event} {f : Fsm} {u : Bool} {r : ResultCode}
    (h : Ending i s evs f u r) : noRetry evs = true := by
  have hpulse : NoneFailed (pulseOf s i) := .of_transactions (transactions_pulseOf s i)
  have hwait (n : Nat) (l : Level) : NoneFailed (pollEvents s.cfg.toParams n ++ [.busy l]) :=
    .of_transactions (by simp [Event.isWrite])
  cases h with
  | guarded => rfl
  | waited _ _ _ _ _ hok => exact noRetry_of_all ((hpulse.append hok).append (hwait _ _))
  | slept _ _ _ hok => exact noRetry_of_all (hok.append (.of_transactions (transactions_delayEvents _)))
  | timedOut _ _ _ _ hok => exact noRetry_of_all ((hpulse.append hok).append (hwait _ _))
  | busFailed _ _ _ _ _ hnr => exact noRetry_append hpulse hnr

/-- Idle lines are at their reset levels (R36). -/
theorem LinesIdle.iff_lines (s : State) : LinesIdle s ↔ s.lines = resetLines s.cfg.toParams := by
  rw [LinesIdle.iff, State.lines, resetLines, Lines.mk.injEq]

/-- The events of any operation keep idle lines idle, and are framed (R119, R133). -/
theorem exec_keepsIdle {i : Instr} {s t : State} (he : exec i s = .next t) :
    KeepsIdle s.cfg.toParams (newEvents s t) := by
  cases hi : isRefresh i with
  | false => rw [newEvents_of_framebuffer hi he]; exact .nil _
  | true => exact (Ending.of_exec hi he).keepsIdle

/-- Settles O50: a framebuffer operation makes no event, and a refresh operation's are framed and end at a failure. -/
theorem everyOperationFramesItsTransactions : Obligations.EveryOperationFramesItsTransactions := by
  intro i s t hs he
  refine ⟨(LinesIdle.iff_lines s).1 hs ▸ (exec_keepsIdle he).framed, ?_⟩
  cases hi : isRefresh i with
  | false => rw [newEvents_of_framebuffer hi he]; rfl
  | true => exact (Ending.of_exec hi he).noRetry

end Sys2Proof.Machine

/-! ## What holds of every operation: proofs of further statements of 42_refresh_fsm.md, 60_exceptions.md and
70_reset_and_hazards.md -/

namespace Sys2Proof.Machine

/-! ### The transitions and the codes (R187, R202) -/

/-- Where its guard ends it, an operation leaves the FSM where it was (R160, R187). -/
theorem fsmAfter_of_guardResult {i : Instr} {s : State} {r : ResultCode} (h : guardResult s i = some r) :
    fsmAfter s.fsm r i = s.fsm := by
  cases i with
  | init => cases h
  | sleep =>
    have hf : s.fsm ≠ .awake := fun hf => by simp [guardResult, hf] at h
    simp [fsmAfter, hf]
  | wake =>
    have hf : s.fsm ≠ .sleeping := fun hf => by simp [guardResult, hf] at h
    simp [fsmAfter, hf]
  | _ => rfl

/-- WAKE goes on past its guard in `SLEEPING` only (R160). -/
theorem sleeping_of_guardResult {s : State} (h : guardResult s .wake = none) : s.fsm = .sleeping := by
  by_contra hf
  simp only [guardResult, if_neg hf] at h
  split at h <;> cases h

/-- A refresh operation that succeeds after a wait leaves the FSM in `AWAKE` (R187). -/
theorem fsmAfter_of_waitTimeout {i : Instr} {s : State} {timeout : Nat} (hg : guardResult s i = none)
    (hw : waitTimeout s i = some timeout) : fsmAfter s.fsm .ok i = .awake := by
  cases i with
  | init => rfl
  | full | partialRefresh _ _ => exact awake_of_waitTimeout hw rfl
  | wake => simp [fsmAfter, sleeping_of_guardResult hg]
  | _ => cases hw

/-- A refresh operation that fails past its guard has gone to `UNINIT` if it pulses, and else stays (R184, R187). -/
theorem fsmAfter_of_failure {i : Instr} {s : State} {r : ResultCode} (hg : guardResult s i = none) (hr : r ≠ .ok) :
    fsmAfter s.fsm r i = if pulses i then .uninit else s.fsm := by
  cases i with
  | init => simp [fsmAfter, pulses, hr]
  | sleep => simp [fsmAfter, pulses, hr]
  | wake => simp [fsmAfter, pulses, hr, sleeping_of_guardResult hg]
  | _ => rfl

/-- The FSM state a refresh operation ends with is the table's (R187). -/
theorem Ending.fsm_eq_fsmAfter {i : Instr} {s : State} {evs : List Event} {f : Fsm} {u : Bool} {r : ResultCode}
    (h : Ending i s evs f u r) : f = fsmAfter s.fsm r i := by
  cases h with
  | guarded r hg => exact (fsmAfter_of_guardResult hg).symm
  | waited _ _ hg hw => exact (fsmAfter_of_waitTimeout hg hw).symm
  | slept hi hg =>
    subst hi
    simp [fsmAfter, awake_of_guardResult (i := .sleep) rfl (by decide) hg]
  | timedOut _ hg => exact (fsmAfter_of_failure hg (by split <;> decide)).symm
  | busFailed _ _ hg => exact (fsmAfter_of_failure hg (by decide)).symm

/-- The FSM state after any operation is the table's: a framebuffer operation leaves it (R119, R187). -/
theorem exec_fsm_eq_fsmAfter {i : Instr} {s t : State} (he : exec i s = .next t) :
    t.fsm = fsmAfter s.fsm t.result i := by
  cases hi : isRefresh i with
  | false =>
    obtain ⟨hframe, -, -⟩ := exec_framebuffer hi he
    have hfsm : t.fsm = s.fsm := by rw [hframe]
    cases i with
    | init | full | partialRefresh _ _ | sleep | wake => cases hi
    | _ => exact hfsm
  | true => exact (Ending.of_exec hi he).fsm_eq_fsmAfter

/-- Settles O42: a word runs its instruction, or is `Illegal` and leaves the FSM. -/
theorem fsmTransitions : Obligations.FsmTransitions := by
  intro w s t hrun
  rcases runCommand_cases hrun with ⟨i, hi, he⟩ | ⟨e, hw, rfl⟩
  · rw [hi]
    exact exec_fsm_eq_fsmAfter he
  · rw [hw]
    exact State.illegal_fsm s

/-- What a guard or the region check answers is one of the operation's codes (R160, R170, R202). -/
theorem mem_possibleCodes_of_guardResult {i : Instr} {s : State} {r : ResultCode} (h : guardResult s i = some r) :
    r ∈ possibleCodes i := by
  cases i with
  | full => simp only [guardResult] at h; split at h <;> cases h; simp [possibleCodes]
  | partialRefresh ys ye =>
    simp only [guardResult] at h
    split at h
    · split at h <;> cases h; simp [possibleCodes]
    · cases h; simp [possibleCodes]
  | sleep | wake =>
    simp only [guardResult] at h
    split at h
    · cases h
    · split at h <;> cases h <;> simp [possibleCodes]
  | _ => cases h

/-- A refresh operation ends with one of its codes (R202). -/
theorem Ending.result_mem_possibleCodes {i : Instr} {s : State} {evs : List Event} {f : Fsm} {u : Bool}
    {r : ResultCode} (h : Ending i s evs f u r) (hi : isRefresh i = true) : r ∈ possibleCodes i := by
  cases h with
  | guarded r hg => exact mem_possibleCodes_of_guardResult hg
  | waited | slept =>
    cases i with
    | init | full | partialRefresh _ _ | sleep | wake => simp [possibleCodes]
    | _ => cases hi
  | timedOut _ _ hw =>
    cases i with
    | init | full | partialRefresh _ _ | wake => simp [possibleCodes]
    | _ => cases hw
  | busFailed =>
    cases i with
    | init | full | partialRefresh _ _ | sleep | wake => simp [possibleCodes]
    | _ => cases hi

/-- Any operation ends with one of its codes (R202). -/
theorem exec_result_mem_possibleCodes {i : Instr} {s t : State} (he : exec i s = .next t) :
    t.result ∈ possibleCodes i := by
  cases hi : isRefresh i with
  | false =>
    obtain ⟨-, hcode, -⟩ := exec_framebuffer hi he
    exact hcode
  | true => exact (Ending.of_exec hi he).result_mem_possibleCodes hi

/-- Settles O43: a word runs its instruction, or is `Illegal`. -/
theorem resultCodesPerOperation : Obligations.ResultCodesPerOperation := by
  intro w s t hrun
  rcases runCommand_cases hrun with ⟨i, hi, he⟩ | ⟨e, hw, rfl⟩
  · rw [hi]
    exact exec_result_mem_possibleCodes he
  · rw [hw]
    exact State.illegal_result s

/-! ### Caller logic errors, and what SLEEPING and the reset line allow (R179, R204, R231) -/

/-- An operation that its guard ends has changed nothing but the result (R160, R204). -/
theorem exec_of_guardResult {i : Instr} {s t : State} {r : ResultCode} (hg : guardResult s i = some r)
    (hi : isRefresh i = true) (he : exec i s = .next t) : t = { s with result := t.result } := by
  obtain ⟨evs, f, u, r', rfl, hend⟩ := ends_of_exec hi he
  cases hend with
  | guarded => rfl
  | waited _ _ hnone | slept _ hnone | timedOut _ hnone | busFailed _ _ hnone =>
    exact absurd (hnone.symm.trans hg) nofun

/-- Settles O48: such a code is no hardware error and no success, so that the guard or the bounds check answered it. -/
theorem logicErrorsChangeOnlyTheResult : Obligations.LogicErrorsChangeOnlyTheResult := by
  intro i s t he hr
  cases hi : isRefresh i with
  | false =>
    obtain ⟨-, -, hfail⟩ := exec_framebuffer hi he
    refine hfail fun hok => ?_
    rw [hok] at hr
    cases hr
  | true =>
    cases hg : guardResult s i with
    | none => exact absurd hr ((Ending.of_exec hi he).result_of_guardResult hg)
    | some r => exact exec_of_guardResult hg hi he

/-- An operation that its guard ends makes no event (R160). -/
theorem newEvents_of_guardResult {i : Instr} {s t : State} {r : ResultCode} (hg : guardResult s i = some r)
    (hi : isRefresh i = true) (he : exec i s = .next t) : newEvents s t = [] := by
  rw [exec_of_guardResult hg hi he]
  exact List.drop_length

/-- Settles O49: of the operations that make events, those without a pulse pass their guard in `AWAKE` only. -/
theorem sleepingSendsNothingButWakeOrInit : Obligations.SleepingSendsNothingButWakeOrInit := by
  intro i s t he hf hne
  rw [← pulses_iff]
  by_contra hp
  cases hi : isRefresh i with
  | false => exact hne (newEvents_of_framebuffer hi he)
  | true =>
    cases hg : guardResult s i with
    | none =>
      have hawake := awake_of_guardResult hi hp hg
      rw [hf] at hawake
      cases hawake
    | some r => exact hne (newEvents_of_guardResult hg hi he)

/-- Settles O16: a framebuffer operation makes no event, and a refresh operation without a pulse sets no reset line. -/
theorem onlyInitAndWakePulseReset : Obligations.OnlyInitAndWakePulseReset := by
  intro i s t he hmem
  rw [← pulses_iff]
  by_contra hp
  cases hi : isRefresh i with
  | false => simp [newEvents_of_framebuffer hi he] at hmem
  | true => exact (Ending.of_exec hi he).pin_rst_notMem (by simpa using hp) false hmem

/-! ### The bytes of a PARTIAL (R173) -/

/-- An operation that has sampled the busy input has made all of its transactions, and then waited (R141, R172). -/
theorem Ending.payloads_of_samples {i : Instr} {s : State} {evs : List Event} {f : Fsm} {u : Bool} {r : ResultCode}
    (h : Ending i s evs f u r) (hs : 1 ≤ samples evs) :
    payloadsOf evs = plannedPayloads s i ∧ ∃ timeout, waitTimeout s i = some timeout := by
  have hpulse : payloadsOf (pulseOf s i) = [] := by unfold pulseOf; split <;> simp
  cases h with
  | guarded => simp at hs
  | waited timeout _ _ hw hev => exact ⟨by simp [hpulse, hev.payloads, Event.isWrite], timeout, hw⟩
  | slept _ _ hev => simp [hev.samples] at hs
  | timedOut timeout _ hw hev => exact ⟨by simp [hpulse, hev.payloads, Event.isWrite], timeout, hw⟩
  | busFailed _ _ _ _ hev => simp [hev.samples] at hs

/-- PARTIAL waits in `AWAKE` with a valid region only (R170, R172). -/
theorem runs_of_waitTimeout_partialRefresh {s : State} {ys ye timeout : Nat}
    (h : waitTimeout s (.partialRefresh ys ye) = some timeout) : s.fsm = .awake ∧ ys < ye ∧ ye ≤ s.cfg.pH := by
  by_contra hn
  simp only [waitTimeout, if_neg hn] at h
  cases h

/-- The bytes of a refresh: window, write-RAM command, the rows' framebuffer bytes, trigger (R138, R172). -/
theorem refreshPayloads_flatten (c : Config) (fb : Memory) (y0 y1 : Nat) (trigger : List Command) :
    (refreshPayloads c.toParams fb y0 y1 trigger).flatten =
      (listPayloads (c.pp.window 0 y0 c.pW y1)).flatten ++ [c.pp.opWriteRam] ++ rowsBytes c.toParams fb y0 y1
        ++ (listPayloads trigger).flatten := by
  obtain ⟨-, -, -, -, -, -, hchunk, -, -⟩ := c.legal_facts
  have hframe : (frameChunks c.toParams fb y0 y1).flatten = rowsBytes c.toParams fb y0 y1 :=
    chunksOf_flatten hchunk _ _ le_rfl
  simp [refreshPayloads, hframe]

/-- Settles O39: every transaction of the plan was made, and the frame's pieces joined are the rows' bytes. -/
theorem partialByteCount : Obligations.PartialByteCount := by
  intro s t ys ye he hsample
  obtain ⟨hpayloads, timeout, hw⟩ := (Ending.of_exec rfl he).payloads_of_samples hsample
  have hplan := Plans.partialRefresh (runs_of_waitTimeout_partialRefresh hw)
  refine ⟨?bytes, ?count, rowsBytes_eq_map_range .., ?whole⟩
  case bytes => rw [bytesSent_eq_flatten, hpayloads, hplan.payloads, refreshPayloads_flatten]
  case count =>
    rw [rowsBytes_length, s.cfg.pW_eq, Nat.mul_assoc, Nat.mul_div_cancel_left _ (by decide), Nat.mul_comm]
  case whole =>
    rintro rfl rfl
    rw [rowsBytes_length, s.cfg.fbBytes_eq, Nat.sub_zero]

/-! ### The delay totals (R244) -/

/-- Where its guard ends it, an operation owes no delay (R160, R244). -/
theorem leastDelay_of_guardResult {i : Instr} {s : State} {r : ResultCode} (h : guardResult s i = some r) :
    leastDelay s.cfg.toParams s.fsm i = 0 := by
  cases i with
  | init => cases h
  | sleep => exact if_neg fun hf => by simp [guardResult, hf] at h
  | wake => exact if_neg fun hf => by simp [guardResult, hf] at h
  | _ => rfl

/-- The delays of the pulse, where the operation makes one (R137). -/
theorem delayTotal_pulseOf (s : State) (i : Instr) :
    delayTotal (pulseOf s i) = if pulses i then s.cfg.pTRstLow + s.cfg.pTRstSettle else 0 := by
  unfold pulseOf
  split <;> simp

/-- The most delay of an operation that waits is its pulse and `K` polls (R143, R244). -/
theorem mostDelay_of_waitTimeout {i : Instr} {s : State} {timeout : Nat} (h : waitTimeout s i = some timeout) :
    mostDelay s.cfg.toParams i =
      delayTotal (pulseOf s i) + pollBound s.cfg.toParams timeout * s.cfg.pPoll := by
  rw [delayTotal_pulseOf]
  cases i with
  | init => cases h; rfl
  | full | partialRefresh _ _ | wake =>
    simp only [waitTimeout] at h
    split at h <;> cases h
    simp [mostDelay, pulses]
  | _ => cases h

/-- The least delay of an operation that waits is its pulse (R137, R244). -/
theorem leastDelay_of_waitTimeout {i : Instr} {s : State} {timeout : Nat} (h : waitTimeout s i = some timeout) :
    leastDelay s.cfg.toParams s.fsm i ≤ delayTotal (pulseOf s i) := by
  rw [delayTotal_pulseOf]
  cases i with
  | init => exact le_rfl
  | full | partialRefresh _ _ => exact le_rfl
  | wake =>
    simp only [leastDelay, pulses, if_true]
    split <;> omega
  | _ => cases h

/-- No pulse is longer than the most delay of its operation (R244). -/
theorem delayTotal_pulseOf_le_mostDelay (s : State) (i : Instr) :
    delayTotal (pulseOf s i) ≤ mostDelay s.cfg.toParams i := by
  rw [delayTotal_pulseOf]
  cases i with
  | init | wake => exact Nat.le_add_right ..
  | _ => exact Nat.zero_le _

/-- A refresh operation ends within its most delay (R244). -/
theorem Ending.delayTotal_le {i : Instr} {s : State} {evs : List Event} {f : Fsm} {u : Bool} {r : ResultCode}
    (h : Ending i s evs f u r) : delayTotal evs ≤ mostDelay s.cfg.toParams i := by
  cases h with
  | guarded => exact Nat.zero_le _
  | waited timeout j _ hw hev _ _ hj =>
    have hpolls := Nat.mul_le_mul_right s.cfg.pPoll hj
    rw [mostDelay_of_waitTimeout hw]
    simpa [hev.delays, Event.millis] using hpolls
  | slept hi _ hev =>
    subst hi
    simp [hev.delays, mostDelay]
  | timedOut timeout _ hw hev => simp [mostDelay_of_waitTimeout hw, hev.delays, Event.millis]
  | busFailed _ _ _ _ hev => simpa [hev.delays] using delayTotal_pulseOf_le_mostDelay s i

/-- A refresh operation that succeeds has made at least its least delay (R244). -/
theorem Ending.leastDelay_le {i : Instr} {s : State} {evs : List Event} {f : Fsm} {u : Bool} {r : ResultCode}
    (h : Ending i s evs f u r) (hr : r = .ok) : leastDelay s.cfg.toParams s.fsm i ≤ delayTotal evs := by
  cases h with
  | guarded r hg => exact (leastDelay_of_guardResult hg).trans_le (Nat.zero_le _)
  | waited timeout j _ hw =>
    simp only [delayTotal_append, Nat.add_assoc]
    exact (leastDelay_of_waitTimeout hw).trans (Nat.le_add_right ..)
  | slept hi =>
    subst hi
    have hpause : leastDelay s.cfg.toParams s.fsm .sleep ≤ s.cfg.pTSleep := by
      simp only [leastDelay]
      split <;> omega
    rw [delayTotal_append, delayTotal_delayEvents]
    exact hpause.trans (Nat.le_add_left ..)
  | timedOut => split at hr <;> cases hr
  | busFailed => cases hr

/-- A refresh operation that a failed write ends has made the delays of its pulse only (R244). -/
theorem Ending.delayTotal_of_busTransportError {i : Instr} {s : State} {evs : List Event} {f : Fsm} {u : Bool}
    {r : ResultCode} (h : Ending i s evs f u r) (hr : r = .busTransportError) :
    delayTotal evs = delayTotal (pulseOf s i) := by
  cases h with
  | guarded r hg => exact absurd (congrArg ResultCode.errorClass hr) (errorClass_of_guardResult hg)
  | waited | slept => cases hr
  | timedOut => split at hr <;> cases hr
  | busFailed _ _ _ _ hev => simp [hev.delays]

/-- A framebuffer operation owes no delay (R119, R244). -/
theorem leastDelay_of_framebuffer {i : Instr} (hi : isRefresh i = false) (p : Params) (f : Fsm) :
    leastDelay p f i = 0 := by
  cases i with
  | fbnew | setrot _ | clear _ | pset _ _ _ | pget _ _ => rfl
  | _ => cases hi

/-- Settles O51: a framebuffer operation makes no event, and a refresh operation's delays are those of its ending. -/
theorem delayTotals : Obligations.DelayTotals := by
  intro i s t he
  cases hi : isRefresh i with
  | false =>
    rw [newEvents_of_framebuffer hi he, leastDelay_of_framebuffer hi]
    refine ⟨Nat.zero_le _, fun _ => le_rfl, fun _ _ => rfl, ?_⟩
    rintro rfl
    cases hi
  | true =>
    have hend := Ending.of_exec hi he
    refine ⟨hend.delayTotal_le, hend.leastDelay_le, ?sleep, ?init⟩
    all_goals
      rintro rfl hr
      rw [hend.delayTotal_of_busTransportError hr, delayTotal_pulseOf]
      rfl

end Sys2Proof.Machine

/-! ## What every step keeps: proofs of further statements of 20_memory.md and 70_reset_and_hazards.md -/

namespace Sys2Proof.Machine

/-! ### What a command word can do, said once (R57, R62) -/

/-- The events of a command from idle lines: they keep the lines idle, are framed, and set no chip-select line that is
not driven (R59, R133). -/
structure CommandEvents (p : Params) (evs : List Event) : Prop where
  keepsIdle : KeepsIdle p evs
  noSelect : p.pCsPresent = false → ∀ l, .pin .cs l ∉ evs

theorem CommandEvents.nil (p : Params) : CommandEvents p [] := ⟨.nil p, nofun⟩

/-- A command moves the trace, the lines and the environment's answers by the events it makes, and keeps the
configuration, the host's side and a framebuffer in order. -/
structure CommandFrame (s t : State) : Prop where
  cfg : t.cfg = s.cfg
  replies : t.replies = s.replies
  trace : t.trace = s.trace ++ newEvents s t
  lines : t.lines = (newEvents s t).foldl Lines.after s.lines
  busAnswers : t.busAnswers = s.busAnswers.drop (transactions (newEvents s t))
  busyAnswers : t.busyAnswers = s.busyAnswers.drop (samples (newEvents s t))
  draws : t.draws = s.draws + transactions (newEvents s t) + samples (newEvents s t)
  events : CommandEvents s.cfg.toParams (newEvents s t)
  fb : FbOk s → FbOk t

/-- A command that has replayed its events, and besides that written fields which no event moves. -/
theorem CommandFrame.of_replay {s t : State} {evs : List Event}
    (ht : t = { s.replay evs with
      fsm := t.fsm, unk := t.unk, fb := t.fb, rot := t.rot, pix := t.pix, result := t.result })
    (hevs : CommandEvents s.cfg.toParams evs) (hfb : FbOk s → FbOk t) : CommandFrame s t := by
  have htrace : t.trace = s.trace ++ evs := (congrArg State.trace ht).trans (s.replay_trace evs)
  obtain rfl : newEvents s t = evs := by rw [newEvents, htrace, List.drop_left]
  exact
    { cfg := (congrArg State.cfg ht).trans (s.replay_cfg _)
      replies := (congrArg State.replies ht).trans (s.replay_replies _)
      trace := htrace
      lines := (congrArg State.lines ht).trans (s.replay_lines _)
      busAnswers := (congrArg State.busAnswers ht).trans (s.replay_busAnswers _)
      busyAnswers := (congrArg State.busyAnswers ht).trans (s.replay_busyAnswers _)
      draws := (congrArg State.draws ht).trans (s.replay_draws _)
      events := hevs
      fb := hfb }

/-- PSET keeps a framebuffer in order: it writes a byte below `FB_BYTES` (R45, R110). -/
theorem FbOk.pixelSet {s : State} (h : FbOk s) (c : Color) (x y : Nat) : FbOk (pixelSet c x y s) := by
  cases hin : inBounds s.cfg.toParams s.rot x y with
  | true =>
    obtain ⟨hx, hy⟩ := toNative_lt hin
    rw [pixelSet_of_inBounds hin]
    exact ⟨Memory.wf_write h.wf _ _, Memory.below_write h.below (byteIndex_lt hx hy) _⟩
  | false =>
    rw [pixelSet_of_outOfBounds hin]
    exact ⟨h.wf, h.below⟩

/-- PGET leaves the framebuffer (R115, R116). -/
theorem FbOk.pixelGet {s : State} (h : FbOk s) (x y : Nat) : FbOk (pixelGet x y s) := by
  have hcfg : (Machine.pixelGet x y s).cfg = s.cfg := by unfold Machine.pixelGet; split <;> rfl
  exact ⟨by rw [pixelGet_fb]; exact h.wf, by rw [pixelGet_fb, hcfg]; exact h.below⟩

/-- A framebuffer operation keeps a framebuffer in order (R45, R100 to R116). -/
theorem FbOk.exec_framebuffer {i : Instr} {s t : State} (h : FbOk s) (hi : isRefresh i = false)
    (he : exec i s = .next t) : FbOk t := by
  cases i with
  | fbnew => cases he; exact ⟨Memory.wf_fill s.cfg.fbBytes 0x00#8, Memory.below_fill s.cfg.fbBytes 0x00#8⟩
  | clear c =>
    cases he
    exact ⟨Memory.wf_fill s.cfg.fbBytes (fillByte c), Memory.below_fill s.cfg.fbBytes (fillByte c)⟩
  | setrot r => cases he; exact ⟨h.wf, h.below⟩
  | pset c x y => cases he; exact h.pixelSet c x y
  | pget x y => cases he; exact h.pixelGet x y
  | _ => cases hi

/-- Any operation is a command: of no event, or of those of its ending. -/
theorem CommandFrame.of_exec {i : Instr} {s t : State} (he : exec i s = .next t) : CommandFrame s t := by
  cases hi : isRefresh i with
  | false =>
    obtain ⟨hframe, -, -⟩ := exec_framebuffer hi he
    exact .of_replay (evs := []) (by rw [hframe]; rfl) (.nil _) fun h => h.exec_framebuffer hi he
  | true =>
    obtain ⟨evs, f, u, r, rfl, hend⟩ := ends_of_exec hi he
    refine .of_replay rfl ⟨hend.keepsIdle, hend.pin_cs_notMem⟩ fun h => ?_
    exact ⟨by simpa using h.wf, by simpa using h.below⟩

/-- A command word is one: an `Illegal` word makes no event and writes the result alone (R79). -/
theorem CommandFrame.of_runCommand {w : Word} {s t : State} (h : runCommand w s = .next t) : CommandFrame s t := by
  rcases runCommand_cases h with ⟨i, -, he⟩ | ⟨e, -, rfl⟩
  · exact .of_exec he
  · exact .of_replay (evs := []) rfl (.nil _) fun h => ⟨h.wf, h.below⟩

/-! ### What a step can do, said once (R25, R27, R230) -/

/-- How the host input that has been taken from the queue of `s` is served. -/
inductive Serves (s : State) : State → Prop where
  /-- A write to an offset that takes none, or no input at all (R22, R47). -/
  | ignored : Serves s s
  /-- A command word. -/
  | command {t : State} (h : CommandFrame s t) : Serves s t
  /-- A read (R25). -/
  | answered (v : Word) : Serves s { s with replies := s.replies ++ [v] }
  /-- The reset input, after the first `k` of the events of the command it cuts, if it cuts one (R230; log 9). -/
  | reset {evs : List Event} (h : CommandEvents s.cfg.toParams evs) (k : Nat) :
    Serves s (s.replay (evs.take k)).blockReset

/-- A served input is served in one of these ways. -/
theorem Serves.of_serve {x : HostInput} {s t : State} (h : serve x s = .next t) : Serves s t := by
  cases x with
  | write bits off v =>
    simp only [serve] at h
    split at h
    · unfold writePort at h
      split at h
      · exact .command (.of_runCommand h)
      · cases h; exact .ignored
    · cases h
  | read bits off =>
    simp only [serve] at h
    split at h <;> cases h
    exact .answered _
  | blockReset =>
    cases h
    exact .reset (.nil _) 0
  | writeCutByReset w k =>
    obtain ⟨u, hu⟩ := runCommand_runs w s
    rw [serve, runCutByReset_of_runCommand hu] at h
    cases h
    exact .reset (CommandFrame.of_runCommand hu).events k

/-- A step serves the oldest input of the queue, or none. -/
theorem Serves.of_step {s t : State} (h : step s = .next t) : ∃ port, Serves { s with port := port } t := by
  cases hport : s.port with
  | nil =>
    have hwait : step s = .next s := by simp only [step, hport]
    rw [hwait] at h
    cases h
    exact ⟨s.port, .ignored⟩
  | cons x rest =>
    rw [step_serves hport] at h
    exact ⟨rest, .of_serve h⟩

/-! ### A cut command (R230; log 9) -/

/-- Settles O17: the step replays the first `k` events and resets the block, which records line sets only. -/
theorem cutCommandLeavesAnEventPrefix : Obligations.CutCommandLeavesAnEventPrefix := by
  intro s rest w k i u hport hw he
  have hrun : runCommand w { s with port := rest } = .next u := (runCommand_of_decode hw _).trans he
  refine ⟨_, resetEvents s.cfg.toParams, (step_serves hport).trans (runCutByReset_of_runCommand hrun k), ?trace,
    ?pins, ?state⟩
  case trace => simp [State.blockReset_eq, cutAfter, newEvents]
  case pins =>
    intro e hmem
    rcases eq_pin_of_mem_resetEvents hmem with rfl | rfl | rfl <;> rfl
  case state =>
    rw [State.blockReset_eq]
    simp [cutAfter]

/-! ### The trace and the answers only move forward (R57, R61, R62) -/

/-- The trace and the replies grow at their end, the environment's answers are taken from the front, and the
configuration stays. -/
structure Appends (s t : State) : Prop where
  trace : s.trace <+: t.trace
  busAnswers : t.busAnswers <:+ s.busAnswers
  busyAnswers : t.busyAnswers <:+ s.busyAnswers
  draws : s.draws ≤ t.draws
  replies : s.replies <+: t.replies
  cfg : t.cfg = s.cfg

theorem Appends.of_command {s t : State} (h : CommandFrame s t) : Appends s t where
  trace := h.trace ▸ List.prefix_append ..
  busAnswers := h.busAnswers ▸ List.drop_suffix ..
  busyAnswers := h.busyAnswers ▸ List.drop_suffix ..
  draws := by rw [h.draws]; omega
  replies := h.replies ▸ List.prefix_rfl
  cfg := h.cfg

/-- Replayed events and a reset only append. -/
theorem Appends.blockReset_replay (s : State) (evs : List Event) : Appends s (s.replay evs).blockReset := by
  constructor <;> simp [List.drop_suffix, Nat.add_assoc]

theorem Appends.of_serves {s t : State} (h : Serves s t) : Appends s t := by
  cases h with
  | ignored => exact ⟨List.prefix_rfl, List.suffix_rfl, List.suffix_rfl, le_rfl, List.prefix_rfl, rfl⟩
  | command h => exact .of_command h
  | answered v => exact ⟨List.prefix_rfl, List.suffix_rfl, List.suffix_rfl, le_rfl, List.prefix_append .., rfl⟩
  | reset h k => exact .blockReset_replay ..

/-- Settles O55: so does every way a step serves its input. -/
theorem stepsOnlyAppendToTheTrace : Obligations.StepsOnlyAppendToTheTrace := by
  intro s t h
  obtain ⟨port, hserves⟩ := Serves.of_step h
  obtain ⟨htrace, hbus, hbusy, hdraws, hreplies, hcfg⟩ := Appends.of_serves hserves
  exact ⟨htrace, hbus, hbusy, hdraws, hreplies, hcfg⟩

/-! ### The framebuffer and the idle lines (R45, R133) -/

/-- The reset state meets the invariant (R36). -/
theorem Invariant.resetOf (c : Config) : Invariant (State.resetOf c) := ⟨⟨rfl, rfl⟩, ⟨rfl, rfl, rfl⟩⟩

/-- A command from idle lines leaves them idle (R133). -/
theorem CommandFrame.linesIdle {s t : State} (h : CommandFrame s t) (hs : LinesIdle s) : LinesIdle t := by
  rw [LinesIdle.iff_lines] at hs ⊢
  rw [h.lines, hs, h.cfg, h.events.keepsIdle.leads]

/-- A block reset drives the lines to their idle levels (R37, R230). -/
theorem LinesIdle.blockReset (s : State) : LinesIdle s.blockReset := by
  rw [LinesIdle.iff]
  simp

/-- A block reset empties the framebuffer (R36, R230). -/
theorem FbOk.blockReset (s : State) : FbOk s.blockReset := ⟨rfl, rfl⟩

theorem Invariant.of_serves {s t : State} (hs : Invariant s) (h : Serves s t) : Invariant t := by
  obtain ⟨hfb, hlines⟩ := hs
  cases h with
  | ignored => exact ⟨hfb, hlines⟩
  | command h => exact ⟨h.fb hfb, h.linesIdle hlines⟩
  | answered v => exact ⟨⟨hfb.wf, hfb.below⟩, ⟨hlines.dc, hlines.cs, hlines.rst⟩⟩
  | reset h k => exact ⟨.blockReset _, .blockReset _⟩

/-- The invariant does not read the host's queue. -/
theorem Invariant.with_port {s : State} (h : Invariant s) (port : List HostInput) : Invariant { s with port := port } :=
  ⟨⟨h.fb.wf, h.fb.below⟩, ⟨h.lines.dc, h.lines.cs, h.lines.rst⟩⟩

/-- Settles O58: every way a step serves its input keeps the invariant. -/
theorem stepsKeepTheInvariant : Obligations.StepsKeepTheInvariant := by
  intro s t hs h
  obtain ⟨port, hserves⟩ := Serves.of_step h
  exact (hs.with_port port).of_serves hserves

/-! ### The recorded trace (R57, R133) -/

/-- A trace in order is one that keeps idle lines idle, recorded up to idle lines. -/
theorem TraceOk.iff_keepsIdle (s : State) : TraceOk s ↔ LinesIdle s ∧ KeepsIdle s.cfg.toParams s.trace := by
  constructor
  · rintro ⟨hlines, hleads, hframed⟩
    exact ⟨hlines, hleads.trans ((LinesIdle.iff_lines s).1 hlines), hframed⟩
  · rintro ⟨hlines, hleads, hframed⟩
    exact ⟨hlines, hleads.trans ((LinesIdle.iff_lines s).1 hlines).symm, hframed⟩

/-- The reset state has an empty trace and idle lines (R36, R37). -/
theorem TraceOk.resetOf (c : Config) : TraceOk (State.resetOf c) :=
  (TraceOk.iff_keepsIdle _).2 ⟨(Invariant.resetOf c).lines, .nil _⟩

/-- Settles O57: the reset state in any configuration, the machine's own among them. -/
theorem resetMeetsTheInvariant : Obligations.ResetMeetsTheInvariant :=
  ⟨⟨.resetOf Config.board, .resetOf⟩, .resetOf Config.board, .resetOf⟩

/-- Events that set no chip-select line leave its level. -/
theorem Lines.foldl_after_cs {evs : List Event} (h : ∀ l, .pin .cs l ∉ evs) (ls : Lines) :
    (evs.foldl Lines.after ls).cs = ls.cs := by
  induction evs generalizing ls with
  | nil => rfl
  | cons e rest ih =>
    rw [List.foldl_cons, ih fun l hl => h l (List.mem_cons_of_mem _ hl)]
    cases e with
    | pin line l =>
      cases line with
      | cs => exact absurd (List.mem_cons_self ..) (h l)
      | dc | rst => rfl
    | write _ _ | busy _ | delay _ => rfl

/-- The line sets of a block reset lead to the reset levels, from lines whose chip-select is idle where it is not driven
(R37, R59). -/
theorem Lines.foldl_after_resetEvents {p : Params} {ls : Lines} (h : p.pCsPresent = false → ls.cs = p.csIdle) :
    (resetEvents p).foldl Lines.after ls = resetLines p := by
  cases hp : p.pCsPresent with
  | true => simp [resetEvents, csEvents, hp, Lines.after, Lines.set, resetLines]
  | false => simp [resetEvents, csEvents, hp, Lines.after, Lines.set, resetLines, h hp]

/-- The line sets of a block reset close a transaction that the reset may have cut (R133; log 19). -/
theorem closesNext_resetEvents (p : Params) : closesNext p (resetEvents p) = true := by
  cases hp : p.pCsPresent <;> simp [resetEvents, csEvents, closesNext, hp]

/-- Line sets are framed at any levels (R133). -/
theorem framedTrace_resetEvents (p : Params) (ls : Lines) : framedTrace p ls (resetEvents p) = true := by
  cases hp : p.pCsPresent <;> simp [resetEvents, csEvents, hp, framedTrace, Event.framed]

/-- The first events of a command and then a block reset (R230; log 9). -/
theorem CommandEvents.keepsIdle_cut {p : Params} {evs : List Event} (h : CommandEvents p evs) (k : Nat) :
    KeepsIdle p (evs.take k ++ resetEvents p) where
  leads := by
    rw [List.foldl_append]
    exact Lines.foldl_after_resetEvents fun hp =>
      Lines.foldl_after_cs (fun l hl => h.noSelect hp l (List.mem_of_mem_take hl)) _
  framed := framedTrace_cut h.keepsIdle.framed (closesNext_resetEvents p) (framedTrace_resetEvents p) k

theorem TraceOk.of_serves {s t : State} (hs : TraceOk s) (h : Serves s t) : TraceOk t := by
  obtain ⟨hlines, hidle⟩ := (TraceOk.iff_keepsIdle s).1 hs
  rw [TraceOk.iff_keepsIdle]
  cases h with
  | ignored => exact ⟨hlines, hidle⟩
  | command h =>
    rw [h.trace, h.cfg]
    exact ⟨h.linesIdle hlines, hidle.append h.events.keepsIdle⟩
  | answered v => exact ⟨⟨hlines.dc, hlines.cs, hlines.rst⟩, hidle⟩
  | reset h k =>
    refine ⟨.blockReset _, ?_⟩
    simpa [State.blockReset_eq, State.resetOf] using hidle.append (h.keepsIdle_cut k)

/-- The recorded trace is apart from the host's queue. -/
theorem TraceOk.with_port {s : State} (h : TraceOk s) (port : List HostInput) : TraceOk { s with port := port } :=
  ⟨⟨h.lines.dc, h.lines.cs, h.lines.rst⟩, h.leads, h.framed⟩

/-- Settles O59: every way a step serves its input adds to the trace events that keep the lines idle. -/
theorem stepsKeepTheTraceFramed : Obligations.StepsKeepTheTraceFramed := by
  intro s t hs h
  obtain ⟨port, hserves⟩ := Serves.of_step h
  exact (hs.with_port port).of_serves hserves

end Sys2Proof.Machine
